-- ==== Sys2Proof/Word.lean ====
section
/-! DEFINITION. Word.lean: the bit-vector types of the engine (00_scope.md R8 to R11).
Every value of the spec is unsigned (R8), so a bit vector is read with `toNat` and never as a signed number. -/

namespace Sys2Proof

/-- A u8, the unit of host memory and of the partial block (R11, R22). -/
abbrev Byte := BitVec 8

/-- A u32: chaining words, message words, window registers (R7, R38). -/
abbrev Word := BitVec 32

/-- A u64: host addresses, lengths, the byte counter (R7, R41, R42). -/
abbrev DWord := BitVec 64

/-- A 128-bit vector of four 32-bit lanes (R10). -/
abbrev Vec := BitVec 128

end Sys2Proof
end

