-- ==== Sys2Proof/Syntax.lean ====
section
/-! DEFINITION. Syntax.lean: the instructions, one constructor per row of spec/opcode_table.json: the nine command words
(30_encoding.md R87) and the thirteen hash-extension primitives (R91). -/

namespace Sys2Proof

/-- A datapath register xmm0 to xmm7, the number in a three-bit ModRM field (R91). -/
abbrev XReg := Fin 8

/-- An instruction. A command names its slot by number (field CTX, and SRC for CLONE: unsigned slot indexes, R82, R84);
a primitive names its registers and, where R91 gives it one, its 8-bit immediate. `d` is xmm1, the destination and first
source, and `r` is xmm2, the second source (R91, R92). -/
inductive Instr where
  | initSha1 (c : Nat)
  | initSha256 (c : Nat)
  | initSha224 (c : Nat)
  | update (c : Nat)
  | final (c : Nat)
  | clone (c src : Nat)
  | reset (c : Nat)
  | release (c : Nat)
  | xform (c : Nat)
  | sha1rnds4 (d r : XReg) (imm : Byte)
  | sha1nexte (d r : XReg)
  | sha1msg1 (d r : XReg)
  | sha1msg2 (d r : XReg)
  | sha256rnds2 (d r : XReg)
  | sha256msg1 (d r : XReg)
  | sha256msg2 (d r : XReg)
  | pshufb (d r : XReg)
  | pshufd (d r : XReg) (imm : Byte)
  | palignr (d r : XReg) (imm : Byte)
  | paddd (d r : XReg)
  | pxor (d r : XReg)
  | pblendw (d r : XReg) (imm : Byte)
  deriving DecidableEq, Repr

/-- What an encoding is laid out as: a 32-bit command word written to CMD (R80, R89), or the bytes of a primitive, first
byte first (R91). -/
inductive Code where
  | command (w : Word)
  | primitive (bytes : List Byte)
  deriving DecidableEq, Repr

end Sys2Proof
end

