-- ==== Sys2Proof/WellFormed.lean ====
section
/-! DEFINITION. WellFormed.lean: which terms of `Instr` an encoding can carry. The slot fields CTX and SRC are eight bits
(30_encoding.md R80, R82, R84); register numbers and immediates are exact by their types. A slot that the encoding can
carry and the engine does not have (index at or above N_CTX) is well formed: it faults E_BAD_CTX when it runs. -/

namespace Sys2Proof

/-- A slot index that fits the 8-bit fields CTX and SRC (R82, R84). -/
def slotFits (c : Nat) : Bool := decide (c < 256)

/-- Every operand fits its field. -/
def Instr.wellFormed : Instr → Bool
  | .initSha1 c => slotFits c
  | .initSha256 c => slotFits c
  | .initSha224 c => slotFits c
  | .update c => slotFits c
  | .final c => slotFits c
  | .clone c src => slotFits c && slotFits src
  | .reset c => slotFits c
  | .release c => slotFits c
  | .xform c => slotFits c
  | .sha1rnds4 _ _ _ => true
  | .sha1nexte _ _ => true
  | .sha1msg1 _ _ => true
  | .sha1msg2 _ _ => true
  | .sha256rnds2 _ _ => true
  | .sha256msg1 _ _ => true
  | .sha256msg2 _ _ => true
  | .pshufb _ _ => true
  | .pshufd _ _ _ => true
  | .palignr _ _ _ => true
  | .paddd _ _ => true
  | .pxor _ _ => true
  | .pblendw _ _ _ => true

end Sys2Proof
end

