-- ==== Sys2Proof/Decode.lean ====
section
/-! DEFINITION. Decode.lean: the two encodings of 30_encoding.md, each written from its own table: command words
(R80 to R89) and primitives (R91), the decoders (total on any word and any bytes; `none` is the rejection) and, after
them, the encoder. -/

namespace Sys2Proof

/-! ## Fields -/

/-- The field of `width` bits of `w` that starts at bit `lo`: `w[lo+width-1 : lo]` (R8). -/
def field (w : Word) (lo width : Nat) : BitVec width := w.extractLsb' lo width

/-- OP, bits [3:0] (R80). -/
def fieldOp (w : Word) : BitVec 4 := field w 0 4

/-- ALG, bits [5:4] (R80). -/
def fieldAlg (w : Word) : BitVec 2 := field w 4 2

/-- RSV0, bits [7:6] (R80). -/
def fieldRsv0 (w : Word) : BitVec 2 := field w 6 2

/-- CTX, bits [15:8] (R80, R82). -/
def fieldCtx (w : Word) : BitVec 8 := field w 8 8

/-- SRC, bits [23:16] (R80, R84). -/
def fieldSrc (w : Word) : BitVec 8 := field w 16 8

/-- RSV1, bits [31:24] (R80). -/
def fieldRsv1 (w : Word) : BitVec 8 := field w 24 8

/-! ## Command words -/

/-- One row of the table of R87: a word is the row's when `word & mask = pattern`; the row's instruction is made from
the fields CTX and SRC. -/
structure CommandRow where
  mnemonic : String
  pattern : Word
  mask : Word
  make : Nat → Nat → Instr

/-- R87, row by row. -/
def commandRows : List CommandRow :=
  [ ⟨"INIT.SHA1",   0x00000001#32, 0xFFFF00FF#32, fun c _ => .initSha1 c⟩,
    ⟨"INIT.SHA256", 0x00000011#32, 0xFFFF00FF#32, fun c _ => .initSha256 c⟩,
    ⟨"INIT.SHA224", 0x00000021#32, 0xFFFF00FF#32, fun c _ => .initSha224 c⟩ ] ++
  [ ⟨"UPDATE",      0x00000002#32, 0xFFFF00FF#32, fun c _ => .update c⟩,
    ⟨"FINAL",       0x00000003#32, 0xFFFF00FF#32, fun c _ => .final c⟩,
    ⟨"CLONE",       0x00000004#32, 0xFF0000FF#32, fun c src => .clone c src⟩ ] ++
  [ ⟨"RESET",       0x00000005#32, 0xFFFF00FF#32, fun c _ => .reset c⟩,
    ⟨"RELEASE",     0x00000006#32, 0xFFFF00FF#32, fun c _ => .release c⟩,
    ⟨"XFORM",       0x00000007#32, 0xFFFF00FF#32, fun c _ => .xform c⟩ ]

/-- `w` matches the row (R87). -/
def CommandRow.hits (w : Word) (r : CommandRow) : Bool := w &&& r.mask == r.pattern

/-- The command a word stands for; `none` for a word that matches no row of R87, which is illegal (R88). -/
def decodeCommand (w : Word) : Option Instr :=
  (commandRows.find? (CommandRow.hits w)).map fun r => r.make (fieldCtx w).toNat (fieldSrc w).toNat

/-! ## Primitives -/

/-- One row of the table of R91: the bytes before ModRM, whether an immediate byte follows ModRM, and the instruction
made from `rrr`, `mmm` and the immediate. -/
structure PrimitiveRow where
  mnemonic : String
  opcode : List Byte
  hasImm : Bool
  make : XReg → XReg → Byte → Instr

/-- R91, row by row. -/
def primitiveRows : List PrimitiveRow :=
  [ ⟨"SHA1RNDS4",   [0x0F#8, 0x3A#8, 0xCC#8], true,  fun d r imm => .sha1rnds4 d r imm⟩,
    ⟨"SHA1NEXTE",   [0x0F#8, 0x38#8, 0xC8#8], false, fun d r _ => .sha1nexte d r⟩,
    ⟨"SHA1MSG1",    [0x0F#8, 0x38#8, 0xC9#8], false, fun d r _ => .sha1msg1 d r⟩,
    ⟨"SHA1MSG2",    [0x0F#8, 0x38#8, 0xCA#8], false, fun d r _ => .sha1msg2 d r⟩ ] ++
  [ ⟨"SHA256RNDS2", [0x0F#8, 0x38#8, 0xCB#8], false, fun d r _ => .sha256rnds2 d r⟩,
    ⟨"SHA256MSG1",  [0x0F#8, 0x38#8, 0xCC#8], false, fun d r _ => .sha256msg1 d r⟩,
    ⟨"SHA256MSG2",  [0x0F#8, 0x38#8, 0xCD#8], false, fun d r _ => .sha256msg2 d r⟩ ] ++
  [ ⟨"PSHUFB",      [0x66#8, 0x0F#8, 0x38#8, 0x00#8], false, fun d r _ => .pshufb d r⟩,
    ⟨"PSHUFD",      [0x66#8, 0x0F#8, 0x70#8], true,  fun d r imm => .pshufd d r imm⟩,
    ⟨"PALIGNR",     [0x66#8, 0x0F#8, 0x3A#8, 0x0F#8], true,  fun d r imm => .palignr d r imm⟩ ] ++
  [ ⟨"PADDD",       [0x66#8, 0x0F#8, 0xFE#8], false, fun d r _ => .paddd d r⟩,
    ⟨"PXOR",        [0x66#8, 0x0F#8, 0xEF#8], false, fun d r _ => .pxor d r⟩,
    ⟨"PBLENDW",     [0x66#8, 0x0F#8, 0x3A#8, 0x0E#8], true,  fun d r imm => .pblendw d r imm⟩ ]

/-- A ModRM byte `11 rrr mmm`: its registers, or `none` when bits [7:6] are not `11`, since only the register forms are
encodings of R91. -/
def modrmRegs (m : Byte) : Option (XReg × XReg) :=
  if m.extractLsb' 6 2 = 3#2 then some ((m.extractLsb' 3 3).toFin, (m.extractLsb' 0 3).toFin) else none

/-- The instruction the row reads from `bytes`: its opcode bytes, ModRM, the immediate where it has one, and nothing after. -/
def PrimitiveRow.parse (bytes : List Byte) (row : PrimitiveRow) : Option Instr :=
  if bytes.take row.opcode.length = row.opcode then
    match row.hasImm, bytes.drop row.opcode.length with
    | false, [m] => (modrmRegs m).map fun p => row.make p.1 p.2 0#8
    | true, [m, imm] => (modrmRegs m).map fun p => row.make p.1 p.2 imm
    | _, _ => none
  else none

/-- The primitive some bytes encode; `none` for bytes that are no encoding of R91. -/
def decodePrimitive (bytes : List Byte) : Option Instr := primitiveRows.findSome? (PrimitiveRow.parse bytes)

/-- The decoder of both encodings. -/
def decode : Code → Option Instr
  | .command w => decodeCommand w
  | .primitive bytes => decodePrimitive bytes

/-! ## The encoder -/

/-- A command word from its fields, the reserved fields zero (R80, R85). -/
def commandWord (op : BitVec 4) (alg : BitVec 2) (c src : Nat) : Word :=
  0#8 ++ BitVec.ofNat 8 src ++ BitVec.ofNat 8 c ++ 0#2 ++ alg ++ op

/-- The ModRM byte `11 rrr mmm` (R91). -/
def modrmByte (d r : XReg) : Byte := 3#2 ++ BitVec.ofFin (w := 3) d ++ BitVec.ofFin (w := 3) r

/-- The encoding of an instruction: OP and ALG from R81 and R83, opcode bytes from R91. -/
def encode : Instr → Code
  | .initSha1 c => .command (commandWord 1#4 0#2 c 0)
  | .initSha256 c => .command (commandWord 1#4 1#2 c 0)
  | .initSha224 c => .command (commandWord 1#4 2#2 c 0)
  | .update c => .command (commandWord 2#4 0#2 c 0)
  | .final c => .command (commandWord 3#4 0#2 c 0)
  | .clone c src => .command (commandWord 4#4 0#2 c src)
  | .reset c => .command (commandWord 5#4 0#2 c 0)
  | .release c => .command (commandWord 6#4 0#2 c 0)
  | .xform c => .command (commandWord 7#4 0#2 c 0)
  | .sha1rnds4 d r imm => .primitive [0x0F#8, 0x3A#8, 0xCC#8, modrmByte d r, imm]
  | .sha1nexte d r => .primitive [0x0F#8, 0x38#8, 0xC8#8, modrmByte d r]
  | .sha1msg1 d r => .primitive [0x0F#8, 0x38#8, 0xC9#8, modrmByte d r]
  | .sha1msg2 d r => .primitive [0x0F#8, 0x38#8, 0xCA#8, modrmByte d r]
  | .sha256rnds2 d r => .primitive [0x0F#8, 0x38#8, 0xCB#8, modrmByte d r]
  | .sha256msg1 d r => .primitive [0x0F#8, 0x38#8, 0xCC#8, modrmByte d r]
  | .sha256msg2 d r => .primitive [0x0F#8, 0x38#8, 0xCD#8, modrmByte d r]
  | .pshufb d r => .primitive [0x66#8, 0x0F#8, 0x38#8, 0x00#8, modrmByte d r]
  | .pshufd d r imm => .primitive [0x66#8, 0x0F#8, 0x70#8, modrmByte d r, imm]
  | .palignr d r imm => .primitive [0x66#8, 0x0F#8, 0x3A#8, 0x0F#8, modrmByte d r, imm]
  | .paddd d r => .primitive [0x66#8, 0x0F#8, 0xFE#8, modrmByte d r]
  | .pxor d r => .primitive [0x66#8, 0x0F#8, 0xEF#8, modrmByte d r]
  | .pblendw d r imm => .primitive [0x66#8, 0x0F#8, 0x3A#8, 0x0E#8, modrmByte d r, imm]

/-! ## The opcode table's numbering -/

/-- The bytes of a table word of `nbits` bits: spec/opcode_table.json numbers a primitive's bits with the first byte most
significant (its notes: 'first byte most significant in match/mask'). -/
def tableBytes (nbits w : Nat) : List Byte :=
  (List.range (nbits / 8)).map fun i => BitVec.ofNat 8 (w >>> (nbits - 8 * (i + 1)))

/-- A table word as a `Code`: a 32-bit word that matches a row of R87 is a command, and any other is laid out as the bytes
of a primitive. No word is both: a command word's top byte is 0, and a primitive's first byte is 0x0F or 0x66. -/
def tableCode (nbits w : Nat) : Code :=
  if nbits = 32 ∧ (decodeCommand (BitVec.ofNat 32 w)).isSome then .command (BitVec.ofNat 32 w)
  else .primitive (tableBytes nbits w)

/-- The instruction the decoder reads from an opcode-table word (the host's question). -/
def decodeTableWord (nbits w : Nat) : Option Instr := decode (tableCode nbits w)

end Sys2Proof
end

