-- ==== Sys2Proof/Config.lean ====
section
/-! DEFINITION. Config.lean: what is fixed for the engine (00_scope.md R7), the type of the platform's OPEN
parameters, and the free values (`draw()`, R12 and R13), which have no body. -/

namespace Sys2Proof

namespace Config

/-- BLOCK_SIZE, 64 bytes for all three algorithms (R7). -/
def blockSize : Nat := 64

/-- LEN_LIMIT, the largest total length admitted, in bytes (R7, D14). -/
def lenLimit : Nat := 2 ^ 61 - 1

/-- One past the last host byte address: ADDR_W = 64 (R7). -/
def addrSpace : Nat := 2 ^ 64

/-- The size of the register window in bytes (R38). -/
def windowBytes : Nat := 256

/-- DESIGN CHOICE (log 3), unsafe: what a byte of host memory that no cell lists reads as.
A definition of this file, and the only one that says so. -/
def blankByte : Byte := 0#8

/-- FREE VALUE (log 5): the `k`-th draw of a 32-bit window read (R29, R46, R47). -/
opaque freeWord : Nat → Word

/-- FREE VALUE (log 5): the `k`-th draw of a 7-bit partial length (R28, R45). -/
opaque freePlen : Nat → BitVec 7

/-- FREE VALUE (log 5): byte `j` of the `k`-th draw of a partial block (R25, R28). -/
opaque freeByte : Nat → Nat → Byte

/-- FREE VALUE (log 6): datapath register `r` after the `k`-th transform, where the spec says it holds no value (R34). -/
opaque freeVec : Nat → Nat → Vec

end Config

namespace Machine

/-- The `kind` of a host-memory access the engine makes (R62). -/
inductive AccessKind where
  | read
  | write
  deriving DecidableEq, Repr

/-- One row of the platform's admission map, as plain data. It admits an access of kind `kind` to `n` bytes at `a` when
`base ≤ a`, `a + n ≤ limit` and `minLen ≤ n ≤ maxLen`. The predicate MemOK(kind, a, n) of R7 is OPEN, any predicate at
all: finitely many rows give every predicate on u64 addresses and lengths (one row with `base = a`, `limit = a + n`,
`minLen = maxLen = n` admits exactly one access), so a claim for every map is a claim for every MemOK. -/
structure AdmitRule where
  kind : AccessKind
  base : Nat
  limit : Nat
  minLen : Nat
  maxLen : Nat
  deriving DecidableEq, Repr

/-- The platform's OPEN parameters (R7) other than N_CTX, which is the length of the list of slots: HAS_SHA_EXT, the map
MemOK as rows, and REG_BASE. They are arguments of the model: they stand in `State`, no step changes them, and a claim
about every state is a claim about every platform. -/
structure Platform where
  hasShaExt : Bool
  memMap : List AdmitRule
  regBase : DWord
  deriving DecidableEq, Repr

/-- DESIGN CHOICE (log 2): the platform of `State.reset`. It is the platform of the spec's own programs
(95_test_vectors.md section 3): HAS_SHA_EXT = 1, RAM at 0x0000 to 0xFFFF readable and writable, and REG_BASE an address
outside that RAM. -/
def Platform.sample : Platform where
  hasShaExt := true
  memMap :=
    [ ⟨.read, 0, 0x10000, 0, 0x10000⟩,
      ⟨.write, 0, 0x10000, 0, 0x10000⟩ ]
  regBase := 0x10000#64

end Machine

/-- N_CTX of `State.reset` (log 2): 4, as 95_test_vectors.md section 3. -/
def Config.sampleSlots : Nat := 4

end Sys2Proof
end

