-- ==== Sys2Proof/Machine/Bytes.lean ====
section
/-! DEFINITION. Machine/Bytes.lean: byte order and vector layout (00_scope.md R8 to R11, 20_memory.md R64 to R66,
41_hash_primitives.md R150 and R156). -/

namespace Sys2Proof.Machine

/-! ## Words and bytes (R11) -/

/-- `be32(b, i)`, the big-endian word at word index `i`. -/
def be32 (b : List Byte) (i : Nat) : Word :=
  b.getD (4 * i) 0#8 ++ b.getD (4 * i + 1) 0#8 ++ b.getD (4 * i + 2) 0#8 ++ b.getD (4 * i + 3) 0#8

/-- `be32_bytes(w)`, most significant byte first. -/
def be32Bytes (w : Word) : List Byte :=
  [w.extractLsb' 24 8, w.extractLsb' 16 8, w.extractLsb' 8 8, w.extractLsb' 0 8]

/-- `be64_bytes(x)`, most significant byte first. -/
def be64Bytes (x : DWord) : List Byte :=
  [x.extractLsb' 56 8, x.extractLsb' 48 8, x.extractLsb' 40 8, x.extractLsb' 32 8,
   x.extractLsb' 24 8, x.extractLsb' 16 8, x.extractLsb' 8 8, x.extractLsb' 0 8]

/-- `n` zero bytes. -/
def zeros (n : Nat) : List Byte := List.replicate n 0#8

/-! ## Lanes, bytes and 16-bit words of a vector (R10) -/

/-- `lane_i(X) = X[32i+31 : 32i]` (R10). -/
def lane (x : Vec) (i : Nat) : Word := x.extractLsb' (32 * i) 32

/-- The vector literal `{l3, l2, l1, l0}`, highest lane first (R10). -/
def vec (l3 l2 l1 l0 : Word) : Vec := l3 ++ l2 ++ l1 ++ l0

/-- Byte `j` of a vector, bits `[8j+7 : 8j]` (41_hash_primitives.md section 3). -/
def byteOf (x : Vec) (j : Nat) : Byte := x.extractLsb' (8 * j) 8

/-- 16-bit word `j` of a vector, bits `[16j+15 : 16j]` (41_hash_primitives.md section 3). -/
def wordOf (x : Vec) (j : Nat) : BitVec 16 := x.extractLsb' (16 * j) 16

/-- The vector whose byte `j` is `f j`. -/
def ofBytes (f : Nat → Byte) : Vec :=
  f 15 ++ f 14 ++ f 13 ++ f 12 ++ f 11 ++ f 10 ++ f 9 ++ f 8 ++ f 7 ++ f 6 ++ f 5 ++ f 4 ++ f 3 ++ f 2 ++ f 1 ++ f 0

/-- The vector whose 16-bit word `j` is `f j`. -/
def ofWords (f : Nat → BitVec 16) : Vec := f 7 ++ f 6 ++ f 5 ++ f 4 ++ f 3 ++ f 2 ++ f 1 ++ f 0

end Sys2Proof.Machine
end

