-- ==== Sys2Proof/Machine/State.lean ====
section
/-! DEFINITION. Machine/State.lean: the state of the engine (10_state.md), plain data, and the state after reset
(10_state.md R49, 70_reset_and_hazards.md R280). -/

namespace Sys2Proof.Machine

/-- The algorithm of a slot (R23). The encoding 3 is never stored. -/
inductive Alg where
  | sha1
  | sha256
  | sha224
  deriving DecidableEq, Repr

/-- The lifecycle of a slot that holds a HashState (R27). FREE, the lifecycle of a slot that holds none, is the empty slot. -/
inductive Life where
  | fresh
  | streaming
  | finalized
  deriving DecidableEq, Repr

/-- One in-flight hash computation, the fields of R22. -/
structure HashState where
  /-- `life`, R27 -/
  life : Life
  /-- `alg`, R23 -/
  alg : Alg
  /-- `H[0..7]`, the chaining value, R22, R36 -/
  h : Vector Word 8
  /-- `buf[0..63]`, the partial block, R22 -/
  buf : Vector Byte 64
  /-- `plen`, the partial length, R22 -/
  plen : BitVec 7
  /-- `total`, the count of bytes passed to UPDATE, R22, R26 -/
  total : DWord
  deriving DecidableEq, Repr

/-- The fault record ERR (R43). Its reserved bits read 0 and have no storage. -/
structure ErrReg where
  /-- bit 0 -/
  valid : Bool
  /-- bit 1 -/
  ovf : Bool
  /-- bits [11:8] -/
  code : BitVec 4
  /-- bits [15:12] -/
  op : BitVec 4
  /-- bits [23:16] -/
  ctx : BitVec 8
  deriving DecidableEq, Repr

/-- What the outside does to the engine, in the one total order of R73. `hostRead` and `hostWrite` are the 32-bit
accesses to the register window at a byte offset (R200, R201); `memLoad` and `memStore` are the host's own accesses to a
byte of its memory (R21, R73); `platformReset` is the reset of R280; `datapath` is the transform engines' own sequencer
issuing one primitive, given by its bytes (R91, R93: no host issues one; log 7). -/
inductive Input where
  | hostRead (off : BitVec 8)
  | hostWrite (off : BitVec 8) (w : Word)
  | memLoad (a : DWord)
  | memStore (a : DWord) (b : Byte)
  | platformReset
  | datapath (bytes : List Byte)
  deriving DecidableEq, Repr

/-- Host memory as (address, byte) cells in one canonical form (`Memory.wf`, Machine/Ops.lean). -/
abbrev Memory := List Host.Cell

/-- The engine, its host memory, and the inputs that wait for it. -/
structure State where
  /-- the OPEN parameters HAS_SHA_EXT, MemOK and REG_BASE (R7); CAP shows the first (R39) -/
  platform : Platform
  /-- ARG_ADDR (R41) -/
  argAddr : DWord
  /-- ARG_LEN (R42) -/
  argLen : DWord
  /-- ERR (R43) -/
  err : ErrReg
  /-- CTX_SEL.SEL (R44) -/
  ctxSel : BitVec 8
  /-- the N_CTX context slots (R20); `none` is a FREE slot, which holds no HashState (R27, R29) -/
  slots : List (Option HashState)
  /-- xmm0 to xmm7, the registers the primitives name (R91, R92); they hold no value between commands (R34) -/
  xmm : Vector Vec 8
  /-- host memory (R60) -/
  mem : Memory
  /-- the model's own: the inputs to come, first one first -/
  pending : List Input
  /-- the model's own: the value the last host read returned (R200) -/
  readData : Word
  /-- the model's own: how many draws have been taken (R12) -/
  draws : Nat
  deriving DecidableEq, Repr

/-- Where a step stops: an input of which the spec says nothing. No instruction stops; each of these is safe. -/
inductive Fault where
  /-- Raised by a window access at an offset that is no multiple of 4, and by a byte access of the host inside the register
  window: 'a host precondition violation, and nothing is said of such a run' (R200). Safe: the model stops. -/
  | windowAccess
  /-- Raised by the sequencer input on bytes that encode no primitive: 'the engine has no illegal primitive encoding to
  trap' (R93). Safe: the model stops. -/
  | illegalPrimitive
  /-- Raised by the sequencer input when HAS_SHA_EXT = 0: 'no primitive ever runs without the extension' (R147).
  Safe: the model stops. -/
  | datapathUnavailable
  deriving DecidableEq, Repr

/-- Why an instruction has no meaning in the model. -/
inductive Refusal where
  /-- Raised by exec's arm of an instruction that has no meaning yet. Safe: the model stops. -/
  | notModelled (mnemonic : String)
  deriving DecidableEq, Repr

/-- ERR with nothing recorded (R43, R49). -/
def ErrReg.clear : ErrReg := ⟨false, false, 0#4, 0#4, 0#8⟩

/-- The engine of a platform with `n` slots right after reset (R49, R280): ARG_ADDR, ARG_LEN, ERR and CTX_SEL are 0 and
every slot is FREE. The datapath registers hold no value (R280) and are 0 here (DESIGN CHOICE, log 4, unsafe); so is the
model's own read port. Host memory is the host's, not the engine's: it is taken as it stands. -/
def State.resetOf (p : Platform) (n : Nat) (mem : Memory) : State where
  platform := p
  argAddr := 0#64
  argLen := 0#64
  err := ErrReg.clear
  ctxSel := 0#8
  slots := List.replicate n none
  xmm := Vector.replicate 8 0#128
  mem := mem
  pending := []
  readData := 0#32
  draws := 0

/-- The machine right after reset, on the sample platform (log 2), with nothing listed in host memory. -/
def State.reset : State := State.resetOf Platform.sample Config.sampleSlots []

end Sys2Proof.Machine
end

