-- ==== Sys2Proof/Machine/Sha.lean ====
section
/-! DEFINITION. Machine/Sha.lean: the SHA functions, constants, message schedules and compression functions
(40_sha_functions.md R110 to R126), which are the normative result of the transforms (10_state.md R35, D22). -/

namespace Sys2Proof.Machine

/-! ## Word functions -/

/-- `ROTL^n(x)` for 0 < n < 32 (00_scope.md R9). -/
def rotl (n : Nat) (x : Word) : Word := (x <<< n) ||| (x >>> (32 - n))

/-- `ROTR^n(x) = ROTL^(32-n)(x)` (R9). -/
def rotr (n : Nat) (x : Word) : Word := rotl (32 - n) x

/-- `Ch` (R110). -/
def ch (x y z : Word) : Word := (x &&& y) ^^^ (~~~x &&& z)

/-- `Parity` (R110). -/
def parity (x y z : Word) : Word := x ^^^ y ^^^ z

/-- `Maj` (R110). -/
def maj (x y z : Word) : Word := (x &&& y) ^^^ (x &&& z) ^^^ (y &&& z)

/-- `Σ0` (R111). -/
def bigSigma0 (x : Word) : Word := rotr 2 x ^^^ rotr 13 x ^^^ rotr 22 x

/-- `Σ1` (R111). -/
def bigSigma1 (x : Word) : Word := rotr 6 x ^^^ rotr 11 x ^^^ rotr 25 x

/-- `σ0`, a right shift in its last term (R111). -/
def smallSigma0 (x : Word) : Word := rotr 7 x ^^^ rotr 18 x ^^^ (x >>> 3)

/-- `σ1`, a right shift in its last term (R111). -/
def smallSigma1 (x : Word) : Word := rotr 17 x ^^^ rotr 19 x ^^^ (x >>> 10)

/-! ## Constants -/

/-- The SHA-1 round constant of selector `sel` (R112). -/
def k1 (sel : Nat) : Word :=
  match sel with
  | 0 => 0x5A827999#32
  | 1 => 0x6ED9EBA1#32
  | 2 => 0x8F1BBCDC#32
  | _ => 0xCA62C1D6#32

/-- The SHA-1 round function of selector `sel` (R117, R140). -/
def f1 (sel : Nat) (x y z : Word) : Word :=
  match sel with
  | 0 => ch x y z
  | 1 => parity x y z
  | 2 => maj x y z
  | _ => parity x y z

/-- The SHA-256 round constants K[0..63] (R113), four to a row. -/
def k256 : List Word :=
  [0x428a2f98#32, 0x71374491#32, 0xb5c0fbcf#32, 0xe9b5dba5#32] ++
  [0x3956c25b#32, 0x59f111f1#32, 0x923f82a4#32, 0xab1c5ed5#32] ++
  [0xd807aa98#32, 0x12835b01#32, 0x243185be#32, 0x550c7dc3#32] ++
  [0x72be5d74#32, 0x80deb1fe#32, 0x9bdc06a7#32, 0xc19bf174#32] ++
  [0xe49b69c1#32, 0xefbe4786#32, 0x0fc19dc6#32, 0x240ca1cc#32] ++
  [0x2de92c6f#32, 0x4a7484aa#32, 0x5cb0a9dc#32, 0x76f988da#32] ++
  [0x983e5152#32, 0xa831c66d#32, 0xb00327c8#32, 0xbf597fc7#32] ++
  [0xc6e00bf3#32, 0xd5a79147#32, 0x06ca6351#32, 0x14292967#32] ++
  [0x27b70a85#32, 0x2e1b2138#32, 0x4d2c6dfc#32, 0x53380d13#32] ++
  [0x650a7354#32, 0x766a0abb#32, 0x81c2c92e#32, 0x92722c85#32] ++
  [0xa2bfe8a1#32, 0xa81a664b#32, 0xc24b8b70#32, 0xc76c51a3#32] ++
  [0xd192e819#32, 0xd6990624#32, 0xf40e3585#32, 0x106aa070#32] ++
  [0x19a4c116#32, 0x1e376c08#32, 0x2748774c#32, 0x34b0bcb5#32] ++
  [0x391c0cb3#32, 0x4ed8aa4a#32, 0x5b9cca4f#32, 0x682e6ff3#32] ++
  [0x748f82ee#32, 0x78a5636f#32, 0x84c87814#32, 0x8cc70208#32] ++
  [0x90befffa#32, 0xa4506ceb#32, 0xbef9a3f7#32, 0xc67178f2#32]

/-- K[t] (R113). -/
def k256At (t : Nat) : Word := k256.getD t 0#32

/-- `IV(alg)`: IV1 with H[5..7] = 0, IV256, IV224 (R114, R115, R116, R126). -/
def iv : Alg → Vector Word 8
  | .sha1 => #v[0x67452301#32, 0xEFCDAB89#32, 0x98BADCFE#32, 0x10325476#32, 0xC3D2E1F0#32, 0#32, 0#32, 0#32]
  | .sha256 => #v[0x6a09e667#32, 0xbb67ae85#32, 0x3c6ef372#32, 0xa54ff53a#32, 0x510e527f#32, 0x9b05688c#32, 0x1f83d9ab#32, 0x5be0cd19#32]
  | .sha224 => #v[0xc1059ed8#32, 0x367cd507#32, 0x3070dd17#32, 0xf70e5939#32, 0xffc00b31#32, 0x68581511#32, 0x64f98fa7#32, 0xbefa4fa4#32]

/-! ## Loops -/

/-- `n` more entries of a schedule kept newest first, each made by `next` from those before it. -/
def extendBy {α : Type} (next : List α → α) : Nat → List α → List α
  | 0, ws => ws
  | n + 1, ws => extendBy next n (next ws :: ws)

/-- Rounds `t`, `t+1`, ..., one for each entry of the list; `body t w v` is round `t` with entry `w`. -/
def roundsFrom {α β : Type} (body : Nat → α → β → β) : Nat → List α → β → β
  | _, [], v => v
  | t, w :: ws, v => roundsFrom body (t + 1) ws (body t w v)

/-! ## SHA-1 -/

/-- The SHA-1 working variables, and a SHA-1 chaining value H[0..4] (R119, R120). -/
structure Vars1 where
  a : Word
  b : Word
  c : Word
  d : Word
  e : Word
  deriving DecidableEq, Repr

/-- One more word of the SHA-1 schedule from the words so far, newest first: W[t-3], W[t-8], W[t-14], W[t-16] stand at
places 2, 7, 13, 15 (R118). -/
def next1 (newest : List Word) : Word :=
  rotl 1 (newest.getD 2 0#32 ^^^ newest.getD 7 0#32 ^^^ newest.getD 13 0#32 ^^^ newest.getD 15 0#32)

/-- The sixteen message words of a block, W[0] first (R64). -/
def messageWords (blk : List Byte) : List Word := (List.range 16).map (be32 blk)

/-- The 80 words of the SHA-1 schedule, W[0] first (R118). -/
def schedule1 (blk : List Byte) : List Word := (extendBy next1 64 (messageWords blk).reverse).reverse

/-- SHA-1 round `t` with schedule word `w` (R119); round `t` uses selector `t div 20` (R112, R117). -/
def round1 (t : Nat) (w : Word) (v : Vars1) : Vars1 :=
  { a := rotl 5 v.a + f1 (t / 20) v.b v.c v.d + v.e + k1 (t / 20) + w
    b := v.a
    c := rotl 30 v.b
    d := v.c
    e := v.d }

/-- The word-wise sum that ends the compression (R120). -/
def Vars1.add (h v : Vars1) : Vars1 := ⟨h.a + v.a, h.b + v.b, h.c + v.c, h.d + v.d, h.e + v.e⟩

/-- `Compress1(H, blk)` (R120). -/
def compress1 (h : Vars1) (blk : List Byte) : Vars1 := h.add (roundsFrom round1 0 (schedule1 blk) h)

/-! ## SHA-256 and SHA-224 -/

/-- The SHA-256 working variables, and a SHA-256 chaining value H[0..7] (R122, R124). -/
structure Vars2 where
  a : Word
  b : Word
  c : Word
  d : Word
  e : Word
  f : Word
  g : Word
  h : Word
  deriving DecidableEq, Repr

/-- One more word of the SHA-256 schedule from the words so far, newest first: W[t-2], W[t-7], W[t-15], W[t-16] stand at
places 1, 6, 14, 15 (R121). -/
def next2 (newest : List Word) : Word :=
  smallSigma1 (newest.getD 1 0#32) + newest.getD 6 0#32 + smallSigma0 (newest.getD 14 0#32) + newest.getD 15 0#32

/-- The 64 words of the SHA-256 schedule, W[0] first (R121). -/
def schedule2 (blk : List Byte) : List Word := (extendBy next2 48 (messageWords blk).reverse).reverse

/-- One SHA-256 round with the sum `kw = K[t] + W[t]` (R122). -/
def step2 (kw : Word) (v : Vars2) : Vars2 :=
  let t1 := v.h + bigSigma1 v.e + ch v.e v.f v.g + kw
  let t2 := bigSigma0 v.a + maj v.a v.b v.c
  { a := t1 + t2, b := v.a, c := v.b, d := v.c, e := v.d + t1, f := v.e, g := v.f, h := v.g }

/-- SHA-256 round `t` with schedule word `w` (R122). -/
def round2 (t : Nat) (w : Word) (v : Vars2) : Vars2 := step2 (k256At t + w) v

/-- The word-wise sum that ends the compression (R123). -/
def Vars2.add (h v : Vars2) : Vars2 :=
  ⟨h.a + v.a, h.b + v.b, h.c + v.c, h.d + v.d, h.e + v.e, h.f + v.f, h.g + v.g, h.h + v.h⟩

/-- `Compress256(H, blk)` (R124). -/
def compress256 (h : Vars2) (blk : List Byte) : Vars2 := h.add (roundsFrom round2 0 (schedule2 blk) h)

/-! ## Dispatch by algorithm -/

/-- H[0..4] as SHA-1 variables. -/
def chain1 (h : Vector Word 8) : Vars1 := ⟨h[0], h[1], h[2], h[3], h[4]⟩

/-- H[0..7] as SHA-256 variables. -/
def chain2 (h : Vector Word 8) : Vars2 := ⟨h[0], h[1], h[2], h[3], h[4], h[5], h[6], h[7]⟩

/-- H with H[0..4] from SHA-1 variables and H[5..7] left as they are (R126, R171). -/
def setChain1 (h : Vector Word 8) (v : Vars1) : Vector Word 8 := #v[v.a, v.b, v.c, v.d, v.e, h[5], h[6], h[7]]

/-- H[0..7] from SHA-256 variables. -/
def setChain2 (v : Vars2) : Vector Word 8 := #v[v.a, v.b, v.c, v.d, v.e, v.f, v.g, v.h]

/-- `Compress(alg, H, blk)` (R126). -/
def compress (alg : Alg) (h : Vector Word 8) (blk : List Byte) : Vector Word 8 :=
  match alg with
  | .sha1 => setChain1 h (compress1 (chain1 h) blk)
  | .sha256 => setChain2 (compress256 (chain2 h) blk)
  | .sha224 => setChain2 (compress256 (chain2 h) blk)

/-- The chaining value after the first `n` whole blocks of a byte sequence, in order (R170). -/
def compressBlocks (alg : Alg) : Nat → Vector Word 8 → List Byte → Vector Word 8
  | 0, h, _ => h
  | n + 1, h, d => compressBlocks alg n (compress alg h (d.take 64)) (d.drop 64)

/-! ## Widths, padding, digest -/

/-- `NW(alg)` (R23). -/
def nw : Alg → Nat
  | .sha1 => 5
  | .sha256 => 8
  | .sha224 => 8

/-- `DSIZE(alg)` in bytes (R23). -/
def dsize : Alg → Nat
  | .sha1 => 20
  | .sha256 => 32
  | .sha224 => 28

/-- `PadBlocks(buf, plen, total)`, one or two blocks (43_stream_commands.md R204): after the 0x80 byte, when fewer than
eight bytes remain the block is zero-filled and a fresh one follows; the last eight bytes are the bit count (R65). -/
def padBlocks (buf : Vector Byte 64) (plen : BitVec 7) (total : DWord) : List (List Byte) :=
  let p := plen.toNat + 1
  let b := buf.toList.take plen.toNat ++ [0x80#8]
  let len := be64Bytes (BitVec.ofNat 64 (8 * total.toNat))
  if 64 - p < 8 then [b ++ zeros (64 - p), zeros 56 ++ len] else [b ++ zeros (56 - p) ++ len]

/-- `Digest(alg, H)` (R205, 20_memory.md R66). -/
def digest (alg : Alg) (h : Vector Word 8) : List Byte :=
  ((h.toList.take (nw alg)).flatMap be32Bytes).take (dsize alg)

end Sys2Proof.Machine
end

