-- ==== Sys2Proof/Machine/Datapath.lean ====
section
/-! DEFINITION. Machine/Datapath.lean: the hash-extension primitives and the vector helpers as total, pure functions of
their operands (41_hash_primitives.md R140 to R156). -/

namespace Sys2Proof.Machine

/-! ## SHA-1 primitives -/

/-- One of the four rounds of SHA1RNDS4, with selector `sel` and the word `w` (R140). -/
def rnds4Round (sel : Nat) (w : Word) (v : Vars1) : Vars1 :=
  { a := f1 sel v.b v.c v.d + rotl 5 v.a + w + v.e + k1 sel
    b := v.a
    c := rotl 30 v.b
    d := v.c
    e := v.d }

/-- SHA1RNDS4: four rounds from {A, B, C, D} and E = 0, the words highest lane first; imm8[7:2] are ignored (R140). -/
def sha1rnds4 (x y : Vec) (imm : Byte) : Vec :=
  let sel := (imm.extractLsb' 0 2).toNat
  let v0 : Vars1 := ⟨lane x 3, lane x 2, lane x 1, lane x 0, 0#32⟩
  let v4 := rnds4Round sel (lane y 0) (rnds4Round sel (lane y 1) (rnds4Round sel (lane y 2) (rnds4Round sel (lane y 3) v0)))
  vec v4.a v4.b v4.c v4.d

/-- SHA1NEXTE (R141). -/
def sha1nexte (x y : Vec) : Vec := vec (lane y 3 + rotl 30 (lane x 3)) (lane y 2) (lane y 1) (lane y 0)

/-- SHA1MSG1: W0..W3 from `x`, W4 and W5 from the top of `y` (R142). -/
def sha1msg1 (x y : Vec) : Vec :=
  vec (lane x 1 ^^^ lane x 3) (lane x 0 ^^^ lane x 2) (lane y 3 ^^^ lane x 1) (lane y 2 ^^^ lane x 0)

/-- SHA1MSG2: W16..W19; the last uses the W16 of this call (R143). -/
def sha1msg2 (x y : Vec) : Vec :=
  let w16 := rotl 1 (lane x 3 ^^^ lane y 2)
  let w17 := rotl 1 (lane x 2 ^^^ lane y 1)
  let w18 := rotl 1 (lane x 1 ^^^ lane y 0)
  let w19 := rotl 1 (lane x 0 ^^^ w16)
  vec w16 w17 w18 w19

/-! ## SHA-256 primitives -/

/-- SHA256RNDS2: two rounds from {C, D, G, H} and {A, B, E, F}, with the sums W + K in lanes 0 and 1 of `wk` (R144). -/
def sha256rnds2 (x y wk : Vec) : Vec :=
  let v0 : Vars2 := ⟨lane y 3, lane y 2, lane x 3, lane x 2, lane y 1, lane y 0, lane x 1, lane x 0⟩
  let v2 := step2 (lane wk 1) (step2 (lane wk 0) v0)
  vec v2.a v2.b v2.e v2.f

/-- SHA256MSG1 (R145). -/
def sha256msg1 (x y : Vec) : Vec :=
  vec (lane x 3 + smallSigma0 (lane y 0)) (lane x 2 + smallSigma0 (lane x 3))
    (lane x 1 + smallSigma0 (lane x 2)) (lane x 0 + smallSigma0 (lane x 1))

/-- SHA256MSG2: W16..W19; the last two use the W16 and W17 of this call (R146). -/
def sha256msg2 (x y : Vec) : Vec :=
  let w16 := lane x 0 + smallSigma1 (lane y 2)
  let w17 := lane x 1 + smallSigma1 (lane y 3)
  let w18 := lane x 2 + smallSigma1 w16
  let w19 := lane x 3 + smallSigma1 w17
  vec w19 w18 w17 w16

/-! ## Vector helpers -/

/-- PSHUFB: a mask byte with bit 7 set gives 0, and its low four bits select otherwise (R150). -/
def pshufb (x mask : Vec) : Vec :=
  ofBytes fun j =>
    let m := byteOf mask j
    if m.getLsbD 7 then 0#8 else byteOf x (m.extractLsb' 0 4).toNat

/-- PSHUFD: lane `i` is the lane that imm8[2i+1 : 2i] selects (R151). -/
def pshufd (x : Vec) (imm : Byte) : Vec :=
  let sel := fun i => lane x (imm.extractLsb' (2 * i) 2).toNat
  vec (sel 3) (sel 2) (sel 1) (sel 0)

/-- PALIGNR: the 256 bits `x : y` shifted right by imm8 bytes, the low 128 bits (R152). -/
def palignr (x y : Vec) (imm : Byte) : Vec := ((x ++ y : BitVec 256) >>> (8 * imm.toNat)).setWidth 128

/-- PADDD: lane-wise addition, no carry between lanes (R153). -/
def paddd (x y : Vec) : Vec :=
  vec (lane x 3 + lane y 3) (lane x 2 + lane y 2) (lane x 1 + lane y 1) (lane x 0 + lane y 0)

/-- PXOR (R154). -/
def pxor (x y : Vec) : Vec := x ^^^ y

/-- PBLENDW: 16-bit word `j` from `y` where imm8[j] = 1, else from `x` (R155). -/
def pblendw (x y : Vec) (imm : Byte) : Vec := ofWords fun j => if imm.getLsbD j then wordOf y j else wordOf x j

/-- LOAD16: the vector whose byte `j` is `b[j]` (R156). -/
def load16 (b : List Byte) : Vec := ofBytes fun j => b.getD j 0#8

/-- MASK1, the full 16-byte reversal (R150). -/
def mask1 : Vec := vec 0x00010203#32 0x04050607#32 0x08090a0b#32 0x0c0d0e0f#32

/-- MASK256, the reversal within each 32-bit lane (R150). -/
def mask256 : Vec := vec 0x0c0d0e0f#32 0x08090a0b#32 0x04050607#32 0x00010203#32

end Sys2Proof.Machine
end

