-- ==== Sys2Proof/Machine/Flags.lean ====
section
/-! DEFINITION. Machine/Flags.lean: the status words. The engine has no condition codes (10_state.md R33): its status
flags are ERR.VALID and ERR.OVF and each slot's `life`. Here stand the ERR record (60_exceptions.md R250, R255, R257)
and the words that CAP, ERR and CTX_STATUS read as (10_state.md R39, R43, R45). -/

namespace Sys2Proof.Machine

/-- The fault codes (R250). -/
inductive FaultCode where
  | unavailable
  | badCmd
  | badCtx
  | notInit
  | finalized
  | length
  | bus
  deriving DecidableEq, Repr

/-- The number of a fault code (R250). -/
def FaultCode.number : FaultCode → BitVec 4
  | .unavailable => 1#4
  | .badCmd => 2#4
  | .badCtx => 3#4
  | .notInit => 4#4
  | .finalized => 5#4
  | .length => 6#4
  | .bus => 7#4

/-- `Fault(code)` on the record: the first fault is kept, and a later one sets OVF only (R255). -/
def ErrReg.record (e : ErrReg) (code : FaultCode) (op : BitVec 4) (ctx : BitVec 8) : ErrReg :=
  if e.valid then { e with ovf := true }
  else { e with valid := true, code := code.number, op := op, ctx := ctx }

/-- A host write of `w` to ERR: bit 0 clears the record and bit 1 clears OVF (R257). -/
def ErrReg.ack (e : ErrReg) (w : Word) : ErrReg :=
  { valid := if w.getLsbD 0 then false else e.valid
    ovf := if w.getLsbD 1 then false else e.ovf
    code := if w.getLsbD 0 then 0#4 else e.code
    op := if w.getLsbD 0 then 0#4 else e.op
    ctx := if w.getLsbD 0 then 0#8 else e.ctx }

/-- The word ERR reads as (R43). -/
def ErrReg.word (e : ErrReg) : Word :=
  0#8 ++ e.ctx ++ e.op ++ e.code ++ 0#6 ++ BitVec.ofBool e.ovf ++ BitVec.ofBool e.valid

/-- The 2-bit encoding of `alg` (R23). -/
def Alg.number : Alg → BitVec 2
  | .sha1 => 0#2
  | .sha256 => 1#2
  | .sha224 => 2#2

/-- The 2-bit encoding of a slot's `life`, FREE included (R27). -/
def lifeNumber : Option HashState → BitVec 2
  | none => 0#2
  | some x =>
    match x.life with
    | .fresh => 1#2
    | .streaming => 2#2
    | .finalized => 3#2

/-- The word CAP reads as (R39). -/
def capWord (hasShaExt : Bool) (nCtx : Nat) : Word :=
  let b := BitVec.ofBool hasShaExt
  0#7 ++ BitVec.ofNat 9 nCtx ++ 0#12 ++ b ++ b ++ b ++ b

/-- The word CTX_STATUS reads as for a slot in use, PLEN given (R45). -/
def statusWord (x : HashState) (plen : BitVec 7) : Word :=
  0#17 ++ plen ++ 0#2 ++ x.alg.number ++ 0#2 ++ lifeNumber (some x)

end Sys2Proof.Machine
end

