-- ==== Sys2Proof/Machine/Ops.lean ====
section
/-! DEFINITION. Machine/Ops.lean: the named operations over memory, slots, registers and the fault record. -/

namespace Sys2Proof.Machine

/-! ## Host memory (20_memory.md section 1, 00_scope.md R12) -/

/-- The byte at address `a`: the listed one, or what an unlisted address reads as (log 3). -/
def Memory.read : Memory → Nat → Byte
  | [], _ => Config.blankByte
  | cell :: rest, a => if cell.1 = a then cell.2 else Memory.read rest a

/-- A cell put before the first cell of a higher address. -/
def Memory.insert (a : Nat) (b : Byte) : Memory → Memory
  | [] => [(a, b)]
  | cell :: rest => if a < cell.1 then (a, b) :: cell :: rest else cell :: Memory.insert a b rest

/-- Write one byte, keeping the canonical form: a byte equal to what an unlisted address reads as is not listed. -/
def Memory.write (m : Memory) (a : Nat) (b : Byte) : Memory :=
  let others := m.filter fun cell => cell.1 != a
  if b = Config.blankByte then others else Memory.insert a b others

/-- `MemRead(addr, n)` (R12). -/
def Memory.readBytes (m : Memory) (a n : Nat) : List Byte := (List.range n).map fun i => m.read (a + i)

/-- `MemWrite(addr, n, b)` with `n` the length of `b` (R12). -/
def Memory.writeBytes (m : Memory) (a : Nat) : List Byte → Memory
  | [] => m
  | b :: bs => Memory.writeBytes (m.write a b) (a + 1) bs

/-- The canonical form: addresses strictly rising, inside the address space, and no cell that says what an unlisted
address says. -/
def Memory.wf (m : Memory) : Bool :=
  decide (m.Pairwise fun x y => x.1 < y.1) &&
    m.all fun cell => decide (cell.1 < Config.addrSpace) && decide (cell.2 ≠ Config.blankByte)

/-! ## Admission (20_memory.md R62, R63, R78) -/

/-- A row of the map admits the access. -/
def AdmitRule.admits (r : AdmitRule) (kind : AccessKind) (a n : Nat) : Bool :=
  decide (r.kind = kind) && decide (r.base ≤ a) && decide (a + n ≤ r.limit) && decide (r.minLen ≤ n) && decide (n ≤ r.maxLen)

/-- The platform's MemOK as its rows give it, before the register window is taken out. -/
def Platform.mapAdmits (p : Platform) (kind : AccessKind) (a n : Nat) : Bool := p.memMap.any fun r => r.admits kind a n

/-- The `n ≥ 1` bytes at `a` meet the register window REG_BASE .. REG_BASE + 255 (R78). -/
def Platform.meetsWindow (p : Platform) (a n : Nat) : Bool :=
  decide (a < p.regBase.toNat + Config.windowBytes) && decide (p.regBase.toNat < a + n)

/-- `admitted(kind, a, n)`: no bytes are always admitted; otherwise the range stays below 2^64, misses the register window
and is admitted by the map. Addresses are unbounded integers and never wrap (R62, R78). -/
def Platform.admitted (p : Platform) (kind : AccessKind) (a n : Nat) : Bool :=
  decide (n = 0) || (decide (a + n ≤ Config.addrSpace) && !p.meetsWindow a n && p.mapAdmits kind a n)

/-! ## Slots (10_state.md R20) -/

/-- N_CTX, the number of slots (R7, R20). -/
def State.nCtx (s : State) : Nat := s.slots.length

/-- Slot `c`; `none` is FREE. -/
def State.slot (s : State) (c : Nat) : Option HashState := s.slots.getD c none

/-- Write slot `c` and no other. -/
def State.setSlot (s : State) (c : Nat) (o : Option HashState) : State := { s with slots := s.slots.set c o }

/-! ## Draws (00_scope.md R12, R13) -/

/-- One draw taken. -/
def State.drawn (s : State) : State := { s with draws := s.draws + 1 }

/-- A partial block of which nothing is known, from draw `k` (R25, R28). -/
def freeBlock (k : Nat) : Vector Byte 64 := ⟨⟨(List.range 64).map (Config.freeByte k)⟩, by simp⟩

/-- The datapath registers after draw `k`: no value (R34). -/
def freeXmm (k : Nat) : Vector Vec 8 := ⟨⟨(List.range 8).map (Config.freeVec k)⟩, by simp⟩

/-- What a run of a transform engine leaves of the datapath registers: values that nothing constrains (R34, log 6). -/
def State.clobberXmm (s : State) : State := { s with xmm := freeXmm s.draws, draws := s.draws + 1 }

/-! ## Taking a fault, and acknowledging it (60_exceptions.md R255, R257 to R259)

The engine has no trap entry and no trap return (R258, R259): a fault ends the command and is recorded in ERR, and a host
write to ERR is its only acknowledgement. -/

/-- `raise Fault(code)` by a command word with fields OP = `op` and CTX = `ctx`: the record, and nothing else (R255). -/
def State.raiseFault (s : State) (code : FaultCode) (op : BitVec 4) (ctx : BitVec 8) : State :=
  { s with err := s.err.record code op ctx }

/-- The acknowledgement: a host write of `w` to ERR (R257, R259). -/
def State.ackFault (s : State) (w : Word) : State := { s with err := s.err.ack w }

/-! ## The partial block -/

/-- `buf[p ..] <- d` (R211). -/
def fill (buf : Vector Byte 64) (p : Nat) : List Byte → Vector Byte 64
  | [] => buf
  | b :: bs => fill (buf.setIfInBounds p b) (p + 1) bs

/-! ## The block transform on host memory (42_block_transform.md R170) -/

/-- `Transform(alg, H, addr, n)`: `n` blocks of 64 bytes from host memory at `addr`, in increasing address order (R170). -/
def transform (m : Memory) (alg : Alg) : Nat → Vector Word 8 → Nat → Vector Word 8
  | 0, h, _ => h
  | n + 1, h, addr => transform m alg n (compress alg h (m.readBytes addr 64)) (addr + 64)

end Sys2Proof.Machine
end

