-- ==== Sys2Proof/Machine/Operands.lean ====
section
/-! DEFINITION. Machine/Operands.lean: every operand form: the slot of a command with the checks that stand before it
(43_stream_commands.md R202, 60_exceptions.md R251), its address and length from the argument registers
(30_encoding.md R86), and the registers of a primitive (30_encoding.md R92). -/

namespace Sys2Proof.Machine

/-! ## Argument registers (R86) -/

/-- `addr = ARG_ADDR`, unsigned. -/
def State.addrArg (s : State) : Nat := s.argAddr.toNat

/-- `n = ARG_LEN`, unsigned. -/
def State.lenArg (s : State) : Nat := s.argLen.toNat

/-! ## The slot of a command

Each check takes what follows it as a function, so that what follows is not computed when the check fails. -/

/-- The checks of `Execute` that a decoded command meets first: the capability (E_UNAVAILABLE) and then the slot index
(E_BAD_CTX). -/
def State.atSlot (s : State) (op : BitVec 4) (c : Nat) (go : Unit → State) : State :=
  if s.platform.hasShaExt = false then s.raiseFault .unavailable op (BitVec.ofNat 8 c)
  else if s.nCtx ≤ c then s.raiseFault .badCtx op (BitVec.ofNat 8 c)
  else go ()

/-- The slot in use: E_NOT_INIT when it is FREE. -/
def State.inUse (s : State) (op : BitVec 4) (c : Nat) (go : HashState → State) : State :=
  match s.slot c with
  | none => s.raiseFault .notInit op (BitVec.ofNat 8 c)
  | some x => go x

/-- The slot in use and not FINALIZED: E_NOT_INIT, then E_FINALIZED. -/
def State.unfinished (s : State) (op : BitVec 4) (c : Nat) (go : HashState → State) : State :=
  s.inUse op c fun x => if x.life = .finalized then s.raiseFault .finalized op (BitVec.ofNat 8 c) else go x

/-- Memory admission before anything changes: E_BUS (20_memory.md R63). -/
def State.withRange (s : State) (op : BitVec 4) (c : Nat) (kind : AccessKind) (a n : Nat) (go : Unit → State) :
    State :=
  if s.platform.admitted kind a n then go () else s.raiseFault .bus op (BitVec.ofNat 8 c)

/-! ## The registers of a primitive (R92) -/

/-- The value of register `r`. -/
def State.reg (s : State) (r : XReg) : Vec := s.xmm[r]

/-- Write register `d`. -/
def State.setReg (s : State) (d : XReg) (v : Vec) : State := { s with xmm := s.xmm.set d v }

/-- The implicit third operand of SHA256RNDS2, xmm0 (R92). -/
def State.regWK (s : State) : Vec := s.reg 0

end Sys2Proof.Machine
end

