-- ==== Sys2Proof/Machine/Primitives.lean ====
section
/-! DEFINITION. Machine/Primitives.lean: the meanings of the thirteen primitive rows. SRC1 is the old value of xmm1, SRC2
the value of xmm2, and the result is written to xmm1 (30_encoding.md R92); no primitive sets a flag, accesses memory or
raises an exception (41_hash_primitives.md R147). -/

namespace Sys2Proof.Machine

/-- What every meaning here answers. -/
abbrev Result := Host.Outcome State Fault Refusal

/-- SHA1RNDS4 xmm1, xmm2, imm8 (R140). -/
def execSha1rnds4 (d r : XReg) (imm : Byte) (s : State) : Result := .next (s.setReg d (sha1rnds4 (s.reg d) (s.reg r) imm))

/-- SHA1NEXTE xmm1, xmm2 (R141). -/
def execSha1nexte (d r : XReg) (s : State) : Result := .next (s.setReg d (sha1nexte (s.reg d) (s.reg r)))

/-- SHA1MSG1 xmm1, xmm2 (R142). -/
def execSha1msg1 (d r : XReg) (s : State) : Result := .next (s.setReg d (sha1msg1 (s.reg d) (s.reg r)))

/-- SHA1MSG2 xmm1, xmm2 (R143). -/
def execSha1msg2 (d r : XReg) (s : State) : Result := .next (s.setReg d (sha1msg2 (s.reg d) (s.reg r)))

/-- SHA256RNDS2 xmm1, xmm2, with xmm0 as WK (R144, R92). -/
def execSha256rnds2 (d r : XReg) (s : State) : Result := .next (s.setReg d (sha256rnds2 (s.reg d) (s.reg r) s.regWK))

/-- SHA256MSG1 xmm1, xmm2 (R145). -/
def execSha256msg1 (d r : XReg) (s : State) : Result := .next (s.setReg d (sha256msg1 (s.reg d) (s.reg r)))

/-- SHA256MSG2 xmm1, xmm2 (R146). -/
def execSha256msg2 (d r : XReg) (s : State) : Result := .next (s.setReg d (sha256msg2 (s.reg d) (s.reg r)))

/-- PSHUFB xmm1, xmm2 (R150). -/
def execPshufb (d r : XReg) (s : State) : Result := .next (s.setReg d (pshufb (s.reg d) (s.reg r)))

/-- PSHUFD xmm1, xmm2, imm8: the destination is written, not read (R151). -/
def execPshufd (d r : XReg) (imm : Byte) (s : State) : Result := .next (s.setReg d (pshufd (s.reg r) imm))

/-- PALIGNR xmm1, xmm2, imm8 (R152). -/
def execPalignr (d r : XReg) (imm : Byte) (s : State) : Result := .next (s.setReg d (palignr (s.reg d) (s.reg r) imm))

/-- PADDD xmm1, xmm2 (R153). -/
def execPaddd (d r : XReg) (s : State) : Result := .next (s.setReg d (paddd (s.reg d) (s.reg r)))

/-- PXOR xmm1, xmm2 (R154). -/
def execPxor (d r : XReg) (s : State) : Result := .next (s.setReg d (pxor (s.reg d) (s.reg r)))

/-- PBLENDW xmm1, xmm2, imm8 (R155). -/
def execPblendw (d r : XReg) (imm : Byte) (s : State) : Result := .next (s.setReg d (pblendw (s.reg d) (s.reg r) imm))

end Sys2Proof.Machine
end

