-- ==== Sys2Proof/Machine/Commands.lean ====
section
/-! DEFINITION. Machine/Commands.lean: the meanings of the nine command rows (43_stream_commands.md R202, R210 to R217).
Each checks in the order of 60_exceptions.md R251, and a check that fails raises its fault and changes nothing else (R255). -/

namespace Sys2Proof.Machine

/-! ## INIT and RESET -/

/-- `INIT(c, alg)` past its checks (R210). `buf` is not written: a slot in use keeps its bytes, and a FREE slot, which holds
none (R29), gets bytes that nothing constrains (R25, log 5). -/
def State.init (s : State) (c : Nat) (alg : Alg) : State :=
  let buf := match s.slot c with
    | some x => x.buf
    | none => freeBlock s.draws
  (s.setSlot c (some { life := .fresh, alg := alg, h := iv alg, buf := buf, plen := 0#7, total := 0#64 })).drawn

/-- INIT.SHA1 (R210). -/
def execInitSha1 (c : Nat) (s : State) : Result := .next (s.atSlot 1#4 c fun _ => s.init c .sha1)

/-- INIT.SHA256 (R210). -/
def execInitSha256 (c : Nat) (s : State) : Result := .next (s.atSlot 1#4 c fun _ => s.init c .sha256)

/-- INIT.SHA224 (R210). -/
def execInitSha224 (c : Nat) (s : State) : Result := .next (s.atSlot 1#4 c fun _ => s.init c .sha224)

/-- RESET: INIT with the slot's own algorithm (R215). -/
def execReset (c : Nat) (s : State) : Result :=
  .next (s.atSlot 5#4 c fun _ => s.inUse 5#4 c fun x => s.init c x.alg)

/-! ## UPDATE -/

/-- The tail of UPDATE: the bytes `d` compressed in whole blocks and the rest put at the start of the buffer, which holds no
valid byte (R211). -/
def HashState.absorbWhole (x : HashState) (d : List Byte) : HashState :=
  let k := d.length / 64
  let rest := d.drop (64 * k)
  { x with h := compressBlocks x.alg k x.h d, buf := fill x.buf 0 rest, plen := BitVec.ofNat 7 rest.length }

/-- The effect of UPDATE on `buf`, `plen` and `H`: the partial block is topped off and compressed when the bytes reach a
whole block, whole blocks follow, and the rest is kept (R211). -/
def HashState.absorb (x : HashState) (d : List Byte) : HashState :=
  if 64 ≤ x.plen.toNat + d.length then
    if 0 < x.plen.toNat then
      let k := 64 - x.plen.toNat
      let buf := fill x.buf x.plen.toNat (d.take k)
      { x with h := compress x.alg x.h buf.toList, buf := buf, plen := 0#7 }.absorbWhole (d.drop k)
    else x.absorbWhole d
  else { x with buf := fill x.buf x.plen.toNat d, plen := BitVec.ofNat 7 (x.plen.toNat + d.length) }

/-- UPDATE (R211). -/
def execUpdate (c : Nat) (s : State) : Result :=
  .next <| s.atSlot 2#4 c fun _ => s.unfinished 2#4 c fun x =>
    if Config.lenLimit < x.total.toNat + s.lenArg then s.raiseFault .length 2#4 (BitVec.ofNat 8 c)
    else s.withRange 2#4 c .read s.addrArg s.lenArg fun _ =>
      (s.setSlot c (some
        { x.absorb (s.mem.readBytes s.addrArg s.lenArg) with
          total := BitVec.ofNat 64 (x.total.toNat + s.lenArg), life := .streaming })).clobberXmm

/-! ## FINAL -/

/-- The chaining value after the padding blocks (R213). -/
def HashState.finalChain (x : HashState) : Vector Word 8 :=
  (padBlocks x.buf x.plen x.total).foldl (compress x.alg) x.h

/-- The bytes FINAL writes for an output capacity `n`: `min(n, DSIZE)` bytes of the digest (R213). -/
def HashState.output (x : HashState) (n : Nat) : List Byte := (digest x.alg x.finalChain).take (min n (dsize x.alg))

/-- FINAL (R213). `plen` and `buf` become draws (R28). -/
def execFinal (c : Nat) (s : State) : Result :=
  .next <| s.atSlot 3#4 c fun _ => s.unfinished 3#4 c fun x =>
    s.withRange 3#4 c .write s.addrArg (min s.lenArg (dsize x.alg)) fun _ =>
      ({ s.setSlot c (some
          { x with life := .finalized, h := x.finalChain, plen := Config.freePlen s.draws, buf := freeBlock s.draws }) with
        mem := s.mem.writeBytes s.addrArg (x.output s.lenArg) }).clobberXmm

/-! ## CLONE and RELEASE -/

/-- CLONE: slot `src` copied into slot `c`, every field (R214). The source index is checked after the destination's (R202). -/
def execClone (c src : Nat) (s : State) : Result :=
  .next <| s.atSlot 4#4 c fun _ =>
    if s.nCtx ≤ src then s.raiseFault .badCtx 4#4 (BitVec.ofNat 8 c)
    else match s.slot src with
      | none => s.raiseFault .notInit 4#4 (BitVec.ofNat 8 c)
      | some x => s.setSlot c (some x)

/-- RELEASE: the slot is FREE and holds no HashState (R216, R29). -/
def execRelease (c : Nat) (s : State) : Result :=
  .next (s.atSlot 6#4 c fun _ => s.inUse 6#4 c fun _ => s.setSlot c none)

/-! ## XFORM -/

/-- XFORM: the raw block transform on `n` blocks; `buf`, `plen` and `total` stay (R217). -/
def execXform (c : Nat) (s : State) : Result :=
  .next <| s.atSlot 7#4 c fun _ => s.unfinished 7#4 c fun x =>
    s.withRange 7#4 c .read s.addrArg (64 * s.lenArg) fun _ =>
      (s.setSlot c (some { x with h := transform s.mem x.alg s.lenArg x.h s.addrArg, life := .streaming })).clobberXmm

end Sys2Proof.Machine
end

