-- ==== Sys2Proof/Machine/Dispatch.lean ====
section
/-! DEFINITION. Machine/Dispatch.lean: one arm per instruction. -/

namespace Sys2Proof.Machine

def exec (i : Instr) (s : State) : Host.Outcome State Fault Refusal :=
  match i with
  | .initSha1 c => Sys2Proof.Machine.execInitSha1 c s
  | .initSha256 c => Sys2Proof.Machine.execInitSha256 c s
  | .initSha224 c => Sys2Proof.Machine.execInitSha224 c s
  | .update c => Sys2Proof.Machine.execUpdate c s
  | .final c => Sys2Proof.Machine.execFinal c s
  | .clone c src => Sys2Proof.Machine.execClone c src s
  | .reset c => Sys2Proof.Machine.execReset c s
  | .release c => Sys2Proof.Machine.execRelease c s
  | .xform c => Sys2Proof.Machine.execXform c s
  | .sha1rnds4 d r imm => Sys2Proof.Machine.execSha1rnds4 d r imm s
  | .sha1nexte d r => Sys2Proof.Machine.execSha1nexte d r s
  | .sha1msg1 d r => Sys2Proof.Machine.execSha1msg1 d r s
  | .sha1msg2 d r => Sys2Proof.Machine.execSha1msg2 d r s
  | .sha256rnds2 d r => Sys2Proof.Machine.execSha256rnds2 d r s
  | .sha256msg1 d r => Sys2Proof.Machine.execSha256msg1 d r s
  | .sha256msg2 d r => Sys2Proof.Machine.execSha256msg2 d r s
  | .pshufb d r => Sys2Proof.Machine.execPshufb d r s
  | .pshufd d r imm => Sys2Proof.Machine.execPshufd d r imm s
  | .palignr d r imm => Sys2Proof.Machine.execPalignr d r imm s
  | .paddd d r => Sys2Proof.Machine.execPaddd d r s
  | .pxor d r => Sys2Proof.Machine.execPxor d r s
  | .pblendw d r imm => Sys2Proof.Machine.execPblendw d r imm s

end Sys2Proof.Machine
end

