-- ==== Sys2Proof/Machine/Window.lean ====
section
/-! DEFINITION. Machine/Window.lean: host accesses to the register window other than the CMD write (10_state.md R38 to R48,
43_stream_commands.md R200, R201), the host's own memory accesses, and the platform's reset (70_reset_and_hazards.md R280). -/

namespace Sys2Proof.Machine

/-- The offset of CMD (R38, R40). -/
def cmdOffset : BitVec 8 := 0x04#8

/-- An aligned window offset (R200). -/
def aligned (off : BitVec 8) : Bool := decide (off.toNat % 4 = 0)

/-- The slot that CTX_SEL shows (R44). -/
def State.selected (s : State) : Option HashState := s.slot s.ctxSel.toNat

/-! ## Reads -/

/-- A read of the window returned `v`. -/
def State.returns (s : State) (v : Word) : State := { s with readData := v }

/-- A read of the window returned a draw. -/
def State.returnsDraw (s : State) : State := (s.returns (Config.freeWord s.draws)).drawn

/-- A read of a field of the selected slot: a draw when the slot is FREE (R29, R46, R47). -/
def State.returnsField (s : State) (f : HashState → Word) : State :=
  match s.selected with
  | none => s.returnsDraw
  | some x => s.returns (f x)

/-- A read of CTX_STATUS: 0 for a FREE slot, and a PLEN that is a draw for a FINALIZED one (R45, R28). -/
def State.returnsStatus (s : State) : State :=
  match s.selected with
  | none => s.returns 0#32
  | some x =>
    match x.life with
    | .finalized => (s.returns (statusWord x (Config.freePlen s.draws))).drawn
    | .fresh => s.returns (statusWord x x.plen)
    | .streaming => s.returns (statusWord x x.plen)

/-- A host read at an aligned offset (R200): CMD and the reserved offsets return 0 (R40, R48). -/
def State.windowRead (s : State) (off : BitVec 8) : State :=
  match off.toNat with
  | 0x00 => s.returns (capWord s.platform.hasShaExt s.nCtx)
  | 0x08 => s.returns (s.argAddr.extractLsb' 0 32)
  | 0x0C => s.returns (s.argAddr.extractLsb' 32 32)
  | 0x10 => s.returns (s.argLen.extractLsb' 0 32)
  | 0x14 => s.returns (s.argLen.extractLsb' 32 32)
  | 0x18 => s.returns s.err.word
  | 0x1C => s.returns (s.ctxSel.setWidth 32)
  | 0x20 => s.returnsStatus
  | 0x24 => s.returnsField fun x => x.total.extractLsb' 0 32
  | 0x28 => s.returnsField fun x => x.total.extractLsb' 32 32
  | 0x30 => s.returnsField fun x => x.h[0]
  | 0x34 => s.returnsField fun x => x.h[1]
  | 0x38 => s.returnsField fun x => x.h[2]
  | 0x3C => s.returnsField fun x => x.h[3]
  | 0x40 => s.returnsField fun x => x.h[4]
  | 0x44 => s.returnsField fun x => x.h[5]
  | 0x48 => s.returnsField fun x => x.h[6]
  | 0x4C => s.returnsField fun x => x.h[7]
  | _ => s.returns 0#32

/-! ## Writes other than to CMD -/

/-- A u64 with its low half replaced. -/
def setLow (x : DWord) (w : Word) : DWord := x.extractLsb' 32 32 ++ w

/-- A u64 with its high half replaced. -/
def setHigh (x : DWord) (w : Word) : DWord := w ++ x.extractLsb' 0 32

/-- A host write of `w` to CTX_SEL: ignored when `w[7:0]` names no slot (R44). -/
def State.select (s : State) (w : Word) : State :=
  if (w.extractLsb' 0 8).toNat < s.nCtx then { s with ctxSel := w.extractLsb' 0 8 } else s

/-- A host write at an aligned offset other than CMD's (R201): a read-only or reserved offset ignores it. -/
def State.windowWrite (s : State) (off : BitVec 8) (w : Word) : State :=
  match off.toNat with
  | 0x08 => { s with argAddr := setLow s.argAddr w }
  | 0x0C => { s with argAddr := setHigh s.argAddr w }
  | 0x10 => { s with argLen := setLow s.argLen w }
  | 0x14 => { s with argLen := setHigh s.argLen w }
  | 0x18 => s.ackFault w
  | 0x1C => s.select w
  | _ => s

/-! ## The host's own memory accesses and the platform's reset -/

/-- The host reads a byte of its memory (R21, R73). A byte access inside the register window is no legal access to it (R200). -/
def hostLoad (a : DWord) (s : State) : Result :=
  if s.platform.meetsWindow a.toNat 1 then .fault .windowAccess
  else .next (s.returns ((s.mem.read a.toNat).setWidth 32))

/-- The host writes a byte of its memory (R21, R73). -/
def hostStore (a : DWord) (b : Byte) (s : State) : Result :=
  if s.platform.meetsWindow a.toNat 1 then .fault .windowAccess
  else .next { s with mem := s.mem.write a.toNat b }

/-- The platform's reset (R280): the engine's state as after reset, on the same platform and the same number of slots (R50).
Host memory is not the engine's, and the inputs to come are outside it. The datapath registers hold no value (R280). -/
def State.platformReset (s : State) : State :=
  { State.resetOf s.platform s.nCtx s.mem with
    pending := s.pending, readData := s.readData, draws := s.draws + 1, xmm := freeXmm s.draws }

end Sys2Proof.Machine
end

