-- ==== Sys2Proof/Machine/Execute.lean ====
section
/-! DEFINITION. Machine/Execute.lean: `Execute(w)` (43_stream_commands.md R202) and what each input does. -/

namespace Sys2Proof.Machine

/-- A command word that matches no row of R87: E_UNAVAILABLE comes before E_BAD_CMD (R251, R252), and the word's raw OP
and CTX fields are recorded (R253). -/
def State.illegalCommand (s : State) (w : Word) : State :=
  s.raiseFault (if s.platform.hasShaExt then .badCmd else .unavailable) (fieldOp w) (fieldCtx w)

/-- `Execute(w)`, the step a host write of `w` to CMD takes (R40, R202). -/
def execute (w : Word) (s : State) : Result :=
  match decodeCommand w with
  | some i => exec i s
  | none => .next (s.illegalCommand w)

/-- A 32-bit host read of the window at `off` (R200). -/
def hostRead (off : BitVec 8) (s : State) : Result :=
  if aligned off then .next (s.windowRead off) else .fault .windowAccess

/-- A 32-bit host write of the window at `off` (R201). -/
def hostWrite (off : BitVec 8) (w : Word) (s : State) : Result :=
  if aligned off = false then .fault .windowAccess
  else if off = cmdOffset then execute w s
  else .next (s.windowWrite off w)

/-- The transform engines' sequencer issues the primitive that `bytes` encode (R91, R93, R147, log 7). -/
def issue (bytes : List Byte) (s : State) : Result :=
  if s.platform.hasShaExt = false then .fault .datapathUnavailable
  else match decodePrimitive bytes with
    | some i => exec i s
    | none => .fault .illegalPrimitive

/-- What one input does. -/
def receive (e : Input) (s : State) : Result :=
  match e with
  | .hostRead off => hostRead off s
  | .hostWrite off w => hostWrite off w s
  | .memLoad a => hostLoad a s
  | .memStore a b => hostStore a b s
  | .platformReset => .next s.platformReset
  | .datapath bytes => issue bytes s

/-- The input that makes the machine run an encoding: a write to CMD for a command word, an issue for a primitive's bytes. -/
def inputOf : Code → Input
  | .command w => .hostWrite cmdOffset w
  | .primitive bytes => .datapath bytes

end Sys2Proof.Machine
end

