-- ==== Sys2Proof/Machine/Step.lean ====
section
/-! DEFINITION. Machine/Step.lean: one step. The engine has no program counter (10_state.md R31): a step takes the next
input, whole (R21), and with no input the engine is idle (60_exceptions.md R267). -/

namespace Sys2Proof.Machine

/-- One step. -/
def step (s : State) : Host.Outcome State Fault Refusal :=
  match s.pending with
  | [] => .next s
  | e :: rest => receive e { s with pending := rest }

/-- The state in which the very next step runs the instruction of an opcode-table word: its input stands first (log 8). A
32-bit word that encodes no primitive is a write to CMD, legal or not. -/
def State.withFetchWord (s : State) (nbits w : Nat) : State :=
  { s with pending := inputOf (tableCode nbits w) :: s.pending }

end Sys2Proof.Machine
end

