-- ==== Sys2Proof/Machine/Schedule.lean ====
section
/-! DEFINITION. Machine/Schedule.lean: the block transforms as schedules of primitives (42_block_transform.md R173 to
R180), the second of the two forms that R35 allows. The commands use the first form (Machine/Sha.lean), which is normative
(D22); the two are stated equal (R181). The names are those of R34; their values live inside one transform only. -/

namespace Sys2Proof.Machine

/-- `V(w0, w1, w2, w3) = {w3, w2, w1, w0}` (R173). -/
def packV (w0 w1 w2 w3 : Word) : Vec := vec w3 w2 w1 w0

/-- The 16 bytes of group `g` of a block, as a vector (R174 step 1, R156). -/
def loadGroup (blk : List Byte) (g : Nat) : Vec := load16 ((blk.drop (16 * g)).take 16)

/-! ## SHA-1 (R173 to R175) -/

/-- The packed SHA-1 state (R173). -/
structure Packed1 where
  abcd : Vec
  e0 : Vec
  deriving DecidableEq, Repr

/-- Entry: ABCD and E0 from H (R173). -/
def pack1 (h : Vector Word 8) : Packed1 :=
  ⟨pshufd (packV h[0] h[1] h[2] h[3]) 0x1B#8, vec h[4] 0#32 0#32 0#32⟩

/-- Exit: H[0..4] from ABCD and E0; H[5..7] stay (R173, R171). -/
def unpack1 (h : Vector Word 8) (p : Packed1) : Vector Word 8 :=
  #v[lane p.abcd 3, lane p.abcd 2, lane p.abcd 1, lane p.abcd 0, lane p.e0 3, h[5], h[6], h[7]]

/-- The next message group from the groups so far, newest first: M[g-4], M[g-3], M[g-2], M[g-1] stand at places 3, 2, 1, 0
(R174 step 2). -/
def nextGroup1 (newest : List Vec) : Vec :=
  sha1msg2 (pxor (sha1msg1 (newest.getD 3 0#128) (newest.getD 2 0#128)) (newest.getD 1 0#128)) (newest.getD 0 0#128)

/-- The 20 message groups M[0..19], M[0] first (R174 steps 1 and 2). -/
def groups1 (blk : List Byte) : List Vec :=
  (extendBy nextGroup1 16 ((List.range 4).map fun g => pshufb (loadGroup blk g) mask1).reverse).reverse

/-- What the group loop of R174 carries: ABCD, and PREV, the ABCD before the group one behind. -/
structure Loop1 where
  abcd : Vec
  prev : Vec
  deriving DecidableEq, Repr

/-- Group `g` of four rounds (R174 steps 3 and 4, R175). -/
def group1 (e0Save : Vec) (g : Nat) (m : Vec) (v : Loop1) : Loop1 :=
  let we := if g = 0 then paddd e0Save m else sha1nexte v.prev m
  ⟨sha1rnds4 v.abcd we (BitVec.ofNat 8 (g / 5)), v.abcd⟩

/-- One block (R174). PREV has no value before group 0, which does not read it; ABCD stands there. -/
def block1 (p : Packed1) (blk : List Byte) : Packed1 :=
  let v := roundsFrom (group1 p.e0) 0 (groups1 blk) ⟨p.abcd, p.abcd⟩
  ⟨paddd v.abcd p.abcd, sha1nexte v.prev p.e0⟩

/-! ## SHA-256 and SHA-224 (R177, R178) -/

/-- The packed SHA-256 state: ABEF and CDGH (R177). -/
structure Packed2 where
  state0 : Vec
  state1 : Vec
  deriving DecidableEq, Repr

/-- Entry: STATE0 and STATE1 from H (R177). -/
def pack2 (h : Vector Word 8) : Packed2 :=
  let tmp := pshufd (packV h[0] h[1] h[2] h[3]) 0xB1#8
  let state1 := pshufd (packV h[4] h[5] h[6] h[7]) 0x1B#8
  ⟨palignr tmp state1 8#8, pblendw state1 tmp 0xF0#8⟩

/-- Exit: H from STATE0 and STATE1 (R177). -/
def unpack2 (p : Packed2) : Vector Word 8 :=
  let tmp := pshufd p.state0 0x1B#8
  let state1 := pshufd p.state1 0xB1#8
  let low := pblendw tmp state1 0xF0#8
  let high := palignr state1 tmp 8#8
  #v[lane low 0, lane low 1, lane low 2, lane low 3, lane high 0, lane high 1, lane high 2, lane high 3]

/-- The next message group, as `nextGroup1` (R178). -/
def nextGroup2 (newest : List Vec) : Vec :=
  sha256msg2
    (paddd (sha256msg1 (newest.getD 3 0#128) (newest.getD 2 0#128)) (palignr (newest.getD 0 0#128) (newest.getD 1 0#128) 4#8))
    (newest.getD 0 0#128)

/-- The 16 message groups M[0..15], M[0] first (R178). -/
def groups2 (blk : List Byte) : List Vec :=
  (extendBy nextGroup2 12 ((List.range 4).map fun g => pshufb (loadGroup blk g) mask256).reverse).reverse

/-- `KG[g] = {K[4g+3], K[4g+2], K[4g+1], K[4g]}` (R178). -/
def kGroup (g : Nat) : Vec := vec (k256At (4 * g + 3)) (k256At (4 * g + 2)) (k256At (4 * g + 1)) (k256At (4 * g))

/-- Group `g`: four rounds by two calls of SHA256RNDS2 (R178). -/
def group2 (g : Nat) (m : Vec) (p : Packed2) : Packed2 :=
  let wk := paddd m (kGroup g)
  let mid := sha256rnds2 p.state1 p.state0 wk
  ⟨sha256rnds2 p.state0 mid (pshufd wk 0x0E#8), mid⟩

/-- One block (R178). -/
def block2 (p : Packed2) (blk : List Byte) : Packed2 :=
  let q := roundsFrom group2 0 (groups2 blk) p
  ⟨paddd q.state0 p.state0, paddd q.state1 p.state1⟩

/-! ## Runs of blocks (R180) -/

/-- The chaining value after some blocks, in the primitive form: packed once, run block by block, unpacked once (R180). -/
def transformByPrimitives (alg : Alg) (h : Vector Word 8) (blks : List (List Byte)) : Vector Word 8 :=
  match alg with
  | .sha1 => unpack1 h (blks.foldl block1 (pack1 h))
  | .sha256 => unpack2 (blks.foldl block2 (pack2 h))
  | .sha224 => unpack2 (blks.foldl block2 (pack2 h))

end Sys2Proof.Machine
end

