-- ==== Sys2Proof/Safety.lean ====
section
/-! DEFINITION. Safety.lean: the terms claims are stated in: the invariant every step keeps, what a command or a primitive
may touch, and runs of commands with their arguments. -/

namespace Sys2Proof.Machine

/-! ## The invariant -/

/-- The register window lies inside the address space (R38, R60). -/
abbrev Platform.wf (p : Platform) : Prop := p.regBase.toNat + Config.windowBytes ≤ Config.addrSpace

/-- ERR holds a fault code of R250 when VALID = 1, and CODE, OP and CTX are 0 when VALID = 0 (R43). -/
abbrev ErrReg.wf (e : ErrReg) : Prop :=
  (e.valid = true → 1 ≤ e.code.toNat ∧ e.code.toNat ≤ 7) ∧
  (e.valid = false → e.code = 0#4 ∧ e.op = 0#4 ∧ e.ctx = 0#8)

/-- What every slot in use satisfies between commands: `total` stays within LEN_LIMIT (R26); a SHA-1 slot has
H[5] = H[6] = H[7] = 0 (R24); outside FINALIZED, `plen` is below 64 and is `total` mod 64 (R25); and a FRESH slot is as
INIT left it (R210). -/
abbrev HashState.wf (x : HashState) : Prop :=
  x.total.toNat ≤ Config.lenLimit ∧
  (x.alg = .sha1 → x.h[5] = 0#32 ∧ x.h[6] = 0#32 ∧ x.h[7] = 0#32) ∧
  (x.life ≠ .finalized → x.plen.toNat = x.total.toNat % 64) ∧
  (x.life = .fresh → x.h = iv x.alg ∧ x.plen = 0#7 ∧ x.total = 0#64)

/-- The invariant of the engine. -/
abbrev State.Inv (s : State) : Prop :=
  s.platform.wf ∧ 1 ≤ s.nCtx ∧ s.nCtx ≤ 256 ∧ s.ctxSel.toNat < s.nCtx ∧ s.err.wf ∧ s.mem.wf = true ∧
  ∀ o ∈ s.slots, ∀ x ∈ o, x.wf

/-! ## What a command or a primitive leaves alone -/

/-- The platform, the argument registers, CTX_SEL, the read port and the inputs to come are as before. -/
def State.sameHost (s t : State) : Prop :=
  t.platform = s.platform ∧ t.argAddr = s.argAddr ∧ t.argLen = s.argLen ∧ t.ctxSel = s.ctxSel ∧
  t.readData = s.readData ∧ t.pending = s.pending

/-- There are as many slots as before, and every slot but `c` is as before. -/
def State.sameSlotsBut (c : Nat) (s t : State) : Prop := t.nCtx = s.nCtx ∧ ∀ k, k ≠ c → t.slot k = s.slot k

/-- Every byte of host memory reads as before, but for the `n` bytes at `a`. -/
def State.sameMemBut (a n : Nat) (s t : State) : Prop := ∀ b, ¬ (a ≤ b ∧ b < a + n) → t.mem.read b = s.mem.read b

/-- Every byte of host memory reads as before. -/
def State.sameMem (s t : State) : Prop := ∀ b, t.mem.read b = s.mem.read b

/-- Every datapath register but `d` is as before. -/
def State.sameRegsBut (d : XReg) (s t : State) : Prop := ∀ k, k ≠ d → t.reg k = s.reg k

/-- Only a datapath register may have changed. -/
def State.sameButRegs (s t : State) : Prop :=
  s.sameHost t ∧ t.err = s.err ∧ t.slots = s.slots ∧ s.sameMem t ∧ t.draws = s.draws

/-- A primitive wrote register `d` and nothing else (R147). -/
def State.onlyReg (d : XReg) (s t : State) : Prop := s.sameRegsBut d t ∧ s.sameButRegs t

/-- A command on slot `c` that did not fault and stored nothing: ERR, the other slots and host memory are as before
(R30, R202). -/
def State.onlySlot (c : Nat) (s t : State) : Prop :=
  s.sameHost t ∧ t.err = s.err ∧ s.sameSlotsBut c t ∧ s.sameMem t

/-! ## Which fault a command raises (60_exceptions.md R250, R251) -/

/-- The conditions under which a command faults, each with its fault, in the order of R251. E_BAD_CMD is not among them: a
word that raises it decodes to no instruction. A primitive raises none (R147). -/
def State.faultConditions (s : State) (i : Instr) : List (Bool × FaultCode) :=
  let slotOk := fun c => [(!s.platform.hasShaExt, FaultCode.unavailable), (decide (s.nCtx ≤ c), .badCtx)]
  let used := fun c => [((s.slot c).isNone, FaultCode.notInit)]
  let notFinal := fun c => [((s.slot c).any fun x => decide (x.life = .finalized), FaultCode.finalized)]
  match i with
  | .initSha1 c => slotOk c
  | .initSha256 c => slotOk c
  | .initSha224 c => slotOk c
  | .update c => slotOk c ++ used c ++ notFinal c ++
      [((s.slot c).any fun x => decide (Config.lenLimit < x.total.toNat + s.lenArg), .length),
       (!s.platform.admitted .read s.addrArg s.lenArg, .bus)]
  | .final c => slotOk c ++ used c ++ notFinal c ++
      [((s.slot c).any fun x => !s.platform.admitted .write s.addrArg (min s.lenArg (dsize x.alg)), .bus)]
  | .clone c src => slotOk c ++ [(decide (s.nCtx ≤ src), .badCtx)] ++ used src
  | .reset c => slotOk c ++ used c
  | .release c => slotOk c ++ used c
  | .xform c => slotOk c ++ used c ++ notFinal c ++
      [(!s.platform.admitted .read s.addrArg (64 * s.lenArg), .bus)]
  | .sha1rnds4 _ _ _ => []
  | .sha1nexte _ _ => []
  | .sha1msg1 _ _ => []
  | .sha1msg2 _ _ => []
  | .sha256rnds2 _ _ => []
  | .sha256msg1 _ _ => []
  | .sha256msg2 _ _ => []
  | .pshufb _ _ => []
  | .pshufd _ _ _ => []
  | .palignr _ _ _ => []
  | .paddd _ _ => []
  | .pxor _ _ => []
  | .pblendw _ _ _ => []

/-- The fault of R251: the first of the conditions that holds; `none` when none does. -/
def State.firstFault (s : State) (i : Instr) : Option FaultCode :=
  ((s.faultConditions i).find? fun p => p.1).map fun p => p.2

/-! ## Runs of commands with their arguments (30_encoding.md R95) -/

/-- The argument registers written: `args ADDR, LEN`. -/
def State.withArgs (s : State) (addr len : DWord) : State := { s with argAddr := addr, argLen := len }

/-- `args ADDR, LEN` and then one command. -/
def runCommand (i : Instr) (addr len : DWord) (s : State) : Option State :=
  match exec i (s.withArgs addr len) with
  | .next t => some t
  | .fault _ => none
  | .refused _ => none

/-- UPDATE of slot `c`, once for each (address, length) of the list, in order. -/
def runUpdates (c : Nat) : List (DWord × DWord) → State → Option State
  | [], s => some s
  | p :: ps, s => (runCommand (.update c) p.1 p.2 s).bind (runUpdates c ps)

/-- The INIT of an algorithm (R83). -/
def initOf (alg : Alg) (c : Nat) : Instr :=
  match alg with
  | .sha1 => .initSha1 c
  | .sha256 => .initSha256 c
  | .sha224 => .initSha224 c

/-- INIT, and then UPDATE once for each range. -/
def runStream (alg : Alg) (c : Nat) (ps : List (DWord × DWord)) (s : State) : Option State :=
  (runCommand (initOf alg c) s.argAddr s.argLen s).bind (runUpdates c ps)

/-- INIT, UPDATE once for each range, and FINAL into `cap` bytes at `dst`: the pseudo-instruction `hash` of R95, with the
message in any number of pieces. -/
def runHash (alg : Alg) (c : Nat) (ps : List (DWord × DWord)) (dst cap : DWord) (s : State) : Option State :=
  (runStream alg c ps s).bind (runCommand (.final c) dst cap)

/-- Every range of the list is admitted for reading (R62). -/
abbrev Platform.readable (p : Platform) (ps : List (DWord × DWord)) : Prop :=
  ∀ r ∈ ps, p.admitted .read r.1.toNat r.2.toNat = true

/-- The bytes that the ranges of a list hold, one range after the other. -/
def Memory.dataOf (m : Memory) (ps : List (DWord × DWord)) : List Byte :=
  ps.flatMap fun p => m.readBytes p.1.toNat p.2.toNat

/-! ## The hash of a message (43_stream_commands.md R219) -/

/-- `pad(M)`: the message, 0x80, the least number of zero bytes that makes the length a multiple of 64, and the bit count. -/
def padMessage (msg : List Byte) : List Byte :=
  msg ++ [0x80#8] ++ zeros ((119 - msg.length % 64) % 64) ++ be64Bytes (BitVec.ofNat 64 (8 * msg.length))

/-- `Digest(alg, fold Compress over blocks(pad(M)) from IV(alg))`. -/
def hashOf (alg : Alg) (msg : List Byte) : List Byte :=
  digest alg (compressBlocks alg ((padMessage msg).length / 64) (iv alg) (padMessage msg))

end Sys2Proof.Machine

namespace Sys2Proof

/-- The OP field and the CTX operand of a command row (R81, R82); `none` for a primitive. -/
def Instr.command : Instr → Option (BitVec 4 × Nat)
  | .initSha1 c => some (1#4, c)
  | .initSha256 c => some (1#4, c)
  | .initSha224 c => some (1#4, c)
  | .update c => some (2#4, c)
  | .final c => some (3#4, c)
  | .clone c _ => some (4#4, c)
  | .reset c => some (5#4, c)
  | .release c => some (6#4, c)
  | .xform c => some (7#4, c)
  | .sha1rnds4 _ _ _ => none
  | .sha1nexte _ _ => none
  | .sha1msg1 _ _ => none
  | .sha1msg2 _ _ => none
  | .sha256rnds2 _ _ => none
  | .sha256msg1 _ _ => none
  | .sha256msg2 _ _ => none
  | .pshufb _ _ => none
  | .pshufd _ _ _ => none
  | .palignr _ _ _ => none
  | .paddd _ _ => none
  | .pxor _ _ => none
  | .pblendw _ _ _ => none

end Sys2Proof
end

