-- ==== Sys2Proof/Certificates/Slice0/Obligations.lean ====
section
/-! DEFINITION. Certificates/Slice0/Obligations.lean: what is claimed of the machine, each from the rules of spec/ its
docstring names. A free value (a draw) is never claimed to have a value. -/

open Sys2Proof Sys2Proof.Machine

/-! ## Encoding -/

/-- A few words written out from R87 and R91 decode to what they stand for. -/
def Obligations.SampleWordsDecode : Prop :=
  decode (.command 0x00000302#32) = some (.update 3) ∧
  decode (.command 0x00010204#32) = some (.clone 2 1) ∧
  decode (.command 0x00000321#32) = some (.initSha224 3) ∧
  decode (.command 0x0000FF03#32) = some (.final 255) ∧
  decode (.primitive [0x0F#8, 0x3A#8, 0xCC#8, 0xCA#8, 0x02#8]) = some (.sha1rnds4 1 2 2#8) ∧
  decode (.primitive [0x0F#8, 0x38#8, 0xCB#8, 0xF5#8]) = some (.sha256rnds2 6 5) ∧
  decode (.primitive [0x66#8, 0x0F#8, 0x3A#8, 0x0F#8, 0xC1#8, 0x04#8]) = some (.palignr 0 1 4#8)

/-- Every well-formed instruction is read back from its encoding (R80 to R84, R91). -/
def Obligations.DecodeEncode : Prop := ∀ i : Instr, i.wellFormed = true → decode (encode i) = some i

/-- What decodes is a well-formed instruction, and the bits it was read from are its encoding: no bit is ignored (R85, R91). -/
def Obligations.EncodeDecode : Prop :=
  ∀ (code : Code) (i : Instr), decode code = some i → i.wellFormed = true ∧ encode i = code

/-- The illegal command words, by their fields (R81, R83, R84, R85, R88). -/
def Obligations.IllegalWordFields : Prop :=
  ∀ w : Word, decodeCommand w = none ↔
    fieldOp w = 0#4 ∨ 8 ≤ (fieldOp w).toNat ∨ fieldRsv0 w ≠ 0#2 ∨ fieldRsv1 w ≠ 0#8 ∨
    (fieldOp w = 1#4 ∧ fieldAlg w = 3#2) ∨ (fieldOp w ≠ 1#4 ∧ fieldAlg w ≠ 0#2) ∨ (fieldOp w ≠ 4#4 ∧ fieldSrc w ≠ 0#8)

/-! ## The step -/

/-- A step whose next input is a write to CMD of a word that decodes, or an issue of bytes that decode, runs that instruction
on the state past that input (R40, R91; the issue input is the model's, log 7). -/
def Obligations.StepRunsDecodedInstruction : Prop :=
  (∀ (s : State) (rest : List Input) (w : Word) (i : Instr),
    s.pending = .hostWrite 0x04#8 w :: rest → decodeCommand w = some i → step s = exec i { s with pending := rest }) ∧
  (∀ (s : State) (rest : List Input) (bytes : List Byte) (i : Instr),
    s.pending = .datapath bytes :: rest → decodePrimitive bytes = some i → s.platform.hasShaExt = true →
      step s = exec i { s with pending := rest })

/-- With an opcode-table word put where the next step takes its input, that step runs the word's instruction (log 8). -/
def Obligations.WithFetchWordRunsTableWord : Prop :=
  ∀ (s : State) (nbits w : Nat) (i : Instr),
    decodeTableWord nbits w = some i → s.platform.hasShaExt = true → step (s.withFetchWord nbits w) = exec i s

/-- With no input the engine stays as it is (R267), and a step that goes on consumes one input, the first (R21, R73). -/
def Obligations.StepTakesInputsInOrder : Prop :=
  ∀ s t : State, step s = .next t → (s.pending = [] ∧ t = s) ∨ ∃ e, s.pending = e :: t.pending

/-! ## Primitives: results and frames -/

/-- SHA1RNDS4 is the four rounds of R140, its selector in imm8[1:0]; only xmm1 changes. -/
def Obligations.Sha1rnds4Result : Prop :=
  ∀ (d r : XReg) (imm : Byte) (s : State), ∃ (t : State) (a b c e f : Nat → Word),
    exec (.sha1rnds4 d r imm) s = .next t ∧ s.onlyReg d t ∧
    a 0 = lane (s.reg d) 3 ∧ b 0 = lane (s.reg d) 2 ∧ c 0 = lane (s.reg d) 1 ∧ e 0 = lane (s.reg d) 0 ∧ f 0 = 0#32 ∧
    (∀ k, k < 4 →
      a (k + 1) = (match imm.toNat % 4 with
          | 0 => ch (b k) (c k) (e k)
          | 2 => maj (b k) (c k) (e k)
          | _ => parity (b k) (c k) (e k)) + rotl 5 (a k) + lane (s.reg r) (3 - k) + f k +
        [0x5A827999#32, 0x6ED9EBA1#32, 0x8F1BBCDC#32, 0xCA62C1D6#32].getD (imm.toNat % 4) 0#32 ∧
      b (k + 1) = a k ∧ c (k + 1) = rotl 30 (b k) ∧ e (k + 1) = c k ∧ f (k + 1) = e k) ∧
    t.reg d = vec (a 4) (b 4) (c 4) (e 4)

/-- SHA1NEXTE adds the rotated first variable into lane 3 and passes the other lanes through (R141); only xmm1 changes. -/
def Obligations.Sha1nexteResult : Prop :=
  ∀ (d r : XReg) (s : State), ∃ t, exec (.sha1nexte d r) s = .next t ∧ s.onlyReg d t ∧
    lane (t.reg d) 3 = lane (s.reg r) 3 + rotl 30 (lane (s.reg d) 3) ∧
    lane (t.reg d) 2 = lane (s.reg r) 2 ∧ lane (t.reg d) 1 = lane (s.reg r) 1 ∧ lane (t.reg d) 0 = lane (s.reg r) 0

/-- SHA1MSG1 and SHA1MSG2, lane by lane (R142, R143): the last word of SHA1MSG2 uses the first word of the same call; only
xmm1 changes. -/
def Obligations.Sha1MessageResults : Prop :=
  ∀ (d r : XReg) (s : State),
    (∃ t, exec (.sha1msg1 d r) s = .next t ∧ s.onlyReg d t ∧
      lane (t.reg d) 3 = lane (s.reg d) 1 ^^^ lane (s.reg d) 3 ∧ lane (t.reg d) 2 = lane (s.reg d) 0 ^^^ lane (s.reg d) 2 ∧
      lane (t.reg d) 1 = lane (s.reg r) 3 ^^^ lane (s.reg d) 1 ∧ lane (t.reg d) 0 = lane (s.reg r) 2 ^^^ lane (s.reg d) 0) ∧
    (∃ t, exec (.sha1msg2 d r) s = .next t ∧ s.onlyReg d t ∧
      lane (t.reg d) 3 = rotl 1 (lane (s.reg d) 3 ^^^ lane (s.reg r) 2) ∧
      lane (t.reg d) 2 = rotl 1 (lane (s.reg d) 2 ^^^ lane (s.reg r) 1) ∧
      lane (t.reg d) 1 = rotl 1 (lane (s.reg d) 1 ^^^ lane (s.reg r) 0) ∧
      lane (t.reg d) 0 = rotl 1 (lane (s.reg d) 0 ^^^ lane (t.reg d) 3))

/-- SHA256RNDS2 is the two rounds of R144, with xmm0 as WK, and returns A, B, E and F; only xmm1 changes. -/
def Obligations.Sha256rnds2Result : Prop :=
  ∀ (d r : XReg) (s : State), ∃ (t : State) (a b c e f g h k : Nat → Word),
    exec (.sha256rnds2 d r) s = .next t ∧ s.onlyReg d t ∧
    a 0 = lane (s.reg r) 3 ∧ b 0 = lane (s.reg r) 2 ∧ f 0 = lane (s.reg r) 1 ∧ g 0 = lane (s.reg r) 0 ∧
    c 0 = lane (s.reg d) 3 ∧ e 0 = lane (s.reg d) 2 ∧ h 0 = lane (s.reg d) 1 ∧ k 0 = lane (s.reg d) 0 ∧
    (∀ i, i < 2 →
      let t1 := ch (f i) (g i) (h i) + bigSigma1 (f i) + lane (s.reg 0) i + k i
      a (i + 1) = t1 + maj (a i) (b i) (c i) + bigSigma0 (a i) ∧ b (i + 1) = a i ∧ c (i + 1) = b i ∧ e (i + 1) = c i ∧
      f (i + 1) = t1 + e i ∧ g (i + 1) = f i ∧ h (i + 1) = g i ∧ k (i + 1) = h i) ∧
    t.reg d = vec (a 2) (b 2) (f 2) (g 2)

/-- SHA256MSG1 and SHA256MSG2, lane by lane (R145, R146): the last two words of SHA256MSG2 use the first two of the same
call; only xmm1 changes. -/
def Obligations.Sha256MessageResults : Prop :=
  ∀ (d r : XReg) (s : State),
    (∃ t, exec (.sha256msg1 d r) s = .next t ∧ s.onlyReg d t ∧
      lane (t.reg d) 3 = lane (s.reg d) 3 + smallSigma0 (lane (s.reg r) 0) ∧
      lane (t.reg d) 2 = lane (s.reg d) 2 + smallSigma0 (lane (s.reg d) 3) ∧
      lane (t.reg d) 1 = lane (s.reg d) 1 + smallSigma0 (lane (s.reg d) 2) ∧
      lane (t.reg d) 0 = lane (s.reg d) 0 + smallSigma0 (lane (s.reg d) 1)) ∧
    (∃ t, exec (.sha256msg2 d r) s = .next t ∧ s.onlyReg d t ∧
      lane (t.reg d) 0 = lane (s.reg d) 0 + smallSigma1 (lane (s.reg r) 2) ∧
      lane (t.reg d) 1 = lane (s.reg d) 1 + smallSigma1 (lane (s.reg r) 3) ∧
      lane (t.reg d) 2 = lane (s.reg d) 2 + smallSigma1 (lane (t.reg d) 0) ∧
      lane (t.reg d) 3 = lane (s.reg d) 3 + smallSigma1 (lane (t.reg d) 1))

/-- PSHUFB, byte by byte: bit 7 of a mask byte gives 0, and its low four bits select otherwise (R150); only xmm1 changes. -/
def Obligations.PshufbResult : Prop :=
  ∀ (d r : XReg) (s : State), ∃ t, exec (.pshufb d r) s = .next t ∧ s.onlyReg d t ∧
    ∀ j, j < 16 → byteOf (t.reg d) j =
      if (byteOf (s.reg r) j).getLsbD 7 then 0#8 else byteOf (s.reg d) ((byteOf (s.reg r) j).toNat % 16)

/-- PSHUFD, lane by lane: lane `i` is the lane that imm8[2i+1 : 2i] selects (R151); only xmm1 changes. -/
def Obligations.PshufdResult : Prop :=
  ∀ (d r : XReg) (imm : Byte) (s : State), ∃ t, exec (.pshufd d r imm) s = .next t ∧ s.onlyReg d t ∧
    ∀ i, i < 4 → lane (t.reg d) i = lane (s.reg r) (imm.toNat / 4 ^ i % 4)

/-- PALIGNR, byte by byte: the bytes of xmm1 : xmm2 from byte imm8 on, zero past byte 31 (R152); only xmm1 changes. -/
def Obligations.PalignrResult : Prop :=
  ∀ (d r : XReg) (imm : Byte) (s : State), ∃ t, exec (.palignr d r imm) s = .next t ∧ s.onlyReg d t ∧
    ∀ j, j < 16 → byteOf (t.reg d) j =
      if imm.toNat + j < 16 then byteOf (s.reg r) (imm.toNat + j)
      else if imm.toNat + j < 32 then byteOf (s.reg d) (imm.toNat + j - 16)
      else 0#8

/-- PADDD adds lane by lane with no carry between lanes (R153), and PXOR is the exclusive or (R154); only xmm1 changes. -/
def Obligations.PadddPxorResults : Prop :=
  ∀ (d r : XReg) (s : State),
    (∃ t, exec (.paddd d r) s = .next t ∧ s.onlyReg d t ∧
      ∀ i, i < 4 → lane (t.reg d) i = lane (s.reg d) i + lane (s.reg r) i) ∧
    (∃ t, exec (.pxor d r) s = .next t ∧ s.onlyReg d t ∧ t.reg d = s.reg d ^^^ s.reg r)

/-- PBLENDW takes 16-bit word `j` from xmm2 where imm8[j] = 1 and from xmm1 elsewhere (R155); only xmm1 changes. -/
def Obligations.PblendwResult : Prop :=
  ∀ (d r : XReg) (imm : Byte) (s : State), ∃ t, exec (.pblendw d r imm) s = .next t ∧ s.onlyReg d t ∧
    ∀ j, j < 8 → wordOf (t.reg d) j = if imm.getLsbD j then wordOf (s.reg r) j else wordOf (s.reg d) j

/-! ## The compression functions, and the schedules of primitives -/

/-- `Compress` of SHA-1 is 80 rounds of R119 on the schedule of R118, with the functions of R117 and the constants of R112,
added into H[0..4], and leaves H[5..7] (R120, R126). -/
def Obligations.Sha1Compression : Prop :=
  ∀ (h : Vector Word 8) (blk : List Byte), blk.length = 64 → ∃ w a b c d e : Nat → Word,
    (∀ t, t < 16 → w t = be32 blk t) ∧
    (∀ t, 16 ≤ t → t < 80 → w t = rotl 1 (w (t - 3) ^^^ w (t - 8) ^^^ w (t - 14) ^^^ w (t - 16))) ∧
    a 0 = h[0] ∧ b 0 = h[1] ∧ c 0 = h[2] ∧ d 0 = h[3] ∧ e 0 = h[4] ∧
    (∀ t, t < 80 →
      a (t + 1) = rotl 5 (a t) +
        (if t < 20 then ch (b t) (c t) (d t) else if t < 40 then parity (b t) (c t) (d t)
          else if t < 60 then maj (b t) (c t) (d t) else parity (b t) (c t) (d t)) + e t +
        (if t < 20 then 0x5A827999#32 else if t < 40 then 0x6ED9EBA1#32
          else if t < 60 then 0x8F1BBCDC#32 else 0xCA62C1D6#32) + w t ∧
      b (t + 1) = a t ∧ c (t + 1) = rotl 30 (b t) ∧ d (t + 1) = c t ∧ e (t + 1) = d t) ∧
    compress .sha1 h blk = #v[h[0] + a 80, h[1] + b 80, h[2] + c 80, h[3] + d 80, h[4] + e 80, h[5], h[6], h[7]]

/-- `Compress` of SHA-256 and of SHA-224 is 64 rounds of R122 on the schedule of R121, added into H[0..7] (R123 to R126). -/
def Obligations.Sha256Compression : Prop :=
  ∀ (h : Vector Word 8) (blk : List Byte), blk.length = 64 → ∃ w a b c d e f g k : Nat → Word,
    (∀ t, t < 16 → w t = be32 blk t) ∧
    (∀ t, 16 ≤ t → t < 64 →
      w t = smallSigma1 (w (t - 2)) + w (t - 7) + smallSigma0 (w (t - 15)) + w (t - 16)) ∧
    a 0 = h[0] ∧ b 0 = h[1] ∧ c 0 = h[2] ∧ d 0 = h[3] ∧ e 0 = h[4] ∧ f 0 = h[5] ∧ g 0 = h[6] ∧ k 0 = h[7] ∧
    (∀ t, t < 64 →
      let t1 := k t + bigSigma1 (e t) + ch (e t) (f t) (g t) + k256.getD t 0#32 + w t
      a (t + 1) = t1 + (bigSigma0 (a t) + maj (a t) (b t) (c t)) ∧ b (t + 1) = a t ∧ c (t + 1) = b t ∧ d (t + 1) = c t ∧
      e (t + 1) = d t + t1 ∧ f (t + 1) = e t ∧ g (t + 1) = f t ∧ k (t + 1) = g t) ∧
    compress .sha256 h blk =
      #v[h[0] + a 64, h[1] + b 64, h[2] + c 64, h[3] + d 64, h[4] + e 64, h[5] + f 64, h[6] + g 64, h[7] + k 64] ∧
    compress .sha224 h blk = compress .sha256 h blk

/-- The message groups of the SHA-1 schedule of primitives hold the words of R118, the earliest in lane 3 (R176(a)). -/
def Obligations.Sha1MessageGroups : Prop :=
  ∀ (blk : List Byte) (g : Nat), g < 20 →
    let w := fun t => (schedule1 blk).getD t 0#32
    (groups1 blk).getD g 0#128 = vec (w (4 * g)) (w (4 * g + 1)) (w (4 * g + 2)) (w (4 * g + 3))

/-- The message groups of the SHA-256 schedule of primitives hold the words of R121, the earliest in lane 0 (R179(a)). -/
def Obligations.Sha256MessageGroups : Prop :=
  ∀ (blk : List Byte) (g : Nat), g < 16 →
    let w := fun t => (schedule2 blk).getD t 0#32
    (groups2 blk).getD g 0#128 = vec (w (4 * g + 3)) (w (4 * g + 2)) (w (4 * g + 1)) (w (4 * g))

/-- For every algorithm, every chaining value and every run of blocks, the schedule of primitives, packed once and unpacked
once, gives what the compression function gives block by block. R180 and R181 are inferences the spec marks as its own
('This spec does not prove it'), so this is derived. -/
def Obligations.PrimitiveScheduleIsCompression : Prop :=
  ∀ (alg : Alg) (h : Vector Word 8) (blks : List (List Byte)),
    transformByPrimitives alg h blks = blks.foldl (compress alg) h

/-! ## Padding and digest -/

/-- The padding of a partial block: one block when `plen ≤ 55` and two when more, each of 64 bytes, and together the valid
bytes, 0x80, zeros, and the bit count big-endian (R65, and R204, which the spec marks as derived from its source's steps). -/
def Obligations.PadBlocksBytes : Prop :=
  ∀ (buf : Vector Byte 64) (plen : BitVec 7) (total : DWord), plen.toNat < 64 →
    (padBlocks buf plen total).length = (if plen.toNat ≤ 55 then 1 else 2) ∧
    (∀ b ∈ padBlocks buf plen total, b.length = 64) ∧
    (padBlocks buf plen total).flatten =
      buf.toList.take plen.toNat ++ [0x80#8] ++
        List.replicate (if plen.toNat ≤ 55 then 55 - plen.toNat else 119 - plen.toNat) 0#8 ++
        be64Bytes (BitVec.ofNat 64 (8 * total.toNat))

/-- The digest has DSIZE bytes, and byte `j` is byte `j mod 4` of H[j div 4], most significant first (R66, R205). -/
def Obligations.DigestBytes : Prop :=
  ∀ (alg : Alg) (h : Vector Word 8),
    (digest alg h).length = (match alg with | .sha1 => 20 | .sha256 => 32 | .sha224 => 28) ∧
    ∀ j, j < (digest alg h).length →
      (digest alg h).getD j 0#8 = BitVec.ofNat 8 ((h.toList.getD (j / 4) 0#32).toNat / 256 ^ (3 - j % 4))

/-! ## Commands: results, frames and faults

Each holds on an engine that has the extensions and the slot; what happens without them is `FaultPriority`. -/

/-- INIT, from any lifecycle state: FRESH, the algorithm's initial vector, no bytes (R210, R114 to R116). That a slot in use
keeps the bytes of its buffer is the model's choice (log 15): R210 does not write them and calls them unspecified. Those of a
FREE slot are draws, and nothing is said of them. -/
def Obligations.InitStartsHash : Prop :=
  ∀ (c : Nat) (s : State), s.platform.hasShaExt = true → c < s.nCtx →
    (∃ t x, exec (.initSha1 c) s = .next t ∧ s.onlySlot c t ∧ t.slot c = some x ∧
      x.life = .fresh ∧ x.alg = .sha1 ∧ x.plen = 0#7 ∧ x.total = 0#64 ∧ (∀ y, s.slot c = some y → x.buf = y.buf) ∧
      x.h = #v[0x67452301#32, 0xEFCDAB89#32, 0x98BADCFE#32, 0x10325476#32, 0xC3D2E1F0#32, 0#32, 0#32, 0#32]) ∧
    (∃ t x, exec (.initSha256 c) s = .next t ∧ s.onlySlot c t ∧ t.slot c = some x ∧
      x.life = .fresh ∧ x.alg = .sha256 ∧ x.plen = 0#7 ∧ x.total = 0#64 ∧ (∀ y, s.slot c = some y → x.buf = y.buf) ∧
      x.h = #v[0x6a09e667#32, 0xbb67ae85#32, 0x3c6ef372#32, 0xa54ff53a#32,
        0x510e527f#32, 0x9b05688c#32, 0x1f83d9ab#32, 0x5be0cd19#32]) ∧
    (∃ t x, exec (.initSha224 c) s = .next t ∧ s.onlySlot c t ∧ t.slot c = some x ∧
      x.life = .fresh ∧ x.alg = .sha224 ∧ x.plen = 0#7 ∧ x.total = 0#64 ∧ (∀ y, s.slot c = some y → x.buf = y.buf) ∧
      x.h = #v[0xc1059ed8#32, 0x367cd507#32, 0x3070dd17#32, 0xf70e5939#32,
        0xffc00b31#32, 0x68581511#32, 0x64f98fa7#32, 0xbefa4fa4#32])

/-- UPDATE (R211): its faults in their order, and otherwise, with the valid bytes of the buffer and the bytes at ARG_ADDR in a
row: the whole blocks of that row are compressed, the rest is kept at the start of the buffer, the count grows by ARG_LEN,
and the slot is STREAMING. `plen < 64` is R25, part of `State.Inv`, and only the result rests on it. -/
def Obligations.UpdateAppends : Prop :=
  ∀ (c : Nat) (s : State), s.platform.hasShaExt = true → c < s.nCtx →
    (s.slot c = none → exec (.update c) s = .next (s.raiseFault .notInit 2#4 (BitVec.ofNat 8 c))) ∧
    (∀ x, s.slot c = some x →
      (x.life = .finalized → exec (.update c) s = .next (s.raiseFault .finalized 2#4 (BitVec.ofNat 8 c))) ∧
      (x.life ≠ .finalized →
        (2 ^ 61 - 1 < x.total.toNat + s.argLen.toNat →
          exec (.update c) s = .next (s.raiseFault .length 2#4 (BitVec.ofNat 8 c))) ∧
        (x.total.toNat + s.argLen.toNat ≤ 2 ^ 61 - 1 →
          (s.platform.admitted .read s.argAddr.toNat s.argLen.toNat = false →
            exec (.update c) s = .next (s.raiseFault .bus 2#4 (BitVec.ofNat 8 c))) ∧
          (s.platform.admitted .read s.argAddr.toNat s.argLen.toNat = true → x.plen.toNat < 64 →
            ∃ t y, exec (.update c) s = .next t ∧ s.onlySlot c t ∧ t.slot c = some y ∧
              y.life = .streaming ∧ y.alg = x.alg ∧ y.total.toNat = x.total.toNat + s.argLen.toNat ∧
              let d := x.buf.toList.take x.plen.toNat ++ s.mem.readBytes s.argAddr.toNat s.argLen.toNat
              y.h = compressBlocks x.alg (d.length / 64) x.h d ∧
              y.plen.toNat = d.length % 64 ∧
              y.buf.toList.take (d.length % 64) = d.drop (64 * (d.length / 64))))))

/-- FINAL (R213): its faults in their order, and otherwise: the padded rest of the stream is compressed, the slot is FINALIZED
with its count as it was, `min(ARG_LEN, DSIZE)` bytes of the digest stand at ARG_ADDR, and no other byte of memory changes.
`plen` and `buf` are draws (R28): nothing is said of them. `plen < 64` is R25, and only the result rests on it. -/
def Obligations.FinalWritesDigest : Prop :=
  ∀ (c : Nat) (s : State), s.platform.hasShaExt = true → c < s.nCtx →
    (s.slot c = none → exec (.final c) s = .next (s.raiseFault .notInit 3#4 (BitVec.ofNat 8 c))) ∧
    (∀ x, s.slot c = some x →
      (x.life = .finalized → exec (.final c) s = .next (s.raiseFault .finalized 3#4 (BitVec.ofNat 8 c))) ∧
      (x.life ≠ .finalized →
        let m := min s.argLen.toNat (match x.alg with | .sha1 => 20 | .sha256 => 32 | .sha224 => 28)
        (s.platform.admitted .write s.argAddr.toNat m = false →
          exec (.final c) s = .next (s.raiseFault .bus 3#4 (BitVec.ofNat 8 c))) ∧
        (s.platform.admitted .write s.argAddr.toNat m = true → x.plen.toNat < 64 →
          ∃ t y, exec (.final c) s = .next t ∧ s.sameHost t ∧ t.err = s.err ∧ s.sameSlotsBut c t ∧
            s.sameMemBut s.argAddr.toNat m t ∧ t.slot c = some y ∧
            y.life = .finalized ∧ y.alg = x.alg ∧ y.total = x.total ∧
            (let tail := x.buf.toList.take x.plen.toNat ++ [0x80#8] ++
                List.replicate ((119 - x.plen.toNat) % 64) 0#8 ++ be64Bytes (BitVec.ofNat 64 (8 * x.total.toNat))
            y.h = compressBlocks x.alg (tail.length / 64) x.h tail) ∧
            t.mem.readBytes s.argAddr.toNat m = (digest x.alg y.h).take m)))

/-- CLONE (R214): its faults, and otherwise every field of the source slot stands in the destination slot, whatever that held. -/
def Obligations.CloneCopiesSlot : Prop :=
  ∀ (c src : Nat) (s : State), s.platform.hasShaExt = true → c < s.nCtx →
    (s.nCtx ≤ src → exec (.clone c src) s = .next (s.raiseFault .badCtx 4#4 (BitVec.ofNat 8 c))) ∧
    (src < s.nCtx → s.slot src = none →
      exec (.clone c src) s = .next (s.raiseFault .notInit 4#4 (BitVec.ofNat 8 c))) ∧
    (∀ x, s.slot src = some x →
      ∃ t, exec (.clone c src) s = .next t ∧ s.onlySlot c t ∧ t.slot c = some x ∧ t.slot src = some x)

/-- RESET (R215): the fault of a FREE slot, and otherwise what INIT of the slot's own algorithm does, to the letter. -/
def Obligations.ResetRestartsSlot : Prop :=
  ∀ (c : Nat) (s : State), s.platform.hasShaExt = true → c < s.nCtx →
    (s.slot c = none → exec (.reset c) s = .next (s.raiseFault .notInit 5#4 (BitVec.ofNat 8 c))) ∧
    (∀ x, s.slot c = some x →
      exec (.reset c) s = exec (initOf x.alg c) s ∧
      ∃ t y, exec (.reset c) s = .next t ∧ s.onlySlot c t ∧ t.slot c = some y ∧
        y.life = .fresh ∧ y.alg = x.alg ∧ y.h = iv x.alg ∧ y.plen = 0#7 ∧ y.total = 0#64)

/-- RELEASE (R216): the fault of a FREE slot, and otherwise the slot is FREE; a second RELEASE of it faults. -/
def Obligations.ReleaseFreesSlot : Prop :=
  ∀ (c : Nat) (s : State), s.platform.hasShaExt = true → c < s.nCtx →
    (s.slot c = none → exec (.release c) s = .next (s.raiseFault .notInit 6#4 (BitVec.ofNat 8 c))) ∧
    (∀ x, s.slot c = some x → ∃ t, exec (.release c) s = .next t ∧ s.onlySlot c t ∧ t.slot c = none ∧
      exec (.release c) t = .next (t.raiseFault .notInit 6#4 (BitVec.ofNat 8 c)))

/-- XFORM (R217): its faults in their order, among them E_BUS for every block count above 2^58, and otherwise the blocks
at ARG_ADDR are compressed in address order into H, the slot is STREAMING, and its buffer, partial length and count stay. -/
def Obligations.XformCompressesBlocks : Prop :=
  ∀ (c : Nat) (s : State), s.platform.hasShaExt = true → c < s.nCtx →
    (s.slot c = none → exec (.xform c) s = .next (s.raiseFault .notInit 7#4 (BitVec.ofNat 8 c))) ∧
    (∀ x, s.slot c = some x →
      (x.life = .finalized → exec (.xform c) s = .next (s.raiseFault .finalized 7#4 (BitVec.ofNat 8 c))) ∧
      (x.life ≠ .finalized →
        (s.platform.admitted .read s.argAddr.toNat (64 * s.argLen.toNat) = false ∨ 2 ^ 58 < s.argLen.toNat →
          exec (.xform c) s = .next (s.raiseFault .bus 7#4 (BitVec.ofNat 8 c))) ∧
        (s.platform.admitted .read s.argAddr.toNat (64 * s.argLen.toNat) = true →
          ∃ t y, exec (.xform c) s = .next t ∧ s.onlySlot c t ∧ t.slot c = some y ∧
            y.life = .streaming ∧ y.alg = x.alg ∧ y.buf = x.buf ∧ y.plen = x.plen ∧ y.total = x.total ∧
            y.h = ((List.range s.argLen.toNat).map fun i => s.mem.readBytes (s.argAddr.toNat + 64 * i) 64).foldl
              (compress x.alg) x.h)))

/-! ## Faults -/

/-- Which fault a command word raises is the first of R251 that applies, and it is recorded with the word's own OP and CTX
fields (R253); a word that raises none leaves ERR as it is (R202). -/
def Obligations.FaultPriority : Prop :=
  ∀ (w : Word) (s : State),
    (s.platform.hasShaExt = false → execute w s = .next (s.raiseFault .unavailable (fieldOp w) (fieldCtx w))) ∧
    (s.platform.hasShaExt = true → decodeCommand w = none →
      execute w s = .next (s.raiseFault .badCmd (fieldOp w) (fieldCtx w))) ∧
    (∀ i, s.platform.hasShaExt = true → decodeCommand w = some i →
      (∀ code, s.firstFault i = some code → execute w s = .next (s.raiseFault code (fieldOp w) (fieldCtx w))) ∧
      (s.firstFault i = none → ∃ t, execute w s = .next t ∧ t.err = s.err))

/-- A command word with a reserved bit set faults E_BAD_CMD, through the step that a host write to CMD takes (R85). -/
def Obligations.ReservedBitsFault : Prop :=
  ∀ (w : Word) (s : State) (rest : List Input), s.pending = .hostWrite 0x04#8 w :: rest → s.platform.hasShaExt = true →
    fieldRsv0 w ≠ 0#2 ∨ fieldRsv1 w ≠ 0#8 →
      step s = .next ({ s with pending := rest }.raiseFault .badCmd (fieldOp w) (fieldCtx w))

/-- Without the extensions every command word, legal or not, faults E_UNAVAILABLE and changes no slot, CAP reads 0 in bits 0
to 3, and every other access of the window is as with them (R252). -/
def Obligations.UnavailableRefusesCommands : Prop :=
  ∀ s : State, s.platform.hasShaExt = false →
    (∀ w, ∃ t, hostWrite 0x04#8 w s = .next t ∧ t.slots = s.slots ∧
      t = s.raiseFault .unavailable (fieldOp w) (fieldCtx w)) ∧
    (∃ t, hostRead 0x00#8 s = .next t ∧ t.readData.extractLsb' 0 4 = 0#4) ∧
    (∀ (on : State) (o : BitVec 8) (w : Word), on = { s with platform := { s.platform with hasShaExt := true } } →
      o.toNat % 4 = 0 →
        (o ≠ 0x00#8 → ∃ t t', hostRead o s = .next t ∧ hostRead o on = .next t' ∧ t.readData = t'.readData) ∧
        (o ≠ 0x04#8 → ∃ t t', hostWrite o w s = .next t ∧ hostWrite o w on = .next t' ∧
          t = { t' with platform := s.platform }))

/-- What a fault records and that it changes nothing else (R255): the first fault is kept with its code, OP and CTX, and a
later one sets OVF. The codes are those of R250. -/
def Obligations.FaultRecord : Prop :=
  ∀ (s : State) (code : FaultCode) (op : BitVec 4) (ctx : BitVec 8),
    let t := s.raiseFault code op ctx
    t = { s with err := t.err } ∧
    (s.err.valid = false → t.err.valid = true ∧ t.err.op = op ∧ t.err.ctx = ctx ∧ t.err.ovf = s.err.ovf ∧
      t.err.code = (match code with
        | .unavailable => 1#4
        | .badCmd => 2#4
        | .badCtx => 3#4
        | .notInit => 4#4
        | .finalized => 5#4
        | .length => 6#4
        | .bus => 7#4)) ∧
    (s.err.valid = true → t.err = { s.err with ovf := true })

/-- The clearing write to ERR (R257): bit 0 clears VALID, CODE, OP and CTX, bit 1 clears OVF, a bit written 0 leaves them, and
nothing else changes. -/
def Obligations.ErrWriteClears : Prop :=
  ∀ (s : State) (w : Word), ∃ t, hostWrite 0x18#8 w s = .next t ∧ t = { s with err := t.err } ∧
    (w.getLsbD 0 = true → t.err.valid = false ∧ t.err.code = 0#4 ∧ t.err.op = 0#4 ∧ t.err.ctx = 0#8) ∧
    (w.getLsbD 0 = false → t.err.valid = s.err.valid ∧ t.err.code = s.err.code ∧ t.err.op = s.err.op ∧
      t.err.ctx = s.err.ctx) ∧
    (w.getLsbD 1 = true → t.err.ovf = false) ∧ (w.getLsbD 1 = false → t.err.ovf = s.err.ovf)

/-- Over every step: only a faulting command sets VALID or OVF, and only a host write of 1, or the platform's reset, clears
them (R33, R257, R280). -/
def Obligations.ErrBitsChangeOnlyBy : Prop :=
  ∀ s t : State, step s = .next t →
    ((s.err.valid = false ∧ t.err.valid = true) ∨ (s.err.ovf = false ∧ t.err.ovf = true) →
      ∃ (w : Word) (code : FaultCode), s.pending = .hostWrite 0x04#8 w :: t.pending ∧
        t = { s with pending := t.pending }.raiseFault code (fieldOp w) (fieldCtx w)) ∧
    (s.err.valid = true ∧ t.err.valid = false → s.pending = .platformReset :: t.pending ∨
      ∃ w : Word, s.pending = .hostWrite 0x18#8 w :: t.pending ∧ w.getLsbD 0 = true) ∧
    (s.err.ovf = true ∧ t.err.ovf = false → s.pending = .platformReset :: t.pending ∨
      ∃ w : Word, s.pending = .hostWrite 0x18#8 w :: t.pending ∧ w.getLsbD 1 = true)

/-- Whatever ERR holds, an instruction does the same, but for the record itself: it raises a fault with the one record exactly
when it raises the same fault with the other (R256). -/
def Obligations.InstructionsRunWhateverErr : Prop :=
  ∀ (i : Instr) (s : State) (e : ErrReg), ∃ t t', exec i s = .next t ∧ exec i { s with err := e } = .next t' ∧
    t' = { t with err := t'.err } ∧
    ((t.err = s.err ∧ t'.err = e) ∨
      ∃ code op ctx, t.err = s.err.record code op ctx ∧ t'.err = e.record code op ctx)

/-! ## Whole-machine rules over the commands -/

/-- Every command completes, writes only its slot, ERR and, for FINAL, the digest's bytes, and neither reads nor writes any
other slot, but for the source that CLONE reads (R30): a change to another slot is carried through unseen. That a
command which runs no transform leaves the datapath registers is the model's choice (log 6). -/
def Obligations.CommandTouchesOnlyItsSlot : Prop :=
  ∀ (i : Instr) (op : BitVec 4) (c : Nat) (s : State), i.command = some (op, c) → ∃ t, exec i s = .next t ∧
    s.sameHost t ∧ s.sameSlotsBut c t ∧
    (∀ b, (∀ x, i = .final c → s.slot c = some x →
        ¬ (s.addrArg ≤ b ∧ b < s.addrArg + min s.lenArg (dsize x.alg))) → t.mem.read b = s.mem.read b) ∧
    (i ≠ .update c → i ≠ .final c → i ≠ .xform c → t.xmm = s.xmm) ∧
    (∀ (k : Nat) (o : Option HashState), k ≠ c → (∀ src, i = .clone c src → k ≠ src) →
      exec i (s.setSlot k o) = .next (t.setSlot k o))

/-- No step leaves FINALIZED but INIT, RESET, RELEASE or CLONE into the slot, or the platform's reset, and until then the slot
keeps every field, its digest in H among them (R27, R282, R214, R280). -/
def Obligations.FinalizedLeftOnlyBy : Prop :=
  ∀ (s t : State) (c : Nat) (x : HashState), step s = .next t → s.slot c = some x → x.life = .finalized →
    t.slot c ≠ some x →
      s.pending = .platformReset :: t.pending ∨
      ∃ (w : Word) (i : Instr), s.pending = .hostWrite 0x04#8 w :: t.pending ∧ decodeCommand w = some i ∧
        (i = .initSha1 c ∨ i = .initSha256 c ∨ i = .initSha224 c ∨ i = .reset c ∨ i = .release c ∨
          ∃ src, i = .clone c src)

/-- The capability, the address map, the window's address and the number of slots never change (R50, R7). -/
def Obligations.PlatformConstant : Prop :=
  ∀ s t : State, step s = .next t → t.platform = s.platform ∧ t.nCtx = s.nCtx

/-! ## The register window -/

/-- CAP: bits 0 to 3 are HAS_SHA_EXT, bits [24:16] are N_CTX, the rest is 0, and a write is ignored (R39). -/
def Obligations.CapReads : Prop :=
  ∀ s : State, s.nCtx ≤ 256 → (∃ t, hostRead 0x00#8 s = .next t ∧
      t.readData.getLsbD 0 = s.platform.hasShaExt ∧ t.readData.getLsbD 1 = s.platform.hasShaExt ∧
      t.readData.getLsbD 2 = s.platform.hasShaExt ∧ t.readData.getLsbD 3 = s.platform.hasShaExt ∧
      t.readData.extractLsb' 4 12 = 0#12 ∧ (t.readData.extractLsb' 16 9).toNat = s.nCtx ∧
      t.readData.extractLsb' 25 7 = 0#7) ∧
    ∀ w, hostWrite 0x00#8 w s = .next s

/-- ARG_ADDR and ARG_LEN (R41, R42): writing both halves, low then high, gives HI : LO and changes nothing else, each half
reads back as written, and no instruction changes either register. -/
def Obligations.ArgumentRegisters : Prop :=
  ∀ (s : State) (lo hi : Word),
    (∃ t, hostWrite 0x08#8 lo s = .next t ∧ hostWrite 0x0C#8 hi t = .next { s with argAddr := hi ++ lo }) ∧
    (∃ t, hostWrite 0x10#8 lo s = .next t ∧ hostWrite 0x14#8 hi t = .next { s with argLen := hi ++ lo }) ∧
    (∃ t, hostRead 0x08#8 { s with argAddr := hi ++ lo } = .next t ∧ t.readData = lo) ∧
    (∃ t, hostRead 0x0C#8 { s with argAddr := hi ++ lo } = .next t ∧ t.readData = hi) ∧
    (∃ t, hostRead 0x10#8 { s with argLen := hi ++ lo } = .next t ∧ t.readData = lo) ∧
    (∃ t, hostRead 0x14#8 { s with argLen := hi ++ lo } = .next t ∧ t.readData = hi) ∧
    ∀ i : Instr, ∃ t, exec i s = .next t ∧ t.argAddr = s.argAddr ∧ t.argLen = s.argLen

/-- ERR reads as its fields at the places of R43, the reserved bits 0. -/
def Obligations.ErrReads : Prop :=
  ∀ s : State, ∃ t, hostRead 0x18#8 s = .next t ∧
    t.readData.getLsbD 0 = s.err.valid ∧ t.readData.getLsbD 1 = s.err.ovf ∧ t.readData.extractLsb' 2 6 = 0#6 ∧
    t.readData.extractLsb' 8 4 = s.err.code ∧ t.readData.extractLsb' 12 4 = s.err.op ∧
    t.readData.extractLsb' 16 8 = s.err.ctx ∧ t.readData.extractLsb' 24 8 = 0#8

/-- CTX_SEL (R44): a write selects `w[7:0]` when that names a slot and is ignored otherwise, it reads back with bits [31:8] 0,
and it does not change what any instruction does. -/
def Obligations.CtxSelSelects : Prop :=
  (∀ (s : State) (w : Word), hostWrite 0x1C#8 w s =
    .next (if w.toNat % 256 < s.nCtx then { s with ctxSel := BitVec.ofNat 8 (w.toNat % 256) } else s)) ∧
  (∀ s : State, ∃ t, hostRead 0x1C#8 s = .next t ∧ t.readData.toNat = s.ctxSel.toNat) ∧
  (∀ (i : Instr) (s : State) (v : BitVec 8), ∃ t, exec i s = .next t ∧
    exec i { s with ctxSel := v } = .next { t with ctxSel := v })

/-- CTX_STATUS (R45): 0 for a FREE slot; else LIFE, ALG and, outside FINALIZED, PLEN at their places and every other bit 0.
In FINALIZED the PLEN read is a draw: nothing is said of it. -/
def Obligations.CtxStatusReads : Prop :=
  ∀ s : State, ∃ t, hostRead 0x20#8 s = .next t ∧
    (s.slot s.ctxSel.toNat = none → t.readData = 0#32) ∧
    (∀ x, s.slot s.ctxSel.toNat = some x →
      t.readData.extractLsb' 0 2 = (match x.life with | .fresh => 1#2 | .streaming => 2#2 | .finalized => 3#2) ∧
      t.readData.extractLsb' 4 2 = (match x.alg with | .sha1 => 0#2 | .sha256 => 1#2 | .sha224 => 2#2) ∧
      (x.life ≠ .finalized → t.readData.extractLsb' 8 7 = x.plen) ∧
      t.readData.extractLsb' 2 2 = 0#2 ∧ t.readData.extractLsb' 6 2 = 0#2 ∧ t.readData.extractLsb' 15 17 = 0#17)

/-- CTX_TOTAL and CTX_H show the selected slot's count and chaining value, CTX_H5 to CTX_H7 of a SHA-1 slot read 0, and the
reads change nothing of the engine (R46, R47; the SHA-1 zeros are R24, part of `State.Inv`). On a FREE slot the reads
complete, and nothing is said of their values, which are draws (R29). -/
def Obligations.CtxFieldsRead : Prop :=
  ∀ s : State,
    (∃ t, hostRead 0x24#8 s = .next t ∧ t = { s with readData := t.readData, draws := t.draws } ∧
      ∀ x, s.slot s.ctxSel.toNat = some x → t.readData = BitVec.ofNat 32 (x.total.toNat % 2 ^ 32)) ∧
    (∃ t, hostRead 0x28#8 s = .next t ∧ t = { s with readData := t.readData, draws := t.draws } ∧
      ∀ x, s.slot s.ctxSel.toNat = some x → t.readData = BitVec.ofNat 32 (x.total.toNat / 2 ^ 32)) ∧
    ∀ i, i < 8 → ∃ t, hostRead (BitVec.ofNat 8 (0x30 + 4 * i)) s = .next t ∧
      t = { s with readData := t.readData, draws := t.draws } ∧
      ∀ x, s.slot s.ctxSel.toNat = some x → t.readData = x.h.toList.getD i 0#32 ∧
        (s.Inv → x.alg = .sha1 → 5 ≤ i → t.readData = 0#32)

/-- Every aligned read completes and changes no state of the engine and no byte of memory, and CMD and the reserved offsets
read 0 (R200, R40, R48). What changes is the model's own read port and its count of draws. -/
def Obligations.ReadsHaveNoSideEffect : Prop :=
  ∀ (s : State) (o : BitVec 8), o.toNat % 4 = 0 → ∃ t, hostRead o s = .next t ∧
    t = { s with readData := t.readData, draws := t.draws } ∧
    (o = 0x04#8 ∨ o = 0x2C#8 ∨ 0x50 ≤ o.toNat → t.readData = 0#32)

/-- A host write at every aligned offset (R201): CMD executes, the argument halves, ERR and CTX_SEL store, every other offset
ignores it, and no write fails to complete. -/
def Obligations.HostWrites : Prop :=
  ∀ (s : State) (w : Word),
    hostWrite 0x04#8 w s = execute w s ∧ (∃ t, execute w s = .next t) ∧
    hostWrite 0x08#8 w s = .next { s with argAddr := s.argAddr.extractLsb' 32 32 ++ w } ∧
    hostWrite 0x0C#8 w s = .next { s with argAddr := w ++ s.argAddr.extractLsb' 0 32 } ∧
    hostWrite 0x10#8 w s = .next { s with argLen := s.argLen.extractLsb' 32 32 ++ w } ∧
    hostWrite 0x14#8 w s = .next { s with argLen := w ++ s.argLen.extractLsb' 0 32 } ∧
    hostWrite 0x18#8 w s = .next { s with err := {
      valid := s.err.valid && !w.getLsbD 0, ovf := s.err.ovf && !w.getLsbD 1,
      code := if w.getLsbD 0 then 0#4 else s.err.code, op := if w.getLsbD 0 then 0#4 else s.err.op,
      ctx := if w.getLsbD 0 then 0#8 else s.err.ctx } } ∧
    hostWrite 0x1C#8 w s =
      .next (if (w.extractLsb' 0 8).toNat < s.nCtx then { s with ctxSel := w.extractLsb' 0 8 } else s) ∧
    ∀ o : BitVec 8, o.toNat % 4 = 0 → (o.toNat = 0 ∨ 0x20 ≤ o.toNat) → hostWrite o w s = .next s

/-! ## Reset, admission and host memory -/

/-- The state after reset of every platform, number of slots and host memory (R49): the argument registers, ERR and CTX_SEL
are 0, every slot is FREE, and CTX_STATUS reads 0. -/
def Obligations.ResetLeaves : Prop :=
  ∀ (p : Platform) (n : Nat) (mem : Memory),
    let s := State.resetOf p n mem
    s.platform = p ∧ s.nCtx = n ∧ s.argAddr = 0#64 ∧ s.argLen = 0#64 ∧ s.err.word = 0#32 ∧ s.ctxSel = 0#8 ∧
    (∀ c, s.slot c = none) ∧ ∃ t, hostRead 0x20#8 s = .next t ∧ t.readData = 0#32

/-- The platform's reset, from every state (R280): as R49 says, on the same platform with the same number of slots. That host
memory stays is the model's reading (log 14). -/
def Obligations.PlatformResetLeaves : Prop :=
  ∀ s : State, ∃ t, receive .platformReset s = .next t ∧ t.platform = s.platform ∧ t.nCtx = s.nCtx ∧
    t.argAddr = 0#64 ∧ t.argLen = 0#64 ∧ t.err = ⟨false, false, 0#4, 0#4, 0#8⟩ ∧ t.ctxSel = 0#8 ∧
    (∀ c, t.slot c = none) ∧ s.sameMem t

/-- Admission (R62, R78): no bytes are always admitted; `n ≥ 1` bytes are admitted exactly when they end at or below 2^64,
none of them lies in the register window, and the platform's map admits them. -/
def Obligations.AdmissionRule : Prop :=
  ∀ (p : Platform) (kind : AccessKind) (a n : Nat),
    p.admitted kind a n = true ↔ n = 0 ∨
      (a + n ≤ 2 ^ 64 ∧ (∀ b, a ≤ b → b < a + n → ¬ (p.regBase.toNat ≤ b ∧ b < p.regBase.toNat + 256)) ∧
        p.mapAdmits kind a n = true)

/-- The host's own accesses to a byte of its memory outside the register window (R21, R73): a store changes that byte and
nothing else, and a load returns it and changes nothing of the engine or of memory. That such an access is one byte and
completes at every address outside the window is the model's choice (log 11). -/
def Obligations.HostMemoryAccess : Prop :=
  ∀ (s : State) (a : DWord) (b : Byte), s.platform.meetsWindow a.toNat 1 = false →
    (∃ t, receive (.memStore a b) s = .next t ∧ t = { s with mem := t.mem } ∧ t.mem.read a.toNat = b ∧
      s.sameMemBut a.toNat 1 t) ∧
    (∃ t, receive (.memLoad a) s = .next t ∧ t = { s with readData := t.readData } ∧
      t.readData.toNat = (s.mem.read a.toNat).toNat)

/-! ## Invariants -/

/-- Every step keeps the invariant: the index and length bounds of R7, R25 and R26, the SHA-1 zeros of R24, the fields of a
FRESH slot (R210), the codes of ERR (R43, R250), CTX_SEL naming a slot (R44), and the canonical form of host memory. -/
def Obligations.StepKeepsInv : Prop := ∀ s t : State, s.Inv → step s = .next t → t.Inv

/-- The state after reset, on the sample platform that the model chose (log 2), meets the invariant. -/
def Obligations.ResetMeetsInv : Prop := State.reset.Inv

/-! ## The stream -/

/-- The stream invariant (R25): after INIT and any UPDATEs, none of which needs to fault, the slot's fields are those of the
concatenation of the bytes, whatever the pieces were; and no fault is recorded and no byte of memory changes. -/
def Obligations.StreamState : Prop :=
  ∀ (alg : Alg) (c : Nat) (ps : List (DWord × DWord)) (s : State), s.platform.hasShaExt = true → c < s.nCtx →
    s.platform.readable ps → (s.mem.dataOf ps).length ≤ 2 ^ 61 - 1 →
    ∃ t x, runStream alg c ps s = some t ∧ t.slot c = some x ∧ t.err = s.err ∧ s.sameMem t ∧ s.sameSlotsBut c t ∧
      let m := s.mem.dataOf ps
      x.alg = alg ∧ x.life ≠ .finalized ∧ x.total.toNat = m.length ∧ x.plen.toNat = m.length % 64 ∧
      x.buf.toList.take x.plen.toNat = m.drop (m.length - x.plen.toNat) ∧
      x.h = compressBlocks alg (m.length / 64) (iv alg) m

/-- Chunk invariance (R212): from any slot that takes bytes, two lists of ranges that hold the same bytes in a row lead to the
same H, partial length, count and valid buffer bytes, and to the same bytes from a later FINAL of any capacity; and an
UPDATE of length 0 changes nothing of the slot but its lifecycle state. R212 is an inference the spec marks as its own, from
R211 and R25, so this is derived. -/
def Obligations.ChunkInvariance : Prop :=
  ∀ (c : Nat) (s : State) (x : HashState), s.platform.hasShaExt = true → s.slot c = some x → x.life ≠ .finalized →
    x.plen.toNat < 64 → x.total.toNat ≤ 2 ^ 61 - 1 →
    (∀ ps qs : List (DWord × DWord), s.platform.readable ps → s.platform.readable qs →
      s.mem.dataOf ps = s.mem.dataOf qs → x.total.toNat + (s.mem.dataOf ps).length ≤ 2 ^ 61 - 1 →
      ∃ t u y z, runUpdates c ps s = some t ∧ runUpdates c qs s = some u ∧ t.slot c = some y ∧ u.slot c = some z ∧
        t.err = s.err ∧ u.err = s.err ∧ y.h = z.h ∧ y.plen = z.plen ∧ y.total = z.total ∧
        y.buf.toList.take y.plen.toNat = z.buf.toList.take z.plen.toNat ∧ ∀ n, y.output n = z.output n) ∧
    (∀ a : DWord, ∃ t, runUpdates c [(a, 0#64)] s = some t ∧ t.slot c = some { x with life := .streaming })

/-- The hash law (R219): INIT, any UPDATEs whose bytes make up a message of at most LEN_LIMIT bytes, and FINAL leave at the
destination the first `min(capacity, DSIZE)` bytes of the digest of the padded message, raise no fault and change no other
byte of memory; and the padding is the least that fills whole blocks. R219 is an inference the spec marks as its own, from
R210 to R213 and the functions of 40_sha_functions.md, so this is derived. -/
def Obligations.HashLaw : Prop :=
  (∀ (alg : Alg) (c : Nat) (ps : List (DWord × DWord)) (dst cap : DWord) (s : State),
    let n := min cap.toNat (match alg with | .sha1 => 20 | .sha256 => 32 | .sha224 => 28)
    s.platform.hasShaExt = true → c < s.nCtx → s.platform.readable ps → (s.mem.dataOf ps).length ≤ 2 ^ 61 - 1 →
    s.platform.admitted .write dst.toNat n = true →
    ∃ t, runHash alg c ps dst cap s = some t ∧ t.err = s.err ∧ s.sameMemBut dst.toNat n t ∧
      t.mem.readBytes dst.toNat n = (hashOf alg (s.mem.dataOf ps)).take n) ∧
  (∀ msg : List Byte, (padMessage msg).length % 64 = 0 ∧
    ∀ k, (msg ++ [0x80#8] ++ zeros k ++ be64Bytes (BitVec.ofNat 64 (8 * msg.length))).length % 64 = 0 →
      (padMessage msg).length ≤ (msg ++ [0x80#8] ++ zeros k ++ be64Bytes (BitVec.ofNat 64 (8 * msg.length))).length)
end

