-- ==== Sys2Proof/Laws/Decode.lean ====
section
/-! SUPPORT. Laws/Decode.lean: the fields of a command word, and the registers of a ModRM byte. -/

namespace Sys2Proof

/-- A word is its fields in a row (R80). -/
theorem word_fields (w : Word) :
    w = fieldRsv1 w ++ fieldSrc w ++ fieldCtx w ++ fieldRsv0 w ++ fieldAlg w ++ fieldOp w := by
  apply BitVec.eq_of_getLsbD_eq; intro i hi
  have h : (fieldRsv1 w ++ fieldSrc w ++ fieldCtx w ++ fieldRsv0 w ++ fieldAlg w ++ fieldOp w).getLsbD i =
      BitVec.getLsbD (w := 8 + 8 + 8 + 2 + 2 + 4)
        (fieldRsv1 w ++ fieldSrc w ++ fieldCtx w ++ fieldRsv0 w ++ fieldAlg w ++ fieldOp w) i := rfl
  rw [h]
  simp only [BitVec.getLsbD_append]
  interval_cases i <;>
    simp [fieldRsv1, fieldSrc, fieldCtx, fieldRsv0, fieldAlg, fieldOp, field]

/-- The fields of an encoded word are those it was made from (R80). -/
theorem commandWord_fields (op : BitVec 4) (alg : BitVec 2) (c src : Nat) :
    fieldOp (commandWord op alg c src) = op ∧ fieldAlg (commandWord op alg c src) = alg ∧
      fieldRsv0 (commandWord op alg c src) = 0#2 ∧ fieldCtx (commandWord op alg c src) = BitVec.ofNat 8 c ∧
      fieldSrc (commandWord op alg c src) = BitVec.ofNat 8 src ∧ fieldRsv1 (commandWord op alg c src) = 0#8 := by
  have key (i : Nat) : (commandWord op alg c src).getLsbD i = BitVec.getLsbD (w := 8 + 8 + 8 + 2 + 2 + 4)
      (0#8 ++ BitVec.ofNat 8 src ++ BitVec.ofNat 8 c ++ 0#2 ++ alg ++ op) i := rfl
  refine ⟨?_, ?_, ?_, ?_, ?_, ?_⟩ <;> apply BitVec.eq_of_getLsbD_eq <;> intro i hi <;>
    simp only [fieldOp, fieldAlg, fieldRsv0, fieldCtx, fieldSrc, fieldRsv1, field, BitVec.getLsbD_extractLsb', key, hi,
      decide_true, Bool.true_and, BitVec.getLsbD_append] <;> interval_cases i <;> simp

/-- The two masks of R87 by fields: a row with mask 0xFFFF00FF leaves CTX open. -/
theorem mask_ctx (w : Word) :
    w &&& 0xFFFF00FF#32 = fieldRsv1 w ++ fieldSrc w ++ 0#8 ++ fieldRsv0 w ++ fieldAlg w ++ fieldOp w := by
  apply BitVec.eq_of_getLsbD_eq; intro i hi
  have h : (fieldRsv1 w ++ fieldSrc w ++ 0#8 ++ fieldRsv0 w ++ fieldAlg w ++ fieldOp w).getLsbD i =
      BitVec.getLsbD (w := 8 + 8 + 8 + 2 + 2 + 4)
        (fieldRsv1 w ++ fieldSrc w ++ 0#8 ++ fieldRsv0 w ++ fieldAlg w ++ fieldOp w) i := rfl
  rw [h]
  simp only [BitVec.getLsbD_append]
  interval_cases i <;>
    simp [fieldRsv1, fieldSrc, fieldRsv0, fieldAlg, fieldOp, field]

/-- The row of CLONE, with mask 0xFF0000FF, leaves CTX and SRC open. -/
theorem mask_ctx_src (w : Word) :
    w &&& 0xFF0000FF#32 = fieldRsv1 w ++ 0#8 ++ 0#8 ++ fieldRsv0 w ++ fieldAlg w ++ fieldOp w := by
  apply BitVec.eq_of_getLsbD_eq; intro i hi
  have h : (fieldRsv1 w ++ 0#8 ++ 0#8 ++ fieldRsv0 w ++ fieldAlg w ++ fieldOp w).getLsbD i =
      BitVec.getLsbD (w := 8 + 8 + 8 + 2 + 2 + 4)
        (fieldRsv1 w ++ 0#8 ++ 0#8 ++ fieldRsv0 w ++ fieldAlg w ++ fieldOp w) i := rfl
  rw [h]
  simp only [BitVec.getLsbD_append]
  interval_cases i <;>
    simp [fieldRsv1, fieldRsv0, fieldAlg, fieldOp, field]

/-- ModRM gives back the registers it was made from (R91). -/
theorem modrmRegs_modrmByte (d r : XReg) : modrmRegs (modrmByte d r) = some (d, r) := by
  revert d r; decide

/-- A ModRM byte that gives registers was made from them (R91). -/
theorem modrmByte_of_modrmRegs (m : Byte) (d r : XReg) (h : modrmRegs m = some (d, r)) : modrmByte d r = m := by
  have key : ∀ k : Fin 256, (BitVec.ofFin k : Byte).extractLsb' 6 2 = 3#2 →
      modrmByte ((BitVec.ofFin k : Byte).extractLsb' 3 3).toFin ((BitVec.ofFin k : Byte).extractLsb' 0 3).toFin =
        BitVec.ofFin k := by decide +kernel
  unfold modrmRegs at h
  split at h
  · next hm =>
    simp only [Option.some.injEq, Prod.mk.injEq] at h
    rw [← h.1, ← h.2]
    exact key m.toFin hm
  · simp at h

end Sys2Proof
end

