-- ==== Sys2Proof/Laws/State.lean ====
section
/-! SUPPORT. Laws/State.lean: one lemma per field per update of State, true by rfl, so that no proof unfolds a record update. -/

namespace Sys2Proof.Machine

variable (s : State)

/-! ## setSlot -/

@[simp] theorem State.setSlot_platform (c : Nat) (o : Option HashState) : (s.setSlot c o).platform = s.platform := rfl
@[simp] theorem State.setSlot_argAddr (c : Nat) (o : Option HashState) : (s.setSlot c o).argAddr = s.argAddr := rfl
@[simp] theorem State.setSlot_argLen (c : Nat) (o : Option HashState) : (s.setSlot c o).argLen = s.argLen := rfl
@[simp] theorem State.setSlot_err (c : Nat) (o : Option HashState) : (s.setSlot c o).err = s.err := rfl
@[simp] theorem State.setSlot_ctxSel (c : Nat) (o : Option HashState) : (s.setSlot c o).ctxSel = s.ctxSel := rfl
@[simp] theorem State.setSlot_slots (c : Nat) (o : Option HashState) : (s.setSlot c o).slots = s.slots.set c o := rfl
@[simp] theorem State.setSlot_xmm (c : Nat) (o : Option HashState) : (s.setSlot c o).xmm = s.xmm := rfl
@[simp] theorem State.setSlot_mem (c : Nat) (o : Option HashState) : (s.setSlot c o).mem = s.mem := rfl
@[simp] theorem State.setSlot_pending (c : Nat) (o : Option HashState) : (s.setSlot c o).pending = s.pending := rfl
@[simp] theorem State.setSlot_readData (c : Nat) (o : Option HashState) : (s.setSlot c o).readData = s.readData := rfl
@[simp] theorem State.setSlot_draws (c : Nat) (o : Option HashState) : (s.setSlot c o).draws = s.draws := rfl

/-! ## drawn -/

@[simp] theorem State.drawn_platform : s.drawn.platform = s.platform := rfl
@[simp] theorem State.drawn_argAddr : s.drawn.argAddr = s.argAddr := rfl
@[simp] theorem State.drawn_argLen : s.drawn.argLen = s.argLen := rfl
@[simp] theorem State.drawn_err : s.drawn.err = s.err := rfl
@[simp] theorem State.drawn_ctxSel : s.drawn.ctxSel = s.ctxSel := rfl
@[simp] theorem State.drawn_slots : s.drawn.slots = s.slots := rfl
@[simp] theorem State.drawn_xmm : s.drawn.xmm = s.xmm := rfl
@[simp] theorem State.drawn_mem : s.drawn.mem = s.mem := rfl
@[simp] theorem State.drawn_pending : s.drawn.pending = s.pending := rfl
@[simp] theorem State.drawn_readData : s.drawn.readData = s.readData := rfl
@[simp] theorem State.drawn_draws : s.drawn.draws = s.draws + 1 := rfl

/-! ## raiseFault -/

@[simp] theorem State.raiseFault_platform (code : FaultCode) (op : BitVec 4) (ctx : BitVec 8) : (s.raiseFault code op ctx).platform = s.platform := rfl
@[simp] theorem State.raiseFault_argAddr (code : FaultCode) (op : BitVec 4) (ctx : BitVec 8) : (s.raiseFault code op ctx).argAddr = s.argAddr := rfl
@[simp] theorem State.raiseFault_argLen (code : FaultCode) (op : BitVec 4) (ctx : BitVec 8) : (s.raiseFault code op ctx).argLen = s.argLen := rfl
@[simp] theorem State.raiseFault_err (code : FaultCode) (op : BitVec 4) (ctx : BitVec 8) : (s.raiseFault code op ctx).err = s.err.record code op ctx := rfl
@[simp] theorem State.raiseFault_ctxSel (code : FaultCode) (op : BitVec 4) (ctx : BitVec 8) : (s.raiseFault code op ctx).ctxSel = s.ctxSel := rfl
@[simp] theorem State.raiseFault_slots (code : FaultCode) (op : BitVec 4) (ctx : BitVec 8) : (s.raiseFault code op ctx).slots = s.slots := rfl
@[simp] theorem State.raiseFault_xmm (code : FaultCode) (op : BitVec 4) (ctx : BitVec 8) : (s.raiseFault code op ctx).xmm = s.xmm := rfl
@[simp] theorem State.raiseFault_mem (code : FaultCode) (op : BitVec 4) (ctx : BitVec 8) : (s.raiseFault code op ctx).mem = s.mem := rfl
@[simp] theorem State.raiseFault_pending (code : FaultCode) (op : BitVec 4) (ctx : BitVec 8) : (s.raiseFault code op ctx).pending = s.pending := rfl
@[simp] theorem State.raiseFault_readData (code : FaultCode) (op : BitVec 4) (ctx : BitVec 8) : (s.raiseFault code op ctx).readData = s.readData := rfl
@[simp] theorem State.raiseFault_draws (code : FaultCode) (op : BitVec 4) (ctx : BitVec 8) : (s.raiseFault code op ctx).draws = s.draws := rfl

/-! ## ackFault -/

@[simp] theorem State.ackFault_platform (w : Word) : (s.ackFault w).platform = s.platform := rfl
@[simp] theorem State.ackFault_argAddr (w : Word) : (s.ackFault w).argAddr = s.argAddr := rfl
@[simp] theorem State.ackFault_argLen (w : Word) : (s.ackFault w).argLen = s.argLen := rfl
@[simp] theorem State.ackFault_err (w : Word) : (s.ackFault w).err = s.err.ack w := rfl
@[simp] theorem State.ackFault_ctxSel (w : Word) : (s.ackFault w).ctxSel = s.ctxSel := rfl
@[simp] theorem State.ackFault_slots (w : Word) : (s.ackFault w).slots = s.slots := rfl
@[simp] theorem State.ackFault_xmm (w : Word) : (s.ackFault w).xmm = s.xmm := rfl
@[simp] theorem State.ackFault_mem (w : Word) : (s.ackFault w).mem = s.mem := rfl
@[simp] theorem State.ackFault_pending (w : Word) : (s.ackFault w).pending = s.pending := rfl
@[simp] theorem State.ackFault_readData (w : Word) : (s.ackFault w).readData = s.readData := rfl
@[simp] theorem State.ackFault_draws (w : Word) : (s.ackFault w).draws = s.draws := rfl

/-! ## setReg -/

@[simp] theorem State.setReg_platform (d : XReg) (v : Vec) : (s.setReg d v).platform = s.platform := rfl
@[simp] theorem State.setReg_argAddr (d : XReg) (v : Vec) : (s.setReg d v).argAddr = s.argAddr := rfl
@[simp] theorem State.setReg_argLen (d : XReg) (v : Vec) : (s.setReg d v).argLen = s.argLen := rfl
@[simp] theorem State.setReg_err (d : XReg) (v : Vec) : (s.setReg d v).err = s.err := rfl
@[simp] theorem State.setReg_ctxSel (d : XReg) (v : Vec) : (s.setReg d v).ctxSel = s.ctxSel := rfl
@[simp] theorem State.setReg_slots (d : XReg) (v : Vec) : (s.setReg d v).slots = s.slots := rfl
@[simp] theorem State.setReg_xmm (d : XReg) (v : Vec) : (s.setReg d v).xmm = s.xmm.set d v := rfl
@[simp] theorem State.setReg_mem (d : XReg) (v : Vec) : (s.setReg d v).mem = s.mem := rfl
@[simp] theorem State.setReg_pending (d : XReg) (v : Vec) : (s.setReg d v).pending = s.pending := rfl
@[simp] theorem State.setReg_readData (d : XReg) (v : Vec) : (s.setReg d v).readData = s.readData := rfl
@[simp] theorem State.setReg_draws (d : XReg) (v : Vec) : (s.setReg d v).draws = s.draws := rfl

/-! ## returns -/

@[simp] theorem State.returns_platform (v : Word) : (s.returns v).platform = s.platform := rfl
@[simp] theorem State.returns_argAddr (v : Word) : (s.returns v).argAddr = s.argAddr := rfl
@[simp] theorem State.returns_argLen (v : Word) : (s.returns v).argLen = s.argLen := rfl
@[simp] theorem State.returns_err (v : Word) : (s.returns v).err = s.err := rfl
@[simp] theorem State.returns_ctxSel (v : Word) : (s.returns v).ctxSel = s.ctxSel := rfl
@[simp] theorem State.returns_slots (v : Word) : (s.returns v).slots = s.slots := rfl
@[simp] theorem State.returns_xmm (v : Word) : (s.returns v).xmm = s.xmm := rfl
@[simp] theorem State.returns_mem (v : Word) : (s.returns v).mem = s.mem := rfl
@[simp] theorem State.returns_pending (v : Word) : (s.returns v).pending = s.pending := rfl
@[simp] theorem State.returns_readData (v : Word) : (s.returns v).readData = v := rfl
@[simp] theorem State.returns_draws (v : Word) : (s.returns v).draws = s.draws := rfl

/-! ## withArgs -/

@[simp] theorem State.withArgs_platform (addr len : DWord) : (s.withArgs addr len).platform = s.platform := rfl
@[simp] theorem State.withArgs_argAddr (addr len : DWord) : (s.withArgs addr len).argAddr = addr := rfl
@[simp] theorem State.withArgs_argLen (addr len : DWord) : (s.withArgs addr len).argLen = len := rfl
@[simp] theorem State.withArgs_err (addr len : DWord) : (s.withArgs addr len).err = s.err := rfl
@[simp] theorem State.withArgs_ctxSel (addr len : DWord) : (s.withArgs addr len).ctxSel = s.ctxSel := rfl
@[simp] theorem State.withArgs_slots (addr len : DWord) : (s.withArgs addr len).slots = s.slots := rfl
@[simp] theorem State.withArgs_xmm (addr len : DWord) : (s.withArgs addr len).xmm = s.xmm := rfl
@[simp] theorem State.withArgs_mem (addr len : DWord) : (s.withArgs addr len).mem = s.mem := rfl
@[simp] theorem State.withArgs_pending (addr len : DWord) : (s.withArgs addr len).pending = s.pending := rfl
@[simp] theorem State.withArgs_readData (addr len : DWord) : (s.withArgs addr len).readData = s.readData := rfl
@[simp] theorem State.withArgs_draws (addr len : DWord) : (s.withArgs addr len).draws = s.draws := rfl

/-! ## clobberXmm -/

@[simp] theorem State.clobberXmm_platform : s.clobberXmm.platform = s.platform := rfl
@[simp] theorem State.clobberXmm_argAddr : s.clobberXmm.argAddr = s.argAddr := rfl
@[simp] theorem State.clobberXmm_argLen : s.clobberXmm.argLen = s.argLen := rfl
@[simp] theorem State.clobberXmm_err : s.clobberXmm.err = s.err := rfl
@[simp] theorem State.clobberXmm_ctxSel : s.clobberXmm.ctxSel = s.ctxSel := rfl
@[simp] theorem State.clobberXmm_slots : s.clobberXmm.slots = s.slots := rfl
@[simp] theorem State.clobberXmm_xmm : s.clobberXmm.xmm = freeXmm s.draws := rfl
@[simp] theorem State.clobberXmm_mem : s.clobberXmm.mem = s.mem := rfl
@[simp] theorem State.clobberXmm_pending : s.clobberXmm.pending = s.pending := rfl
@[simp] theorem State.clobberXmm_readData : s.clobberXmm.readData = s.readData := rfl
@[simp] theorem State.clobberXmm_draws : s.clobberXmm.draws = s.draws + 1 := rfl

end Sys2Proof.Machine
end

