-- ==== Sys2Proof/Laws/Memory.lean ====
section
/-! SUPPORT. Laws/Memory.lean: what reading after writing gives, for every memory, and that every operation keeps the
canonical form. -/

namespace Sys2Proof.Machine

/-! ## Reading after writing -/

theorem Memory.read_insert (a : Nat) (b : Byte) (m : Memory) (h : ∀ cell ∈ m, cell.1 ≠ a) (k : Nat) :
    Memory.read (Memory.insert a b m) k = if k = a then b else m.read k := by
  induction m with
  | nil =>
    by_cases hk : k = a
    · simp [Memory.insert, Memory.read, hk]
    · simp [Memory.insert, Memory.read, hk, Ne.symm hk]
  | cons cell rest ih =>
    have hc : cell.1 ≠ a := h cell (by simp)
    have hr := ih fun x hx => h x (by simp [hx])
    unfold Memory.insert
    split
    · by_cases hk : k = a
      · simp [Memory.read, hk]
      · simp [Memory.read, hk, Ne.symm hk]
    · by_cases hk : k = a
      · subst hk; simp [Memory.read, hc, hr]
      · by_cases hx : cell.1 = k
        · simp [Memory.read, hx, hk]
        · simp [Memory.read, hx, hk, hr]

theorem Memory.read_filter (a : Nat) (m : Memory) (k : Nat) :
    Memory.read (m.filter fun cell => cell.1 != a) k = if k = a then Config.blankByte else m.read k := by
  induction m with
  | nil => simp [Memory.read]
  | cons cell rest ih =>
    by_cases hc : cell.1 = a
    · have : (cell :: rest).filter (fun cell => cell.1 != a) = rest.filter fun cell => cell.1 != a := by simp [hc]
      rw [this, ih]
      by_cases hk : k = a
      · simp [hk]
      · simp [hk, Memory.read, hc, Ne.symm hk]
    · have : (cell :: rest).filter (fun cell => cell.1 != a) = cell :: rest.filter fun cell => cell.1 != a := by
        simp [hc]
      rw [this, Memory.read, ih]
      by_cases hk : k = a
      · subst hk; simp [hc]
      · simp [Memory.read, hk]

/-- A byte reads as the last byte written to its address, and no write changes what another address reads as. -/
theorem Memory.read_write (m : Memory) (a : Nat) (b : Byte) (k : Nat) :
    (m.write a b).read k = if k = a then b else m.read k := by
  unfold Memory.write
  split
  · next hb => rw [Memory.read_filter]; simp [hb]
  · rw [Memory.read_insert _ _ _ (by simp)]
    by_cases hk : k = a
    · simp [hk]
    · simp [hk, Memory.read_filter]

@[simp] theorem Memory.read_write_same (m : Memory) (a : Nat) (b : Byte) : (m.write a b).read a = b := by
  simp [Memory.read_write]

theorem Memory.read_write_other (m : Memory) (a : Nat) (b : Byte) {k : Nat} (h : k ≠ a) :
    (m.write a b).read k = m.read k := by
  simp [Memory.read_write, h]

/-- After a run of bytes is written, an address inside it reads as its byte and every other as before. -/
theorem Memory.read_writeBytes (bs : List Byte) (m : Memory) (a k : Nat) :
    (m.writeBytes a bs).read k = if a ≤ k ∧ k < a + bs.length then bs.getD (k - a) 0#8 else m.read k := by
  induction bs generalizing m a with
  | nil => simp [Memory.writeBytes]
  | cons b bs ih =>
    rw [Memory.writeBytes, ih, Memory.read_write]
    by_cases h1 : a + 1 ≤ k ∧ k < a + 1 + bs.length
    · have h2 : a ≤ k ∧ k < a + (b :: bs).length := by simp; omega
      have h3 : k - a = (k - (a + 1)) + 1 := by omega
      rw [if_pos h1, if_pos h2, h3, List.getD_cons_succ]
    · rw [if_neg h1]
      by_cases h2 : k = a
      · subst h2; simp
      · have h3 : ¬ (a ≤ k ∧ k < a + (b :: bs).length) := by simp at h1 ⊢; omega
        rw [if_neg h2, if_neg h3]

@[simp] theorem Memory.length_readBytes (m : Memory) (a n : Nat) : (m.readBytes a n).length = n := by
  simp [Memory.readBytes]

theorem Memory.readBytes_add (m : Memory) (a n k : Nat) :
    m.readBytes a (n + k) = m.readBytes a n ++ m.readBytes (a + n) k := by
  simp [Memory.readBytes, List.range_add, Nat.add_assoc]

/-- What a run of bytes reads as just after it is written. -/
theorem Memory.readBytes_writeBytes (m : Memory) (a : Nat) (bs : List Byte) :
    (m.writeBytes a bs).readBytes a bs.length = bs := by
  apply List.ext_getElem (by simp)
  intro i h1 h2
  simp [Memory.readBytes, Memory.read_writeBytes, h2]

/-! ## The canonical form -/

theorem Memory.wf_iff (m : Memory) :
    m.wf = true ↔ m.Pairwise (fun x y => x.1 < y.1) ∧ ∀ cell ∈ m, cell.1 < Config.addrSpace ∧ cell.2 ≠ Config.blankByte := by
  simp [Memory.wf]

theorem Memory.mem_insert {a : Nat} {b : Byte} {m : Memory} {x : Host.Cell} :
    x ∈ Memory.insert a b m ↔ x = (a, b) ∨ x ∈ m := by
  induction m with
  | nil => simp [Memory.insert]
  | cons cell rest ih =>
    unfold Memory.insert
    split
    · simp
    · simp [ih]; tauto

theorem Memory.pairwise_insert {a : Nat} {b : Byte} {m : Memory} (hm : m.Pairwise fun x y => x.1 < y.1)
    (ha : ∀ cell ∈ m, cell.1 ≠ a) : (Memory.insert a b m).Pairwise fun x y => x.1 < y.1 := by
  induction m with
  | nil => simp [Memory.insert]
  | cons cell rest ih =>
    rw [List.pairwise_cons] at hm
    unfold Memory.insert
    split
    · next hlt =>
      refine List.pairwise_cons.2 ⟨?_, List.pairwise_cons.2 hm⟩
      intro x hx
      rcases List.mem_cons.1 hx with rfl | hx
      · exact hlt
      · exact Nat.lt_trans hlt (hm.1 x hx)
    · next hle =>
      refine List.pairwise_cons.2 ⟨?_, ih hm.2 fun x hx => ha x (by simp [hx])⟩
      intro x hx
      rcases Memory.mem_insert.1 hx with rfl | hx
      · have := ha cell (by simp)
        show cell.1 < a
        omega
      · exact hm.1 x hx

/-- A write inside the address space keeps the canonical form. -/
theorem Memory.wf_write {m : Memory} (hm : m.wf = true) {a : Nat} (b : Byte) (ha : a < Config.addrSpace) :
    (m.write a b).wf = true := by
  rw [Memory.wf_iff] at hm ⊢
  have hf : (m.filter fun cell => cell.1 != a).Pairwise fun x y => x.1 < y.1 := hm.1.filter _
  unfold Memory.write
  split
  · exact ⟨hf, fun x hx => hm.2 x (List.mem_filter.1 hx).1⟩
  · next hb =>
    refine ⟨Memory.pairwise_insert hf (by simp), fun x hx => ?_⟩
    rcases Memory.mem_insert.1 hx with rfl | hx
    · exact ⟨ha, hb⟩
    · exact hm.2 x (List.mem_filter.1 hx).1

/-- A run of bytes inside the address space keeps the canonical form. -/
theorem Memory.wf_writeBytes (bs : List Byte) {m : Memory} (hm : m.wf = true) {a : Nat}
    (ha : a + bs.length ≤ Config.addrSpace) : (m.writeBytes a bs).wf = true := by
  induction bs generalizing m a with
  | nil => exact hm
  | cons b bs ih =>
    simp only [List.length_cons] at ha
    exact ih (Memory.wf_write hm b (by omega)) (by omega)

theorem Memory.wf_nil : Memory.wf [] = true := by decide

/-- In a canonical memory the cells are the addresses that do not read as an unlisted one, each with what it reads as. -/
theorem Memory.mem_iff_read {m : Memory} (hm : m.wf = true) (a : Nat) (b : Byte) :
    (a, b) ∈ m ↔ m.read a = b ∧ b ≠ Config.blankByte := by
  rw [Memory.wf_iff] at hm
  induction m with
  | nil => simp [Memory.read, eq_comm]
  | cons cell rest ih =>
    obtain ⟨k, v⟩ := cell
    have hp := List.pairwise_cons.1 hm.1
    have hr := ih ⟨hp.2, fun x hx => hm.2 x (by simp [hx])⟩
    by_cases hk : k = a
    · subst hk
      have hv := (hm.2 (k, v) (by simp)).2
      have hn : (k, b) ∉ rest := fun hx => absurd (hp.1 _ hx) (by simp)
      simp only [Memory.read, List.mem_cons, Prod.mk.injEq, true_and, hn, or_false, if_true]
      exact ⟨fun h => ⟨h.symm, h ▸ hv⟩, fun h => h.1.symm⟩
    · simp [Memory.read, hk, Ne.symm hk, hr]

/-- Two canonical memories that read alike at every address are the same data. -/
theorem Memory.eq_of_read {m m' : Memory} (hm : m.wf = true) (hm' : m'.wf = true) (h : ∀ a, m.read a = m'.read a) :
    m = m' := by
  have hmem : ∀ x : Host.Cell, x ∈ m ↔ x ∈ m' := fun ⟨a, b⟩ => by
    rw [Memory.mem_iff_read hm, Memory.mem_iff_read hm', h]
  have hp := ((Memory.wf_iff m).1 hm).1
  have hp' := ((Memory.wf_iff m').1 hm').1
  have hnd : m.Nodup := hp.imp fun hlt he => by subst he; omega
  have hnd' : m'.Nodup := hp'.imp fun hlt he => by subst he; omega
  exact ((List.perm_ext_iff_of_nodup hnd hnd').2 hmem).eq_of_pairwise
    (fun a b _ _ h1 h2 => absurd h1 (by omega)) hp hp'

end Sys2Proof.Machine
end

