-- ==== Sys2Proof/Laws/Operations.lean ====
section
/-! SUPPORT. Laws/Operations.lean: for each shared operation, once, everything it can do: reading a slot or a register after
a write, the checks that stand before a command, the fault record, and filling the partial block. -/

namespace Sys2Proof.Machine

/-! ## Slots and registers -/

@[simp] theorem State.nCtx_setSlot (s : State) (c : Nat) (o : Option HashState) : (s.setSlot c o).nCtx = s.nCtx := by
  simp [State.nCtx]

@[simp] theorem State.nCtx_raiseFault (s : State) (code : FaultCode) (op : BitVec 4) (ctx : BitVec 8) :
    (s.raiseFault code op ctx).nCtx = s.nCtx := rfl

@[simp] theorem State.slot_raiseFault (s : State) (code : FaultCode) (op : BitVec 4) (ctx : BitVec 8) (k : Nat) :
    (s.raiseFault code op ctx).slot k = s.slot k := rfl

/-- A slot written reads as written when the engine has it, and no other slot changes. -/
theorem State.slot_setSlot (s : State) (c : Nat) (o : Option HashState) (k : Nat) :
    (s.setSlot c o).slot k = if k = c ∧ c < s.nCtx then o else s.slot k := by
  simp only [State.slot, State.setSlot_slots, State.nCtx, List.getD_eq_getElem?_getD, List.getElem?_set]
  by_cases hk : c = k
  · subst hk
    by_cases hc : c < s.slots.length
    · simp [hc]
    · simp [hc]
  · simp [hk, Ne.symm hk]

/-- A slot in use has a number below N_CTX. -/
theorem State.lt_of_slot {s : State} {c : Nat} {x : HashState} (h : s.slot c = some x) : c < s.nCtx := by
  rcases Nat.lt_or_ge c s.nCtx with hc | hc
  · exact hc
  · simp only [State.nCtx] at hc
    simp [State.slot, List.getD_eq_getElem?_getD, hc] at h

/-- A slot that is in use stands in the list. -/
theorem State.mem_of_slot {s : State} {c : Nat} {x : HashState} (h : s.slot c = some x) : some x ∈ s.slots := by
  have hc : c < s.slots.length := State.lt_of_slot h
  rw [State.slot, List.getD_eq_getElem?_getD, List.getElem?_eq_getElem hc, Option.getD_some] at h
  exact h ▸ List.getElem_mem hc

/-- Slot writes to different slots commute. -/
theorem State.setSlot_comm (s : State) {c k : Nat} (o p : Option HashState) (h : c ≠ k) :
    (s.setSlot c o).setSlot k p = (s.setSlot k p).setSlot c o := by
  simp [State.setSlot, List.set_comm _ _ h]

/-- A register written reads as written, and no other register changes. -/
theorem State.reg_setReg (s : State) (d : XReg) (v : Vec) (k : XReg) :
    (s.setReg d v).reg k = if k = d then v else s.reg k := by
  by_cases h : k = d
  · subst h; simp [State.reg]
  · have hv : d.val ≠ k.val := fun e => h (Fin.ext e.symm)
    simp [State.reg, h, hv]

/-! ## The checks before a command -/

/-- The capability and index checks: a fault, or what follows them. -/
theorem State.atSlot_cases (s : State) (op : BitVec 4) (c : Nat) (go : Unit → State) :
    (s.platform.hasShaExt = false ∧ s.atSlot op c go = s.raiseFault .unavailable op (BitVec.ofNat 8 c)) ∨
    (s.platform.hasShaExt = true ∧ s.nCtx ≤ c ∧ s.atSlot op c go = s.raiseFault .badCtx op (BitVec.ofNat 8 c)) ∨
    (s.platform.hasShaExt = true ∧ c < s.nCtx ∧ s.atSlot op c go = go ()) := by
  unfold State.atSlot
  cases he : s.platform.hasShaExt
  · simp
  · rcases Nat.lt_or_ge c s.nCtx with hc | hc
    · simp [hc, Nat.not_le.2 hc]
    · simp [hc]

theorem State.atSlot_go {s : State} {op : BitVec 4} {c : Nat} {go : Unit → State} (he : s.platform.hasShaExt = true)
    (hc : c < s.nCtx) : s.atSlot op c go = go () := by
  simp [State.atSlot, he, Nat.not_le.2 hc]

/-- The FREE check: a fault, or what follows it with the slot's fields. -/
theorem State.inUse_cases (s : State) (op : BitVec 4) (c : Nat) (go : HashState → State) :
    (s.slot c = none ∧ s.inUse op c go = s.raiseFault .notInit op (BitVec.ofNat 8 c)) ∨
    (∃ x, s.slot c = some x ∧ s.inUse op c go = go x) := by
  unfold State.inUse
  cases s.slot c <;> simp

theorem State.inUse_free {s : State} {op : BitVec 4} {c : Nat} {go : HashState → State} (h : s.slot c = none) :
    s.inUse op c go = s.raiseFault .notInit op (BitVec.ofNat 8 c) := by
  simp [State.inUse, h]

theorem State.inUse_go {s : State} {op : BitVec 4} {c : Nat} {x : HashState} {go : HashState → State}
    (h : s.slot c = some x) : s.inUse op c go = go x := by
  simp [State.inUse, h]

/-- The lifecycle checks: one of two faults, or what follows them with the slot's fields. -/
theorem State.unfinished_cases (s : State) (op : BitVec 4) (c : Nat) (go : HashState → State) :
    (s.slot c = none ∧ s.unfinished op c go = s.raiseFault .notInit op (BitVec.ofNat 8 c)) ∨
    (∃ x, s.slot c = some x ∧ x.life = .finalized ∧
      s.unfinished op c go = s.raiseFault .finalized op (BitVec.ofNat 8 c)) ∨
    (∃ x, s.slot c = some x ∧ x.life ≠ .finalized ∧ s.unfinished op c go = go x) := by
  unfold State.unfinished
  rcases s.inUse_cases op c (fun x => if x.life = .finalized then s.raiseFault .finalized op (BitVec.ofNat 8 c) else go x)
    with ⟨h, e⟩ | ⟨x, h, e⟩
  · exact .inl ⟨h, e⟩
  · by_cases hl : x.life = .finalized
    · exact .inr (.inl ⟨x, h, hl, by rw [e, if_pos hl]⟩)
    · exact .inr (.inr ⟨x, h, hl, by rw [e, if_neg hl]⟩)

theorem State.unfinished_go {s : State} {op : BitVec 4} {c : Nat} {x : HashState} {go : HashState → State}
    (h : s.slot c = some x) (hl : x.life ≠ .finalized) : s.unfinished op c go = go x := by
  simp [State.unfinished, State.inUse, h, hl]

/-- The admission check: a fault, or what follows it. -/
theorem State.withRange_cases (s : State) (op : BitVec 4) (c : Nat) (kind : AccessKind) (a n : Nat) (go : Unit → State) :
    (s.platform.admitted kind a n = false ∧ s.withRange op c kind a n go = s.raiseFault .bus op (BitVec.ofNat 8 c)) ∨
    (s.platform.admitted kind a n = true ∧ s.withRange op c kind a n go = go ()) := by
  unfold State.withRange
  cases s.platform.admitted kind a n <;> simp

/-! ## The fault record -/

/-- The number of a fault code is one of 1 to 7 (R250). -/
theorem FaultCode.number_range (code : FaultCode) : 1 ≤ code.number.toNat ∧ code.number.toNat ≤ 7 := by
  cases code <;> decide

theorem ErrReg.record_valid (e : ErrReg) (code : FaultCode) (op : BitVec 4) (ctx : BitVec 8) :
    (e.record code op ctx).valid = true := by
  unfold ErrReg.record
  split <;> simp_all

/-! ## The partial block -/

/-- Filling replaces the bytes from place `p` on, as many as are given, and no other. -/
theorem toList_fill (bs : List Byte) (buf : Vector Byte 64) (p : Nat) (h : p + bs.length ≤ 64) :
    (fill buf p bs).toList = buf.toList.take p ++ bs ++ buf.toList.drop (p + bs.length) := by
  induction bs generalizing buf p with
  | nil => simp [fill]
  | cons b bs ih =>
    simp only [List.length_cons] at h
    rw [fill, ih _ _ (by omega)]
    have hl : p < buf.toList.length := by simp; omega
    have hs : (buf.setIfInBounds p b).toList = buf.toList.set p b := by simp [Vector.toList]
    have ht : (buf.toList.set p b).take (p + 1) = buf.toList.take p ++ [b] := by
      rw [List.take_succ_eq_append_getElem (by simpa using hl), List.getElem_set_self, List.take_set_of_le (Nat.le_refl p)]
    have hd : (buf.toList.set p b).drop (p + 1 + bs.length) = buf.toList.drop (p + 1 + bs.length) :=
      List.drop_set_of_lt (by omega)
    have e : p + 1 + bs.length = p + (b :: bs).length := by simp; omega
    rw [hs, ht, hd, e, List.append_assoc, List.append_assoc, List.append_assoc]
    rfl

/-! ## Whole blocks -/

/-- Blocks compressed one after the other: first `n`, then `k`. -/
theorem compressBlocks_add (alg : Alg) (n k : Nat) (h : Vector Word 8) (d : List Byte) :
    compressBlocks alg (n + k) h d = compressBlocks alg k (compressBlocks alg n h d) (d.drop (64 * n)) := by
  induction n generalizing h d with
  | zero => simp [compressBlocks]
  | succ n ih =>
    rw [Nat.succ_add, compressBlocks, ih, compressBlocks, List.drop_drop, Nat.mul_succ, Nat.add_comm 64]

/-- Only the bytes of the blocks matter. -/
theorem compressBlocks_take (alg : Alg) (n : Nat) (h : Vector Word 8) (d e : List Byte) (hn : 64 * n ≤ d.length) :
    compressBlocks alg n h (d ++ e) = compressBlocks alg n h d := by
  induction n generalizing h d with
  | zero => rfl
  | succ n ih =>
    rw [compressBlocks, compressBlocks, List.take_append_of_le_length (by omega), List.drop_append_of_le_length (by omega),
      ih _ _ (by simp; omega)]

/-- The transform on host memory is the transform of the bytes read (R170). -/
theorem transform_eq (m : Memory) (alg : Alg) (n : Nat) (h : Vector Word 8) (a : Nat) :
    transform m alg n h a = compressBlocks alg n h (m.readBytes a (64 * n)) := by
  induction n generalizing h a with
  | zero => rfl
  | succ n ih =>
    have e : 64 * (n + 1) = 64 + 64 * n := by omega
    rw [transform, ih, compressBlocks, e, Memory.readBytes_add, List.take_left' (by simp), List.drop_left' (by simp)]

/-- SHA-1 leaves H[5], H[6] and H[7] alone (R126, R171). -/
theorem compress_sha1_high (h : Vector Word 8) (blk : List Byte) :
    (compress .sha1 h blk)[5] = h[5] ∧ (compress .sha1 h blk)[6] = h[6] ∧ (compress .sha1 h blk)[7] = h[7] :=
  ⟨rfl, rfl, rfl⟩

/-- SHA-224 uses the SHA-256 compression unchanged (R125). -/
theorem compress_sha224 : compress .sha224 = compress .sha256 := by
  funext h b; rfl

end Sys2Proof.Machine
end

