-- ==== Sys2Proof/Laws/PerInstr.lean ====
section
/-! SUPPORT. Laws/PerInstr.lean: the statement made of every instruction, one lemma per constructor. -/

namespace Sys2Proof.Laws.Fields

/-- The encoding has the fields of its row: a command word carries the row's OP and the slot in CTX, its reserved fields are
zero, and SRC is zero but for CLONE (R80 to R85); a primitive is four to six bytes, and the model's encoder gives it no
command word (R91). -/
def Statement (i : Instr) : Prop :=
  match encode i with
  | .command w => ∃ op c, i.command = some (op, c) ∧ fieldOp w = op ∧ fieldCtx w = BitVec.ofNat 8 c ∧
      fieldRsv0 w = 0#2 ∧ fieldRsv1 w = 0#8 ∧ (fieldSrc w = 0#8 ∨ ∃ src, i = .clone c src ∧ fieldSrc w = BitVec.ofNat 8 src)
  | .primitive bytes => i.command = none ∧ 4 ≤ bytes.length ∧ bytes.length ≤ 6

theorem initSha1 (c : Nat) : Statement (.initSha1 c) :=
  have h := commandWord_fields 1#4 0#2 c 0
  ⟨_, _, rfl, h.1, h.2.2.2.1, h.2.2.1, h.2.2.2.2.2, .inl h.2.2.2.2.1⟩

theorem initSha256 (c : Nat) : Statement (.initSha256 c) :=
  have h := commandWord_fields 1#4 1#2 c 0
  ⟨_, _, rfl, h.1, h.2.2.2.1, h.2.2.1, h.2.2.2.2.2, .inl h.2.2.2.2.1⟩

theorem initSha224 (c : Nat) : Statement (.initSha224 c) :=
  have h := commandWord_fields 1#4 2#2 c 0
  ⟨_, _, rfl, h.1, h.2.2.2.1, h.2.2.1, h.2.2.2.2.2, .inl h.2.2.2.2.1⟩

theorem update (c : Nat) : Statement (.update c) :=
  have h := commandWord_fields 2#4 0#2 c 0
  ⟨_, _, rfl, h.1, h.2.2.2.1, h.2.2.1, h.2.2.2.2.2, .inl h.2.2.2.2.1⟩

theorem final (c : Nat) : Statement (.final c) :=
  have h := commandWord_fields 3#4 0#2 c 0
  ⟨_, _, rfl, h.1, h.2.2.2.1, h.2.2.1, h.2.2.2.2.2, .inl h.2.2.2.2.1⟩

theorem clone (c src : Nat) : Statement (.clone c src) :=
  have h := commandWord_fields 4#4 0#2 c src
  ⟨_, _, rfl, h.1, h.2.2.2.1, h.2.2.1, h.2.2.2.2.2, .inr ⟨src, rfl, h.2.2.2.2.1⟩⟩

theorem reset (c : Nat) : Statement (.reset c) :=
  have h := commandWord_fields 5#4 0#2 c 0
  ⟨_, _, rfl, h.1, h.2.2.2.1, h.2.2.1, h.2.2.2.2.2, .inl h.2.2.2.2.1⟩

theorem release (c : Nat) : Statement (.release c) :=
  have h := commandWord_fields 6#4 0#2 c 0
  ⟨_, _, rfl, h.1, h.2.2.2.1, h.2.2.1, h.2.2.2.2.2, .inl h.2.2.2.2.1⟩

theorem xform (c : Nat) : Statement (.xform c) :=
  have h := commandWord_fields 7#4 0#2 c 0
  ⟨_, _, rfl, h.1, h.2.2.2.1, h.2.2.1, h.2.2.2.2.2, .inl h.2.2.2.2.1⟩

theorem sha1rnds4 (d r : XReg) (imm : Byte) : Statement (.sha1rnds4 d r imm) := by simp [Statement, encode, Instr.command]

theorem sha1nexte (d r : XReg) : Statement (.sha1nexte d r) := by simp [Statement, encode, Instr.command]

theorem sha1msg1 (d r : XReg) : Statement (.sha1msg1 d r) := by simp [Statement, encode, Instr.command]

theorem sha1msg2 (d r : XReg) : Statement (.sha1msg2 d r) := by simp [Statement, encode, Instr.command]

theorem sha256rnds2 (d r : XReg) : Statement (.sha256rnds2 d r) := by simp [Statement, encode, Instr.command]

theorem sha256msg1 (d r : XReg) : Statement (.sha256msg1 d r) := by simp [Statement, encode, Instr.command]

theorem sha256msg2 (d r : XReg) : Statement (.sha256msg2 d r) := by simp [Statement, encode, Instr.command]

theorem pshufb (d r : XReg) : Statement (.pshufb d r) := by simp [Statement, encode, Instr.command]

theorem pshufd (d r : XReg) (imm : Byte) : Statement (.pshufd d r imm) := by simp [Statement, encode, Instr.command]

theorem palignr (d r : XReg) (imm : Byte) : Statement (.palignr d r imm) := by simp [Statement, encode, Instr.command]

theorem paddd (d r : XReg) : Statement (.paddd d r) := by simp [Statement, encode, Instr.command]

theorem pxor (d r : XReg) : Statement (.pxor d r) := by simp [Statement, encode, Instr.command]

theorem pblendw (d r : XReg) (imm : Byte) : Statement (.pblendw d r imm) := by simp [Statement, encode, Instr.command]

end Sys2Proof.Laws.Fields
end

