-- ==== Sys2Proof/Laws/Vectors.lean ====
section
/-! SUPPORT. Laws/Vectors.lean: a vector is its lanes, its bytes and its 16-bit words. -/

namespace Sys2Proof.Machine

/-! ## Lanes -/

theorem getLsbD_vec (l3 l2 l1 l0 : Word) (i : Nat) :
    (vec l3 l2 l1 l0).getLsbD i =
      if i < 32 then l0.getLsbD i else if i < 64 then l1.getLsbD (i - 32)
      else if i < 96 then l2.getLsbD (i - 64) else l3.getLsbD (i - 96) := by
  have h : (vec l3 l2 l1 l0).getLsbD i = BitVec.getLsbD (w := 32 + 32 + 32 + 32) (l3 ++ l2 ++ l1 ++ l0) i := rfl
  rw [h, BitVec.getLsbD_append, BitVec.getLsbD_append, BitVec.getLsbD_append]
  by_cases h0 : i < 32
  · simp [h0]
  · by_cases h1 : i < 64
    · have : i - 32 < 32 := by omega
      simp [h0, h1, this]
    · by_cases h2 : i < 96
      · have e1 : ¬ i - 32 < 32 := by omega
        have e2 : i - 32 - 32 < 32 := by omega
        have e3 : i - 32 - 32 = i - 64 := by omega
        simp [h0, h1, h2, e1, e3 ▸ e2, e3]
      · have e1 : ¬ i - 32 < 32 := by omega
        have e2 : ¬ i - 64 < 32 := by omega
        have e3 : i - 32 - 32 = i - 64 := by omega
        have e4 : i - 64 - 32 = i - 96 := by omega
        simp [h0, h1, h2, e1, e2, e3, e4]

theorem getLsbD_lane (x : Vec) (k i : Nat) : (lane x k).getLsbD i = (decide (i < 32) && x.getLsbD (32 * k + i)) := by
  simp [lane]

@[simp] theorem lane_vec_0 (l3 l2 l1 l0 : Word) : lane (vec l3 l2 l1 l0) 0 = l0 := by
  apply BitVec.eq_of_getLsbD_eq; intro i hi
  rw [getLsbD_lane, getLsbD_vec]
  simp [hi]

@[simp] theorem lane_vec_1 (l3 l2 l1 l0 : Word) : lane (vec l3 l2 l1 l0) 1 = l1 := by
  apply BitVec.eq_of_getLsbD_eq; intro i hi
  have : 32 + i < 64 := by omega
  rw [getLsbD_lane, getLsbD_vec]
  simp [hi, this]

@[simp] theorem lane_vec_2 (l3 l2 l1 l0 : Word) : lane (vec l3 l2 l1 l0) 2 = l2 := by
  apply BitVec.eq_of_getLsbD_eq; intro i hi
  have h1 : ¬ 64 + i < 32 := by omega
  have h2 : 64 + i < 96 := by omega
  rw [getLsbD_lane, getLsbD_vec]
  simp [hi, h1, h2]

@[simp] theorem lane_vec_3 (l3 l2 l1 l0 : Word) : lane (vec l3 l2 l1 l0) 3 = l3 := by
  apply BitVec.eq_of_getLsbD_eq; intro i hi
  have h1 : ¬ 96 + i < 32 := by omega
  have h2 : ¬ 96 + i < 64 := by omega
  rw [getLsbD_lane, getLsbD_vec]
  simp [hi, h1, h2]

/-- A vector is the vector of its lanes. -/
theorem vec_lanes (x : Vec) : vec (lane x 3) (lane x 2) (lane x 1) (lane x 0) = x := by
  apply BitVec.eq_of_getLsbD_eq; intro i hi
  have hb (k j : Nat) (hj : j < 32) (e : 32 * k + j = i) : (lane x k).getLsbD j = x.getLsbD i := by
    rw [getLsbD_lane, e]; simp [hj]
  rw [getLsbD_vec]
  split_ifs <;> exact hb _ _ (by omega) (by omega)

/-- Two vectors with the same lanes are equal. -/
theorem vec_ext {x y : Vec} (h0 : lane x 0 = lane y 0) (h1 : lane x 1 = lane y 1) (h2 : lane x 2 = lane y 2)
    (h3 : lane x 3 = lane y 3) : x = y := by
  rw [← vec_lanes x, ← vec_lanes y, h0, h1, h2, h3]

/-! ## Bytes and 16-bit words -/

/-- A part appended below parts `k+1`, `k+2`, ... of `f` is part `k`: bytes. -/
theorem getLsbD_chain8 {w : Nat} (f : Nat → Byte) (k : Nat) (x : BitVec w)
    (h : ∀ i, i < w → x.getLsbD i = (f (i / 8 + (k + 1))).getLsbD (i % 8)) (i : Nat) (hi : i < w + 8) :
    (x ++ f k).getLsbD i = (f (i / 8 + k)).getLsbD (i % 8) := by
  rw [BitVec.getLsbD_append]
  split
  · next hlt => rw [Nat.div_eq_of_lt hlt, Nat.mod_eq_of_lt hlt, Nat.zero_add]
  · rw [h (i - 8) (by omega)]
    have e1 : (i - 8) / 8 + (k + 1) = i / 8 + k := by omega
    have e2 : (i - 8) % 8 = i % 8 := by omega
    rw [e1, e2]

/-- A part appended below parts `k+1`, `k+2`, ... of `f` is part `k`: 16-bit words. -/
theorem getLsbD_chain16 {w : Nat} (f : Nat → BitVec 16) (k : Nat) (x : BitVec w)
    (h : ∀ i, i < w → x.getLsbD i = (f (i / 16 + (k + 1))).getLsbD (i % 16)) (i : Nat) (hi : i < w + 16) :
    (x ++ f k).getLsbD i = (f (i / 16 + k)).getLsbD (i % 16) := by
  rw [BitVec.getLsbD_append]
  split
  · next hlt => rw [Nat.div_eq_of_lt hlt, Nat.mod_eq_of_lt hlt, Nat.zero_add]
  · rw [h (i - 16) (by omega)]
    have e1 : (i - 16) / 16 + (k + 1) = i / 16 + k := by omega
    have e2 : (i - 16) % 16 = i % 16 := by omega
    rw [e1, e2]

/-- Bit `i` of a vector made from bytes is bit `i mod 8` of byte `i div 8`. -/
theorem getLsbD_ofBytes (f : Nat → Byte) (i : Nat) (hi : i < 128) :
    (ofBytes f).getLsbD i = (f (i / 8)).getLsbD (i % 8) := by
  have base : ∀ i, i < 8 → (f 15).getLsbD i = (f (i / 8 + 15)).getLsbD (i % 8) := fun i hi => by
    rw [Nat.div_eq_of_lt hi, Nat.mod_eq_of_lt hi, Nat.zero_add]
  have hi' : i < 8 + 8 + 8 + 8 + 8 + 8 + 8 + 8 + 8 + 8 + 8 + 8 + 8 + 8 + 8 + 8 := hi
  have := getLsbD_chain8 f 0 _ (getLsbD_chain8 f 1 _ (getLsbD_chain8 f 2 _ (getLsbD_chain8 f 3 _ (getLsbD_chain8 f 4 _
    (getLsbD_chain8 f 5 _ (getLsbD_chain8 f 6 _ (getLsbD_chain8 f 7 _ (getLsbD_chain8 f 8 _ (getLsbD_chain8 f 9 _
    (getLsbD_chain8 f 10 _ (getLsbD_chain8 f 11 _ (getLsbD_chain8 f 12 _ (getLsbD_chain8 f 13 _ (getLsbD_chain8 f 14 _
    base)))))))))))))) i hi'
  exact this

/-- Bit `i` of a vector made from 16-bit words is bit `i mod 16` of word `i div 16`. -/
theorem getLsbD_ofWords (f : Nat → BitVec 16) (i : Nat) (hi : i < 128) :
    (ofWords f).getLsbD i = (f (i / 16)).getLsbD (i % 16) := by
  have base : ∀ i, i < 16 → (f 7).getLsbD i = (f (i / 16 + 7)).getLsbD (i % 16) := fun i hi => by
    rw [Nat.div_eq_of_lt hi, Nat.mod_eq_of_lt hi, Nat.zero_add]
  have hi' : i < 16 + 16 + 16 + 16 + 16 + 16 + 16 + 16 := hi
  have := getLsbD_chain16 f 0 _ (getLsbD_chain16 f 1 _ (getLsbD_chain16 f 2 _ (getLsbD_chain16 f 3 _
    (getLsbD_chain16 f 4 _ (getLsbD_chain16 f 5 _ (getLsbD_chain16 f 6 _ base)))))) i hi'
  exact this

theorem byteOf_ofBytes (f : Nat → Byte) (j : Nat) (hj : j < 16) : byteOf (ofBytes f) j = f j := by
  apply BitVec.eq_of_getLsbD_eq; intro i hi
  have h1 : (8 * j + i) / 8 = j := by omega
  have h2 : (8 * j + i) % 8 = i := by omega
  rw [byteOf, BitVec.getLsbD_extractLsb', getLsbD_ofBytes f (8 * j + i) (by omega), h1, h2]
  simp [hi]

theorem wordOf_ofWords (f : Nat → BitVec 16) (j : Nat) (hj : j < 8) : wordOf (ofWords f) j = f j := by
  apply BitVec.eq_of_getLsbD_eq; intro i hi
  have h1 : (16 * j + i) / 16 = j := by omega
  have h2 : (16 * j + i) % 16 = i := by omega
  rw [wordOf, BitVec.getLsbD_extractLsb', getLsbD_ofWords f (16 * j + i) (by omega), h1, h2]
  simp [hi]

/-- A lane of a vector made from bytes is its four bytes, the highest first. -/
theorem lane_ofBytes (f : Nat → Byte) (k : Nat) (hk : k < 4) :
    lane (ofBytes f) k = f (4 * k + 3) ++ f (4 * k + 2) ++ f (4 * k + 1) ++ f (4 * k) := by
  apply BitVec.eq_of_getLsbD_eq; intro i hi
  have base : ∀ i, i < 8 → (f (4 * k + 3)).getLsbD i = (f (4 * k + (i / 8 + 3))).getLsbD (i % 8) := fun i hi => by
    rw [Nat.div_eq_of_lt hi, Nat.mod_eq_of_lt hi, Nat.zero_add]
  have hi' : i < 8 + 8 + 8 + 8 := hi
  have := getLsbD_chain8 (fun j => f (4 * k + j)) 0 _ (getLsbD_chain8 (fun j => f (4 * k + j)) 1 _
    (getLsbD_chain8 (fun j => f (4 * k + j)) 2 _ base)) i hi'
  have e1 : (32 * k + i) / 8 = 4 * k + i / 8 := by omega
  have e2 : (32 * k + i) % 8 = i % 8 := by omega
  rw [getLsbD_lane, getLsbD_ofBytes f _ (by omega), e1, e2]
  simpa [hi] using this.symm

/-! ## The vector helpers at the immediates and masks the schedules use -/

/-- PSHUFD with 0x1B reverses the lanes (R151). -/
theorem pshufd_reverse (x : Vec) : pshufd x 0x1B#8 = vec (lane x 0) (lane x 1) (lane x 2) (lane x 3) := rfl

/-- PSHUFD with 0xB1 swaps within pairs (R151). -/
theorem pshufd_swap (x : Vec) : pshufd x 0xB1#8 = vec (lane x 2) (lane x 3) (lane x 0) (lane x 1) := rfl

/-- PSHUFD with 0x0E brings lanes 3 and 2 down (R151). -/
theorem pshufd_high (x : Vec) : pshufd x 0x0E#8 = vec (lane x 0) (lane x 0) (lane x 3) (lane x 2) := rfl

theorem getLsbD_palignr (x y : Vec) (imm : Byte) (i : Nat) (hi : i < 128) :
    (palignr x y imm).getLsbD i =
      if 8 * imm.toNat + i < 128 then y.getLsbD (8 * imm.toNat + i) else x.getLsbD (8 * imm.toNat + i - 128) := by
  have h : (palignr x y imm).getLsbD i = (decide (i < 128) && BitVec.getLsbD (w := 128 + 128) (x ++ y) (8 * imm.toNat + i)) := by
    simp [palignr]
  rw [h, BitVec.getLsbD_append]
  simp [hi]

/-- PALIGNR by a whole number of lanes: lane `k` is lane `n + k` of the eight lanes `x : y`. -/
theorem lane_palignr (x y : Vec) (imm : Byte) (n k : Nat) (hn : imm.toNat = 4 * n) (hk : k < 4) :
    lane (palignr x y imm) k = if n + k < 4 then lane y (n + k) else lane x (n + k - 4) := by
  apply BitVec.eq_of_getLsbD_eq; intro i hi
  rw [getLsbD_lane, getLsbD_palignr _ _ _ _ (by omega), hn]
  split
  · next h =>
    have e : 8 * (4 * n) + (32 * k + i) = 32 * (n + k) + i := by omega
    rw [if_pos (by omega), getLsbD_lane, e]
  · next h =>
    have e : 8 * (4 * n) + (32 * k + i) - 128 = 32 * (n + k - 4) + i := by omega
    rw [if_neg (by omega), getLsbD_lane, e]

theorem palignr_8 (x y : Vec) : palignr x y 8#8 = vec (lane x 1) (lane x 0) (lane y 3) (lane y 2) := by
  apply vec_ext <;> rw [lane_palignr x y 8#8 2 _ rfl (by omega)] <;> simp

theorem palignr_4 (x y : Vec) : palignr x y 4#8 = vec (lane x 0) (lane y 3) (lane y 2) (lane y 1) := by
  apply vec_ext <;> rw [lane_palignr x y 4#8 1 _ rfl (by omega)] <;> simp

theorem getLsbD_pblendw (x y : Vec) (imm : Byte) (i : Nat) (hi : i < 128) :
    (pblendw x y imm).getLsbD i = if imm.getLsbD (i / 16) then y.getLsbD i else x.getLsbD i := by
  have e : 16 * (i / 16) + i % 16 = i := by omega
  have e' : i % 16 < 16 := by omega
  rw [pblendw, getLsbD_ofWords _ _ hi]
  split <;> simp [wordOf, e, e']

/-- PBLENDW with 0xF0 takes lanes 3 and 2 from the second source (R155). -/
theorem pblendw_high (x y : Vec) : pblendw x y 0xF0#8 = vec (lane y 3) (lane y 2) (lane x 1) (lane x 0) := by
  have h (k : Nat) (hk : k < 4) : lane (pblendw x y 0xF0#8) k = if 2 ≤ k then lane y k else lane x k := by
    apply BitVec.eq_of_getLsbD_eq; intro i hi
    rw [getLsbD_lane, getLsbD_pblendw _ _ _ _ (by omega)]
    simp only [hi, decide_true, Bool.true_and]
    have hq : (32 * k + i) / 16 = 2 * k ∨ (32 * k + i) / 16 = 2 * k + 1 := by omega
    have hb : (0xF0#8 : Byte).getLsbD ((32 * k + i) / 16) = decide (2 ≤ k) := by
      rcases hq with hq | hq <;> rw [hq] <;> interval_cases k <;> decide
    rw [hb]
    by_cases h2 : 2 ≤ k
    · simp only [h2, decide_true, if_true, getLsbD_lane, hi, Bool.true_and]
    · simp only [h2, decide_false, Bool.false_eq_true, if_false, getLsbD_lane, hi, decide_true, Bool.true_and]
  apply vec_ext <;> rw [h _ (by omega)] <;> simp

/-- A vector is the vector of its bytes. -/
theorem ofBytes_byteOf (x : Vec) : ofBytes (byteOf x) = x := by
  apply BitVec.eq_of_getLsbD_eq; intro i hi
  have e1 : 8 * (i / 8) + i % 8 = i := by omega
  have e2 : i % 8 < 8 := by omega
  rw [getLsbD_ofBytes _ _ hi, byteOf, BitVec.getLsbD_extractLsb', e1]
  simp [e2]

/-- A lane is its four bytes, the highest first. -/
theorem lane_eq_bytes (x : Vec) (k : Nat) (hk : k < 4) :
    lane x k = byteOf x (4 * k + 3) ++ byteOf x (4 * k + 2) ++ byteOf x (4 * k + 1) ++ byteOf x (4 * k) := by
  have h := lane_ofBytes (byteOf x) k hk
  rwa [ofBytes_byteOf] at h

/-- A byte of loaded bytes shuffled by a mask byte that selects byte `n` (R150, R156). -/
theorem byteOf_pshufb_load16 (b : List Byte) (mask : Vec) (j n : Nat) (hj : j < 16) (hn : n < 16)
    (hm : byteOf mask j = BitVec.ofNat 8 n) : byteOf (pshufb (load16 b) mask) j = b.getD n 0#8 := by
  rw [pshufb, byteOf_ofBytes _ _ hj, hm]
  interval_cases n <;> exact byteOf_ofBytes _ _ (by decide)

/-- Under MASK1 the first big-endian word of 16 loaded bytes goes to lane 3 (R150, R182). -/
theorem pshufb_mask1 (b : List Byte) : pshufb (load16 b) mask1 = vec (be32 b 0) (be32 b 1) (be32 b 2) (be32 b 3) := by
  have hb (j : Nat) (hj : j < 16) : byteOf (pshufb (load16 b) mask1) j = b.getD (15 - j) 0#8 :=
    byteOf_pshufb_load16 b mask1 j (15 - j) hj (by omega) (by interval_cases j <;> decide)
  apply vec_ext <;> rw [lane_eq_bytes _ _ (by omega)] <;> simp only [Nat.reduceMul, Nat.reduceAdd] <;>
    rw [hb _ (by omega), hb _ (by omega), hb _ (by omega), hb _ (by omega)] <;> simp [be32]

/-- Under MASK256 it goes to lane 0 (R150, R182). -/
theorem pshufb_mask256 (b : List Byte) :
    pshufb (load16 b) mask256 = vec (be32 b 3) (be32 b 2) (be32 b 1) (be32 b 0) := by
  have hb (j : Nat) (hj : j < 16) : byteOf (pshufb (load16 b) mask256) j = b.getD (4 * (j / 4) + 3 - j % 4) 0#8 :=
    byteOf_pshufb_load16 b mask256 j _ hj (by omega) (by interval_cases j <;> decide)
  apply vec_ext <;> rw [lane_eq_bytes _ _ (by omega)] <;> simp only [Nat.reduceMul, Nat.reduceAdd] <;>
    rw [hb _ (by omega), hb _ (by omega), hb _ (by omega), hb _ (by omega)] <;> simp [be32]

end Sys2Proof.Machine
end

