-- ==== Sys2Proof/Laws/Schedule.lean ====
section
/-! SUPPORT. Laws/Schedule.lean: the two loops, what one group of a schedule does in terms of rounds, and the packed
layouts. What a whole block and a whole run of blocks give is left to the obligations. -/

namespace Sys2Proof.Machine

/-! ## The loops -/

theorem extendBy_add {α : Type} (next : List α → α) (n k : Nat) (ws : List α) :
    extendBy next (n + k) ws = extendBy next k (extendBy next n ws) := by
  induction n generalizing ws with
  | zero => rw [Nat.zero_add, extendBy]
  | succ n ih => rw [Nat.succ_add]; exact ih _

@[simp] theorem length_extendBy {α : Type} (next : List α → α) (n : Nat) (ws : List α) :
    (extendBy next n ws).length = n + ws.length := by
  induction n generalizing ws with
  | zero => simp [extendBy]
  | succ n ih => simp [extendBy, ih]; omega

/-- Extending only adds entries in front: what was there stands behind them. -/
theorem extendBy_suffix {α : Type} (next : List α → α) (n : Nat) (ws : List α) :
    ∃ new : List α, new.length = n ∧ extendBy next n ws = new ++ ws := by
  induction n generalizing ws with
  | zero => exact ⟨[], rfl, rfl⟩
  | succ n ih =>
    obtain ⟨new, hl, he⟩ := ih (next ws :: ws)
    exact ⟨new ++ [next ws], by simp [hl], by simp [extendBy, he]⟩

theorem roundsFrom_append {α β : Type} (body : Nat → α → β → β) (ws us : List α) (t : Nat) (v : β) :
    roundsFrom body t (ws ++ us) v = roundsFrom body (t + ws.length) us (roundsFrom body t ws v) := by
  induction ws generalizing t v with
  | nil => rfl
  | cons w ws ih => simp only [List.cons_append, roundsFrom, ih, List.length_cons]; congr 1; omega

@[simp] theorem length_messageWords (blk : List Byte) : (messageWords blk).length = 16 := by simp [messageWords]

@[simp] theorem length_schedule1 (blk : List Byte) : (schedule1 blk).length = 80 := by simp [schedule1]

@[simp] theorem length_schedule2 (blk : List Byte) : (schedule2 blk).length = 64 := by simp [schedule2]

@[simp] theorem length_groups1 (blk : List Byte) : (groups1 blk).length = 20 := by simp [groups1]

@[simp] theorem length_groups2 (blk : List Byte) : (groups2 blk).length = 16 := by simp [groups2]

/-- Word `i` of the 16 bytes of group `g` is message word `4g + i`. -/
theorem be32_group (blk : List Byte) (g i : Nat) (hi : i < 4) :
    be32 ((blk.drop (16 * g)).take 16) i = be32 blk (4 * g + i) := by
  have h (j : Nat) (hj : j < 16) : ((blk.drop (16 * g)).take 16).getD j 0#8 = blk.getD (16 * g + j) 0#8 := by
    simp [List.getD_eq_getElem?_getD, hj]
  simp only [be32]
  rw [h _ (by omega), h _ (by omega), h _ (by omega), h _ (by omega)]
  have e0 : 16 * g + 4 * i = 4 * (4 * g + i) := by omega
  have e1 : 16 * g + (4 * i + 1) = 4 * (4 * g + i) + 1 := by omega
  have e2 : 16 * g + (4 * i + 2) = 4 * (4 * g + i) + 2 := by omega
  have e3 : 16 * g + (4 * i + 3) = 4 * (4 * g + i) + 3 := by omega
  rw [e0, e1, e2, e3]

/-! ## SHA-1 groups -/

/-- The words of message groups kept newest first, newest word first: lane 0 holds the latest word of a group. -/
def newestWords1 (gs : List Vec) : List Word := gs.flatMap fun m => [lane m 0, lane m 1, lane m 2, lane m 3]

/-- One more group is four more words of the schedule (R118, R142, R143). -/
theorem newestWords1_next (m3 m2 m1 m0 : Vec) (rest : List Vec) :
    newestWords1 (nextGroup1 (m3 :: m2 :: m1 :: m0 :: rest) :: m3 :: m2 :: m1 :: m0 :: rest) =
      extendBy next1 4 (newestWords1 (m3 :: m2 :: m1 :: m0 :: rest)) := by
  have hx (a b : Vec) (k : Nat) : lane (pxor a b) k = lane a k ^^^ lane b k := by
    apply BitVec.eq_of_getLsbD_eq; intro i hi
    simp only [pxor, BitVec.getLsbD_xor, getLsbD_lane, hi, decide_true, Bool.true_and]
  simp only [newestWords1, List.flatMap_cons, List.cons_append, List.nil_append, extendBy, next1, nextGroup1,
    List.getD_cons_zero, List.getD_cons_succ, sha1msg2, sha1msg1, hx, lane_vec_0, lane_vec_1, lane_vec_2, lane_vec_3]
  congr 1
  · congr 1; ac_rfl
  congr 1
  · congr 1; ac_rfl
  congr 1
  · congr 1; ac_rfl
  congr 1
  · congr 1; ac_rfl

/-- SHA1RNDS4, given a word with E folded in, is the four rounds of its group (R140, R119). -/
theorem sha1rnds4_rounds (g : Nat) (hg : g < 20) (v : Vars1) (w0 w1 w2 w3 : Word) :
    sha1rnds4 (vec v.a v.b v.c v.d) (vec (w0 + v.e) w1 w2 w3) (BitVec.ofNat 8 (g / 5)) =
      (let r := roundsFrom round1 (4 * g) [w0, w1, w2, w3] v; vec r.a r.b r.c r.d) := by
  have hs : ((BitVec.ofNat 8 (g / 5)).extractLsb' 0 2).toNat = g / 5 := by interval_cases g <;> rfl
  have e0 : 4 * g / 20 = g / 5 := by omega
  have e1 : (4 * g + 1) / 20 = g / 5 := by omega
  have e2 : (4 * g + 1 + 1) / 20 = g / 5 := by omega
  have e3 : (4 * g + 1 + 1 + 1) / 20 = g / 5 := by omega
  have hr (sel : Nat) (w : Word) (u : Vars1) : ∀ t, t / 20 = sel → rnds4Round sel w u = round1 t w u := by
    rintro t rfl
    simp only [rnds4Round, round1, Vars1.mk.injEq, and_true]
    ac_rfl
  have h0 : rnds4Round (g / 5) (w0 + v.e) ⟨v.a, v.b, v.c, v.d, 0#32⟩ = round1 (4 * g) w0 v := by
    simp only [rnds4Round, round1, e0, Vars1.mk.injEq, and_true, BitVec.add_zero]
    ac_rfl
  simp only [sha1rnds4, lane_vec_0, lane_vec_1, lane_vec_2, lane_vec_3, hs, roundsFrom]
  rw [h0, hr _ w1 _ _ e1, hr _ w2 _ _ e2, hr _ w3 _ _ e3]

/-- The fifth variable after four rounds is what SHA1NEXTE derives from the first variable before them (R141). -/
theorem four_rounds_e (t : Nat) (w0 w1 w2 w3 : Word) (v : Vars1) :
    (roundsFrom round1 t [w0, w1, w2, w3] v).e = rotl 30 v.a := rfl

/-- The entry layout (R173). -/
theorem pack1_lanes (h : Vector Word 8) : pack1 h = ⟨vec h[0] h[1] h[2] h[3], vec h[4] 0#32 0#32 0#32⟩ := by
  simp [pack1, pshufd_reverse, packV]

/-! ## SHA-256 groups -/

/-- The words of message groups kept newest first, newest word first: lane 3 holds the latest word of a group. -/
def newestWords2 (gs : List Vec) : List Word := gs.flatMap fun m => [lane m 3, lane m 2, lane m 1, lane m 0]

/-- One more group is four more words of the schedule (R121, R145, R146). -/
theorem newestWords2_next (m3 m2 m1 m0 : Vec) (rest : List Vec) :
    newestWords2 (nextGroup2 (m3 :: m2 :: m1 :: m0 :: rest) :: m3 :: m2 :: m1 :: m0 :: rest) =
      extendBy next2 4 (newestWords2 (m3 :: m2 :: m1 :: m0 :: rest)) := by
  simp only [newestWords2, List.flatMap_cons, List.cons_append, List.nil_append, extendBy, next2, nextGroup2, palignr_4,
    paddd, List.getD_cons_zero, List.getD_cons_succ, sha256msg2, sha256msg1, lane_vec_0, lane_vec_1, lane_vec_2, lane_vec_3]
  congr 1
  · ac_rfl
  congr 1
  · ac_rfl
  congr 1
  · ac_rfl
  congr 1
  · ac_rfl

/-- SHA256RNDS2 on packed variables is two rounds (R144). -/
theorem sha256rnds2_steps (v : Vars2) (wk : Vec) :
    sha256rnds2 (vec v.c v.d v.g v.h) (vec v.a v.b v.e v.f) wk =
      (let r := step2 (lane wk 1) (step2 (lane wk 0) v); vec r.a r.b r.e r.f) := by
  simp [sha256rnds2]

/-- The entry layout (R177). -/
theorem pack2_lanes (h : Vector Word 8) : pack2 h = ⟨vec h[0] h[1] h[4] h[5], vec h[2] h[3] h[6] h[7]⟩ := by
  simp [pack2, pshufd_swap, pshufd_reverse, palignr_8, pblendw_high, packV]

/-- The exit layout (R177). -/
theorem unpack2_lanes (a b c d e f g h : Word) : unpack2 ⟨vec a b e f, vec c d g h⟩ = #v[a, b, c, d, e, f, g, h] := by
  simp [unpack2, pshufd_swap, pshufd_reverse, palignr_8, pblendw_high]

/-! ## Chaining values as variables -/

/-- A chaining value is the vector of its words. -/
theorem vector8_words (h : Vector Word 8) : #v[h[0], h[1], h[2], h[3], h[4], h[5], h[6], h[7]] = h := by
  apply Vector.ext; intro i hi
  rcases i with _ | _ | _ | _ | _ | _ | _ | _ | i
  all_goals first | rfl | omega

theorem pack1_setChain1 (h : Vector Word 8) (v : Vars1) :
    pack1 (setChain1 h v) = ⟨vec v.a v.b v.c v.d, vec v.e 0#32 0#32 0#32⟩ := by
  rw [pack1_lanes]; rfl

theorem pack2_setChain2 (v : Vars2) : pack2 (setChain2 v) = ⟨vec v.a v.b v.e v.f, vec v.c v.d v.g v.h⟩ := by
  rw [pack2_lanes]; rfl

end Sys2Proof.Machine
end

