-- ==== Sys2Proof/Laws/Stream.lean ====
section
/-! SUPPORT. Laws/Stream.lean: what taking bytes in does to a slot, in terms of the row of bytes it leaves, the length of a
digest, and what a run of whole blocks leaves of H. -/

namespace Sys2Proof.Machine

/-- Taking bytes into an empty partial block (R211). -/
theorem absorbWhole_spec (x : HashState) (d : List Byte) :
    let y := x.absorbWhole d
    y.alg = x.alg ∧ y.total = x.total ∧ y.life = x.life ∧ y.h = compressBlocks x.alg (d.length / 64) x.h d ∧
      y.plen.toNat = d.length % 64 ∧ y.buf.toList.take (d.length % 64) = d.drop (64 * (d.length / 64)) := by
  refine ⟨rfl, rfl, rfl, rfl, ?_, ?_⟩
  · simp only [HashState.absorbWhole, List.length_drop, BitVec.toNat_ofNat]; omega
  · simp only [HashState.absorbWhole]
    rw [toList_fill _ _ _ (by simp; omega)]
    simp only [List.take_zero, List.nil_append]
    rw [List.take_left']
    simp; omega

/-- Taking bytes in: with the valid bytes of the buffer and the new bytes in a row, whole blocks are compressed and the rest
stands at the start of the buffer (R211, R25). -/
theorem absorb_spec (x : HashState) (d : List Byte) (hp : x.plen.toNat < 64) :
    let y := x.absorb d
    let e := x.buf.toList.take x.plen.toNat ++ d
    y.alg = x.alg ∧ y.total = x.total ∧ y.life = x.life ∧ y.h = compressBlocks x.alg (e.length / 64) x.h e ∧
      y.plen.toNat = e.length % 64 ∧ y.buf.toList.take (e.length % 64) = e.drop (64 * (e.length / 64)) := by
  have hlen : (x.buf.toList.take x.plen.toNat ++ d).length = x.plen.toNat + d.length := by simp; omega
  simp only [HashState.absorb]
  split
  · next h =>
    split
    · next h0 =>
      have hbuf : (fill x.buf x.plen.toNat (d.take (64 - x.plen.toNat))).toList =
          x.buf.toList.take x.plen.toNat ++ d.take (64 - x.plen.toNat) := by
        rw [toList_fill _ _ _ (by simp; omega), List.drop_of_length_le (by simp; omega), List.append_nil]
      have hw := absorbWhole_spec
        { x with h := compress x.alg x.h (fill x.buf x.plen.toNat (d.take (64 - x.plen.toNat))).toList,
                 buf := fill x.buf x.plen.toNat (d.take (64 - x.plen.toNat)), plen := 0#7 }
        (d.drop (64 - x.plen.toNat))
      have hk : (d.drop (64 - x.plen.toNat)).length = x.plen.toNat + d.length - 64 := by simp; omega
      have e1 : (x.plen.toNat + d.length) / 64 = 1 + (x.plen.toNat + d.length - 64) / 64 := by omega
      have e2 : (x.plen.toNat + d.length) % 64 = (x.plen.toNat + d.length - 64) % 64 := by omega
      have hl64 : (x.buf.toList.take x.plen.toNat ++ d.take (64 - x.plen.toNat)).length = 64 := by simp; omega
      have hsplit : x.buf.toList.take x.plen.toNat ++ d =
          (x.buf.toList.take x.plen.toNat ++ d.take (64 - x.plen.toNat)) ++ d.drop (64 - x.plen.toNat) := by simp
      refine ⟨hw.1, hw.2.1, hw.2.2.1, ?_, ?_, ?_⟩
      · rw [hw.2.2.2.1, hlen, e1, compressBlocks_add, hk]
        simp only [compressBlocks]
        rw [hbuf, hsplit, List.take_left' hl64, List.drop_left' (by rw [hl64])]
      · rw [hw.2.2.2.2.1, hlen, hk, e2]
      · have := hw.2.2.2.2.2
        rw [hk] at this
        rw [hlen, e2, this, e1, Nat.mul_add, ← List.drop_drop, hsplit, List.drop_left' (by rw [hl64])]
    · next h0 =>
      have h0 : x.plen.toNat = 0 := by omega
      simp only [h0, List.take_zero, List.nil_append]
      exact absorbWhole_spec x d
  · next h =>
    refine ⟨rfl, rfl, rfl, ?_, ?_, ?_⟩
    · rw [hlen, Nat.div_eq_of_lt (by omega)]; rfl
    · rw [hlen]; simp only [BitVec.toNat_ofNat]; omega
    · rw [hlen, toList_fill _ _ _ (by omega), Nat.div_eq_of_lt (by omega), Nat.mod_eq_of_lt (by omega)]
      simp only [Nat.mul_zero, List.drop_zero]
      rw [List.take_left' (by simp; omega)]

/-- A digest has DSIZE bytes (R205). -/
theorem length_digest (alg : Alg) (h : Vector Word 8) : (digest alg h).length = dsize alg := by
  have hb (l : List Word) : (l.flatMap be32Bytes).length = 4 * l.length := by
    induction l with
    | nil => rfl
    | cons w l ih => simp [be32Bytes, ih]; omega
  simp only [digest, List.length_take, hb]
  cases alg <;> simp [dsize, nw]

/-- FINAL writes `min(n, DSIZE)` bytes (R213). -/
theorem HashState.length_output (x : HashState) (n : Nat) : (x.output n).length = min n (dsize x.alg) := by
  simp [HashState.output, length_digest]

/-- Blocks of 64 bytes compressed one by one are the blocks of their row (R170). -/
theorem foldl_compress (alg : Alg) (blks : List (List Byte)) (h : Vector Word 8) (hb : ∀ b ∈ blks, b.length = 64) :
    blks.foldl (compress alg) h = compressBlocks alg blks.length h blks.flatten := by
  induction blks generalizing h with
  | nil => rfl
  | cons b bs ih =>
    have h64 := hb b (by simp)
    rw [List.foldl_cons, ih _ fun x hx => hb x (by simp [hx]), List.length_cons, compressBlocks, List.flatten_cons,
      List.take_left' h64, List.drop_left' h64]

/-- A SHA-1 chaining value keeps H[5], H[6] and H[7] over a run of blocks (R24, R126). -/
theorem compressBlocks_sha1_high (n : Nat) (h : Vector Word 8) (d : List Byte) :
    (compressBlocks .sha1 n h d)[5] = h[5] ∧ (compressBlocks .sha1 n h d)[6] = h[6] ∧
      (compressBlocks .sha1 n h d)[7] = h[7] := by
  induction n generalizing h d with
  | zero => exact ⟨rfl, rfl, rfl⟩
  | succ n ih =>
    obtain ⟨h5, h6, h7⟩ := ih (compress .sha1 h (d.take 64)) (d.drop 64)
    obtain ⟨e5, e6, e7⟩ := compress_sha1_high h (d.take 64)
    exact ⟨h5.trans e5, h6.trans e6, h7.trans e7⟩

end Sys2Proof.Machine
end

