-- ==== Sys2Proof/Tests/Slice0.lean ====
section
/-! SUPPORT. Tests/Slice0.lean: the model's own tests. The expected values are those of spec/95_test_vectors.md and of the
examples in the rules; words are written out from the tables of 30_encoding.md. The witnesses at the end show, for each
statement with hypotheses, states and operands that meet them. -/

namespace Sys2Proof.Tests

open Sys2Proof.Machine

set_option Elab.async false

/-! ## Helpers -/

/-- The state after one instruction. -/
def after (i : Instr) (s : State) : State :=
  match exec i s with
  | .next t => t
  | .fault _ => s
  | .refused _ => s

/-- The value a read of the window returns. -/
def readAt (off : BitVec 8) (s : State) : Word :=
  match hostRead off s with
  | .next t => t.readData
  | .fault _ => 0#32
  | .refused _ => 0#32

/-- `m(n)` of 95_test_vectors.md: byte `i` is `i mod 256`. -/
def m (n : Nat) : List Byte := (List.range n).map (BitVec.ofNat 8)

/-- The bytes of "abc". -/
def abc : List Byte := [0x61#8, 0x62#8, 0x63#8]

/-- `pad("abc")` of 40_sha_functions.md R120. -/
def padAbc : List Byte := abc ++ [0x80#8] ++ zeros 59 ++ [0x18#8]

/-- A slot that has taken a message shorter than a block. -/
def slotOf (life : Life) (alg : Alg) (msg : List Byte) : HashState where
  life := life
  alg := alg
  h := iv alg
  buf := fill (Vector.replicate 64 0#8) 0 msg
  plen := BitVec.ofNat 7 msg.length
  total := BitVec.ofNat 64 msg.length

/-- Four slots: FREE, FRESH SHA-1, STREAMING SHA-256 with "abc", FINALIZED SHA-224. -/
def base : State :=
  { State.reset with
    slots := [none, some (slotOf .fresh .sha1 []), some (slotOf .streaming .sha256 abc), some (slotOf .finalized .sha224 [])] }

/-- `base` with some bytes at 0x1000 and the argument registers set. -/
def withData (bytes : List Byte) (addr len : DWord) : State :=
  { base with mem := Memory.writeBytes [] 0x1000 bytes, argAddr := addr, argLen := len }

/-- `base` without the extensions. -/
def bare : State := { base with platform := { Platform.sample with hasShaExt := false } }

/-- Two vectors in xmm1 and xmm2, and a third in xmm0. -/
def regs (x1 x2 x0 : Vec) : State := ((State.reset.setReg 1 x1).setReg 2 x2).setReg 0 x0

/-! ## Well-formedness: an ill-formed term for each check -/

theorem test_wf_initSha1 : (Instr.initSha1 256).wellFormed = false ∧ (Instr.initSha1 255).wellFormed = true := by decide

theorem test_wf_initSha256 : (Instr.initSha256 256).wellFormed = false ∧ (Instr.initSha256 255).wellFormed = true := by decide

theorem test_wf_initSha224 : (Instr.initSha224 256).wellFormed = false ∧ (Instr.initSha224 255).wellFormed = true := by decide

theorem test_wf_update : (Instr.update 256).wellFormed = false ∧ (Instr.update 255).wellFormed = true := by decide

theorem test_wf_final : (Instr.final 256).wellFormed = false ∧ (Instr.final 255).wellFormed = true := by decide

theorem test_wf_reset : (Instr.reset 256).wellFormed = false ∧ (Instr.reset 255).wellFormed = true := by decide

theorem test_wf_release : (Instr.release 256).wellFormed = false ∧ (Instr.release 255).wellFormed = true := by decide

theorem test_wf_xform : (Instr.xform 256).wellFormed = false ∧ (Instr.xform 255).wellFormed = true := by decide

theorem test_wf_clone_destination : (Instr.clone 256 0).wellFormed = false ∧ (Instr.clone 255 0).wellFormed = true := by decide

theorem test_wf_clone_source : (Instr.clone 0 256).wellFormed = false ∧ (Instr.clone 0 255).wellFormed = true := by decide

/-! ## Decoding: words written out from R87, R94 and 95_test_vectors.md section 2.13 -/

theorem test_decode_initSha1 : decode (.command 0x00000001#32) = some (.initSha1 0) := by decide

theorem test_decode_initSha256 : decode (.command 0x00000011#32) = some (.initSha256 0) := by decide

theorem test_decode_initSha224 : decode (.command 0x00000321#32) = some (.initSha224 3) := by decide

theorem test_decode_update : decode (.command 0x00000302#32) = some (.update 3) := by decide

theorem test_decode_final : decode (.command 0x0000FF03#32) = some (.final 255) := by decide

theorem test_decode_clone : decode (.command 0x00010204#32) = some (.clone 2 1) := by decide

theorem test_decode_clone_top : decode (.command 0x00FF0004#32) = some (.clone 0 255) := by decide

theorem test_decode_reset : decode (.command 0x00000305#32) = some (.reset 3) := by decide

theorem test_decode_release : decode (.command 0x00000106#32) = some (.release 1) := by decide

theorem test_decode_xform : decode (.command 0x00000007#32) = some (.xform 0) := by decide

theorem test_decode_reserved_ops :
    ∀ op : Fin 16, (op = 0 ∨ 8 ≤ op) → decodeCommand (BitVec.ofNat 32 op.val) = none := by decide

/-- ALG 3, ALG outside INIT, SRC outside CLONE, RSV0 and RSV1 (R83 to R85). -/
theorem test_decode_illegal :
    decodeCommand 0x00000031#32 = none ∧ decodeCommand 0x00000012#32 = none ∧ decodeCommand 0x00010002#32 = none ∧
    decodeCommand 0x00000042#32 = none ∧ decodeCommand 0x00000081#32 = none ∧ decodeCommand 0x01000001#32 = none ∧
    decodeCommand 0x80010204#32 = none := by decide

/-! Primitive bytes from R91: ModRM is `11 rrr mmm`, so 0xCA = 11 001 010 names xmm1 and xmm2. -/

theorem test_decode_sha1rnds4 : decode (.primitive [0x0F#8, 0x3A#8, 0xCC#8, 0xCA#8, 0x03#8]) = some (.sha1rnds4 1 2 3#8) := by decide

theorem test_decode_sha1nexte : decode (.primitive [0x0F#8, 0x38#8, 0xC8#8, 0xCA#8]) = some (.sha1nexte 1 2) := by decide

theorem test_decode_sha1msg1 : decode (.primitive [0x0F#8, 0x38#8, 0xC9#8, 0xD8#8]) = some (.sha1msg1 3 0) := by decide

theorem test_decode_sha1msg2 : decode (.primitive [0x0F#8, 0x38#8, 0xCA#8, 0xC7#8]) = some (.sha1msg2 0 7) := by decide

theorem test_decode_sha256rnds2 : decode (.primitive [0x0F#8, 0x38#8, 0xCB#8, 0xCA#8]) = some (.sha256rnds2 1 2) := by decide

theorem test_decode_sha256msg1 : decode (.primitive [0x0F#8, 0x38#8, 0xCC#8, 0xE5#8]) = some (.sha256msg1 4 5) := by decide

theorem test_decode_sha256msg2 : decode (.primitive [0x0F#8, 0x38#8, 0xCD#8, 0xF8#8]) = some (.sha256msg2 7 0) := by decide

theorem test_decode_pshufb : decode (.primitive [0x66#8, 0x0F#8, 0x38#8, 0x00#8, 0xCA#8]) = some (.pshufb 1 2) := by decide

theorem test_decode_pshufd : decode (.primitive [0x66#8, 0x0F#8, 0x70#8, 0xCA#8, 0x1B#8]) = some (.pshufd 1 2 0x1B#8) := by decide

theorem test_decode_palignr : decode (.primitive [0x66#8, 0x0F#8, 0x3A#8, 0x0F#8, 0xCA#8, 0x04#8]) = some (.palignr 1 2 4#8) := by decide

theorem test_decode_paddd : decode (.primitive [0x66#8, 0x0F#8, 0xFE#8, 0xF1#8]) = some (.paddd 6 1) := by decide

theorem test_decode_pxor : decode (.primitive [0x66#8, 0x0F#8, 0xEF#8, 0xCE#8]) = some (.pxor 1 6) := by decide

theorem test_decode_pblendw : decode (.primitive [0x66#8, 0x0F#8, 0x3A#8, 0x0E#8, 0xCA#8, 0xF0#8]) = some (.pblendw 1 2 0xF0#8) := by decide

/-- A memory form (ModRM bits [7:6] not 11), a missing immediate, a byte too many, and no bytes are no encodings of R91. -/
theorem test_decode_primitive_illegal :
    decodePrimitive [0x0F#8, 0x38#8, 0xC8#8, 0x0A#8] = none ∧ decodePrimitive [0x0F#8, 0x3A#8, 0xCC#8, 0xCA#8] = none ∧
    decodePrimitive [0x66#8, 0x0F#8, 0xFE#8, 0xF1#8, 0x00#8] = none ∧ decodePrimitive [] = none := by decide

/-- Table words: a command's 32 bits, and a primitive's bytes with the first byte most significant. -/
theorem test_table_words :
    decodeTableWord 32 0x00010204 = some (.clone 2 1) ∧ decodeTableWord 32 0x0F38C8CA = some (.sha1nexte 1 2) ∧
    decodeTableWord 32 0x660FFEF1 = some (.paddd 6 1) ∧ decodeTableWord 40 0x0F3ACCCA03 = some (.sha1rnds4 1 2 3#8) ∧
    decodeTableWord 48 0x660F3A0FCA04 = some (.palignr 1 2 4#8) ∧ decodeTableWord 32 0x00000008 = none := by decide

/-! ## Primitives: 95_test_vectors.md sections 2.2 and 2.3 -/

theorem test_sha1rnds4_maj :
    (after (.sha1rnds4 1 2 2#8) (regs (vec 0x67452301#32 0xefcdab89#32 0x98badcfe#32 0x10325476#32)
      (vec 0x25354570#32 0x00000000#32 0x00000000#32 0x00000000#32)
      (vec 0x00000000#32 0x00000000#32 0x00000000#32 0x00000000#32))).reg 1 =
      vec 0x4304f56f#32 0xcaf56416#32 0xb4525abe#32 0x8d6c0fdd#32 := by decide +kernel

theorem test_sha1rnds4_selector_bits :
    (after (.sha1rnds4 1 2 0xFF#8) (regs (vec 0x67452301#32 0xefcdab89#32 0x98badcfe#32 0x10325476#32)
      (vec 0x25354570#32 0x00000000#32 0x00000000#32 0x00000000#32)
      (vec 0x00000000#32 0x00000000#32 0x00000000#32 0x00000000#32))).reg 1 =
      vec 0x834a260f#32 0x5b20812e#32 0x13b4be74#32 0xcfe0629c#32 := by decide +kernel

theorem test_sha1nexte_wraps :
    (after (.sha1nexte 1 2) (regs (vec 0x80000001#32 0x11111111#32 0x22222222#32 0x33333333#32)
      (vec 0xffffffff#32 0x44444444#32 0x55555555#32 0x66666666#32)
      (vec 0x00000000#32 0x00000000#32 0x00000000#32 0x00000000#32))).reg 1 =
      vec 0x5fffffff#32 0x44444444#32 0x55555555#32 0x66666666#32 := by decide +kernel

theorem test_sha1msg1 :
    (after (.sha1msg1 1 2) (regs (vec 0x01234567#32 0x89abcdef#32 0xfedcba98#32 0x76543210#32)
      (vec 0x0f0f0f0f#32 0xf0f0f0f0#32 0x00ff00ff#32 0xff00ff00#32)
      (vec 0x00000000#32 0x00000000#32 0x00000000#32 0x00000000#32))).reg 1 =
      vec 0xffffffff#32 0xffffffff#32 0xf1d3b597#32 0x86a4c2e0#32 := by decide +kernel

theorem test_sha1msg1_lanes :
    (after (.sha1msg1 1 2) (regs (vec 0x00000001#32 0x00000002#32 0x00000004#32 0x00000008#32)
      (vec 0x00000010#32 0x00000020#32 0x00000040#32 0x00000080#32)
      (vec 0x00000000#32 0x00000000#32 0x00000000#32 0x00000000#32))).reg 1 =
      vec 0x00000005#32 0x0000000a#32 0x00000014#32 0x00000028#32 := by decide +kernel

theorem test_sha1msg2 :
    (after (.sha1msg2 1 2) (regs (vec 0x01234567#32 0x89abcdef#32 0xfedcba98#32 0x76543210#32)
      (vec 0x0f0f0f0f#32 0xf0f0f0f0#32 0x00ff00ff#32 0xff00ff00#32)
      (vec 0x00000000#32 0x00000000#32 0x00000000#32 0x00000000#32))).reg 1 =
      vec 0xe3a76b2f#32 0x12a99a21#32 0x03b88b30#32 0x2be6b27f#32 := by decide +kernel

theorem test_sha1msg2_same_register :
    (after (.sha1msg2 1 1) (regs (vec 0x01234567#32 0x89abcdef#32 0xfedcba98#32 0x76543210#32)
      (vec 0x0f0f0f0f#32 0xf0f0f0f0#32 0x00ff00ff#32 0xff00ff00#32)
      (vec 0x00000000#32 0x00000000#32 0x00000000#32 0x00000000#32))).reg 1 =
      vec 0x11111111#32 0xeeeeeeee#32 0x11111111#32 0xce8a4602#32 := by decide +kernel

theorem test_sha256rnds2 :
    (after (.sha256rnds2 1 2) (regs (vec 0x3c6ef372#32 0xa54ff53a#32 0x1f83d9ab#32 0x5be0cd19#32)
      (vec 0x6a09e667#32 0xbb67ae85#32 0x510e527f#32 0x9b05688c#32)
      (vec 0xdeadbeef#32 0xcafebabe#32 0x71374491#32 0xa3ec9318#32))).reg 1 =
      vec 0x5a6ad9ad#32 0x5d6aebcd#32 0x78ce7989#32 0xfa2a4622#32 := by decide +kernel

theorem test_sha256rnds2_ones :
    (after (.sha256rnds2 1 2) (regs (vec 0xffffffff#32 0xffffffff#32 0xffffffff#32 0xffffffff#32)
      (vec 0xffffffff#32 0xffffffff#32 0xffffffff#32 0xffffffff#32)
      (vec 0xffffffff#32 0xffffffff#32 0xffffffff#32 0xffffffff#32))).reg 1 =
      vec 0xaf57e9f9#32 0xfffffffa#32 0xef7ffdfb#32 0xfffffffb#32 := by decide +kernel

theorem test_sha256msg1 :
    (after (.sha256msg1 1 2) (regs (vec 0x01234567#32 0x89abcdef#32 0xfedcba98#32 0x76543210#32)
      (vec 0x0f0f0f0f#32 0xf0f0f0f0#32 0x00ff00ff#32 0xff00ff00#32)
      (vec 0x00000000#32 0x00000000#32 0x00000000#32 0x00000000#32))).reg 1 =
      vec 0x23016745#32 0xa92bbc5d#32 0x3c3a86e4#32 0x76d443a1#32 := by decide +kernel

theorem test_sha256msg1_lanes :
    (after (.sha256msg1 1 2) (regs (vec 0x00000001#32 0x00000002#32 0x00000004#32 0x00000008#32)
      (vec 0x00000010#32 0x00000020#32 0x00000040#32 0x00000080#32)
      (vec 0x00000000#32 0x00000000#32 0x00000000#32 0x00000000#32))).reg 1 =
      vec 0x00200012#32 0x02004002#32 0x04008004#32 0x08010008#32 := by decide +kernel

theorem test_sha256msg2 :
    (after (.sha256msg2 1 2) (regs (vec 0x01234567#32 0x89abcdef#32 0xfedcba98#32 0x76543210#32)
      (vec 0x0f0f0f0f#32 0xf0f0f0f0#32 0x00ff00ff#32 0xff00ff00#32)
      (vec 0x00000000#32 0x00000000#32 0x00000000#32 0x00000000#32))).reg 1 =
      vec 0x7d2393f8#32 0x213aec50#32 0x6542603d#32 0xdcae8c6a#32 := by decide +kernel

theorem test_sha256msg2_lanes :
    (after (.sha256msg2 1 2) (regs (vec 0x00000001#32 0x00000002#32 0x00000004#32 0x00000008#32)
      (vec 0x00000010#32 0x00000020#32 0x00000040#32 0x00000080#32)
      (vec 0x00000000#32 0x00000000#32 0x00000000#32 0x00000000#32))).reg 1 =
      vec 0x40028285#32 0x8005050a#32 0x000a0004#32 0x00140008#32 := by decide +kernel

theorem test_pshufb_mask_bits :
    (after (.pshufb 1 2) (regs (vec 0x0f0e0d0c#32 0x0b0a0908#32 0x07060504#32 0x03020100#32)
      (vec 0x80808080#32 0x8f0f0e0d#32 0x03020100#32 0xff000102#32)
      (vec 0x00000000#32 0x00000000#32 0x00000000#32 0x00000000#32))).reg 1 =
      vec 0x00000000#32 0x000f0e0d#32 0x03020100#32 0x00000102#32 := by decide +kernel

theorem test_pshufd_reverse :
    (after (.pshufd 1 2 0x1B#8) (regs (vec 0x00000000#32 0x00000000#32 0x00000000#32 0x00000000#32)
      (vec 0x33333333#32 0x22222222#32 0x11111111#32 0x00000000#32)
      (vec 0x00000000#32 0x00000000#32 0x00000000#32 0x00000000#32))).reg 1 =
      vec 0x00000000#32 0x11111111#32 0x22222222#32 0x33333333#32 := by decide +kernel

theorem test_pshufd_swap :
    (after (.pshufd 1 2 0xB1#8) (regs (vec 0x00000000#32 0x00000000#32 0x00000000#32 0x00000000#32)
      (vec 0x33333333#32 0x22222222#32 0x11111111#32 0x00000000#32)
      (vec 0x00000000#32 0x00000000#32 0x00000000#32 0x00000000#32))).reg 1 =
      vec 0x22222222#32 0x33333333#32 0x00000000#32 0x11111111#32 := by decide +kernel

theorem test_palignr_byte :
    (after (.palignr 1 2 1#8) (regs (vec 0x77777777#32 0x66666666#32 0x55555555#32 0x44444444#32)
      (vec 0x33333333#32 0x22222222#32 0x11111111#32 0x00000000#32)
      (vec 0x00000000#32 0x00000000#32 0x00000000#32 0x00000000#32))).reg 1 =
      vec 0x44333333#32 0x33222222#32 0x22111111#32 0x11000000#32 := by decide +kernel

theorem test_palignr_past_16 :
    (after (.palignr 1 2 20#8) (regs (vec 0x77777777#32 0x66666666#32 0x55555555#32 0x44444444#32)
      (vec 0x33333333#32 0x22222222#32 0x11111111#32 0x00000000#32)
      (vec 0x00000000#32 0x00000000#32 0x00000000#32 0x00000000#32))).reg 1 =
      vec 0x00000000#32 0x77777777#32 0x66666666#32 0x55555555#32 := by decide +kernel

theorem test_paddd_no_carry :
    (after (.paddd 1 2) (regs (vec 0xffffffff#32 0x80000000#32 0x00000001#32 0x00000000#32)
      (vec 0x00000001#32 0x80000000#32 0xffffffff#32 0x00000000#32)
      (vec 0x00000000#32 0x00000000#32 0x00000000#32 0x00000000#32))).reg 1 =
      vec 0x00000000#32 0x00000000#32 0x00000000#32 0x00000000#32 := by decide +kernel

theorem test_pxor :
    (after (.pxor 1 2) (regs (vec 0x01234567#32 0x89abcdef#32 0xfedcba98#32 0x76543210#32)
      (vec 0x0f0f0f0f#32 0xf0f0f0f0#32 0x00ff00ff#32 0xff00ff00#32)
      (vec 0x00000000#32 0x00000000#32 0x00000000#32 0x00000000#32))).reg 1 =
      vec 0x0e2c4a68#32 0x795b3d1f#32 0xfe23ba67#32 0x8954cd10#32 := by decide +kernel

theorem test_pblendw_high :
    (after (.pblendw 1 2 0xF0#8) (regs (vec 0x33333333#32 0x22222222#32 0x11111111#32 0x00000000#32)
      (vec 0x77777777#32 0x66666666#32 0x55555555#32 0x44444444#32)
      (vec 0x00000000#32 0x00000000#32 0x00000000#32 0x00000000#32))).reg 1 =
      vec 0x77777777#32 0x66666666#32 0x11111111#32 0x00000000#32 := by decide +kernel

theorem test_pblendw_words :
    (after (.pblendw 1 2 0x33#8) (regs (vec 0x33333333#32 0x22222222#32 0x11111111#32 0x00000000#32)
      (vec 0x77777777#32 0x66666666#32 0x55555555#32 0x44444444#32)
      (vec 0x00000000#32 0x00000000#32 0x00000000#32 0x00000000#32))).reg 1 =
      vec 0x33333333#32 0x66666666#32 0x11111111#32 0x44444444#32 := by decide +kernel

/-- LOAD16 (R156) and the two masks of R150. -/
theorem test_load16_masks :
    load16 (m 16) = vec 0x0f0e0d0c#32 0x0b0a0908#32 0x07060504#32 0x03020100#32 ∧
    pshufb (load16 (m 16)) mask1 = vec 0x00010203#32 0x04050607#32 0x08090a0b#32 0x0c0d0e0f#32 ∧
    pshufb (load16 (m 16)) mask256 = vec 0x0c0d0e0f#32 0x08090a0b#32 0x04050607#32 0x00010203#32 := by decide +kernel

/-! ## Functions and compression: 95_test_vectors.md sections 2.1 and 2.4 -/

theorem test_functions :
    ch 0xFFFFFFFF#32 0x12345678#32 0x9ABCDEF0#32 = 0x12345678#32 ∧ ch 0#32 0x12345678#32 0x9ABCDEF0#32 = 0x9ABCDEF0#32 ∧
    maj 0xFF00FF00#32 0x0FF00FF0#32 0x00FFFF00#32 = 0x0FF0FF00#32 ∧ parity 1#32 2#32 4#32 = 7#32 ∧
    bigSigma0 1#32 = 0x40080400#32 ∧ bigSigma1 1#32 = 0x04200080#32 ∧ smallSigma0 1#32 = 0x02004000#32 ∧
    smallSigma1 1#32 = 0x0000A000#32 ∧ smallSigma0 0x80000000#32 = 0x11002000#32 ∧
    smallSigma1 0xFFFFFFFF#32 = 0x003FFFFF#32 := by decide

theorem test_compress_sha1 : (compress .sha1 (iv .sha1) padAbc).toList =
    [0xa9993e36#32, 0x4706816a#32, 0xba3e2571#32, 0x7850c26c#32, 0x9cd0d89d#32, 0#32, 0#32, 0#32] := by decide +kernel

theorem test_compress_sha256 : (compress .sha256 (iv .sha256) padAbc).toList =
    [0xba7816bf#32, 0x8f01cfea#32, 0x414140de#32, 0x5dae2223#32, 0xb00361a3#32, 0x96177a9c#32, 0xb410ff61#32,
      0xf20015ad#32] := by decide +kernel

theorem test_primitive_form_sha1 : (transformByPrimitives .sha1 (iv .sha1) [padAbc]).toList =
    [0xa9993e36#32, 0x4706816a#32, 0xba3e2571#32, 0x7850c26c#32, 0x9cd0d89d#32, 0#32, 0#32, 0#32] := by decide +kernel

theorem test_primitive_form_sha224 : (transformByPrimitives .sha224 (iv .sha224) [padAbc]).toList =
    [0x23097d22#32, 0x3405d822#32, 0x8642a477#32, 0xbda255b3#32, 0x2aadbce4#32, 0xbda0b3f7#32, 0xe36c9da7#32,
      0xd2da082d#32] := by decide +kernel

/-! ## Commands: 95_test_vectors.md sections 2.6 to 2.11 -/

/-- INIT of a FREE slot (2.9). -/
theorem test_init_sha1 : ((after (.initSha1 0) base).slot 0).map (fun x => (x.life, x.alg, x.h.toList, x.plen, x.total)) =
    some (.fresh, .sha1, [0x67452301#32, 0xefcdab89#32, 0x98badcfe#32, 0x10325476#32, 0xc3d2e1f0#32, 0#32, 0#32, 0#32],
      0#7, 0#64) := by decide +kernel

/-- INIT of a live slot takes the new algorithm (2.9). -/
theorem test_init_sha224 : ((after (.initSha224 2) base).slot 2).map (fun x => (x.life, x.alg, x.h[0], x.plen, x.total)) =
    some (.fresh, .sha224, 0xc1059ed8#32, 0#7, 0#64) := by decide +kernel

theorem test_init_sha256 : ((after (.initSha256 3) base).slot 3).map (fun x => (x.life, x.alg, x.h[7])) =
    some (.fresh, .sha256, 0x5be0cd19#32) := by decide +kernel

/-- 65 bytes into a FRESH SHA-1 slot (2.7). -/
theorem test_update_65 :
    ((after (.update 1) (withData (m 65) 0x1000#64 65#64)).slot 1).map
      (fun x => (x.life, x.plen, x.total, x.h.toList.take 5, x.buf[0])) =
    some (.streaming, 1#7, 65#64, [0xb9ac757b#32, 0xbc297925#32, 0x2e227274#32, 0x06872f94#32, 0xcbea56a1#32], 0x40#8) := by
  decide +kernel

/-- The buffer topped off to one whole block: "abc" and the other 61 bytes of `pad("abc")` (2.4, R211). -/
theorem test_update_tops_off :
    ((after (.update 2) (withData padAbc 0x1003#64 61#64)).slot 2).map (fun x => (x.plen, x.total, x.h[0], x.h[7])) =
    some (0#7, 64#64, 0xba7816bf#32, 0xf20015ad#32) := by decide +kernel

/-- SHA-1 of the empty stream from FRESH, capacity above DSIZE: 20 bytes and no more (2.6, 2.9). -/
theorem test_final_empty :
    (after (.final 1) (withData [] 0x2000#64 64#64)).mem.readBytes 0x2000 21 =
    [0xda#8, 0x39#8, 0xa3#8, 0xee#8, 0x5e#8, 0x6b#8, 0x4b#8, 0x0d#8, 0x32#8, 0x55#8, 0xbf#8, 0xef#8, 0x95#8, 0x60#8, 0x18#8,
      0x90#8, 0xaf#8, 0xd8#8, 0x07#8, 0x09#8] ++ [0x00#8] := by decide +kernel

/-- SHA-256 of "abc", capacity 5: five bytes, and H holds the whole value (2.6, 2.9). -/
theorem test_final_short :
    (after (.final 2) (withData [] 0x2000#64 5#64)).mem.readBytes 0x2000 6 =
      [0xba#8, 0x78#8, 0x16#8, 0xbf#8, 0x8f#8, 0x00#8] ∧
    ((after (.final 2) (withData [] 0x2000#64 5#64)).slot 2).map (fun x => (x.life, x.total, x.h[7])) =
      some (.finalized, 3#64, 0xf20015ad#32) := by decide +kernel

/-- CLONE into a slot in use, of a FINALIZED source (2.8). -/
theorem test_clone : (after (.clone 1 3) base).slot 1 = base.slot 3 ∧ (after (.clone 1 3) base).slot 3 = base.slot 3 := by
  decide +kernel

theorem test_reset_final : ((after (.reset 3) base).slot 3).map (fun x => (x.life, x.alg, x.h[0], x.plen, x.total)) =
    some (.fresh, .sha224, 0xc1059ed8#32, 0#7, 0#64) := by decide +kernel

theorem test_release : (after (.release 3) base).slot 3 = none := by decide +kernel

/-- XFORM of `pad("abc")` inside a stream: H as compressed, the stream's own fields as before (2.10). -/
theorem test_xform :
    ((after (.xform 2) (withData padAbc 0x1000#64 1#64)).slot 2).map (fun x => (x.life, x.plen, x.total, x.h[0], x.h[7])) =
    some (.streaming, 3#7, 3#64, 0xba7816bf#32, 0xf20015ad#32) := by decide +kernel

/-! ## Faults and the window: 95_test_vectors.md sections 2.8 to 2.12 -/

/-- E_BAD_CTX, E_NOT_INIT of a clone's source, of RESET and of RELEASE (2.8, 2.9). -/
theorem test_fault_words :
    (after (.clone 0 4) base).err.word = 0x00004301#32 ∧ (after (.clone 1 0) base).err.word = 0x00014401#32 ∧
    (after (.reset 0) base).err.word = 0x00005401#32 ∧ (after (.release 0) base).err.word = 0x00006401#32 ∧
    (after (.initSha1 9) base).err.word = 0x00091301#32 := by decide +kernel

/-- E_FINALIZED, E_LENGTH before E_BUS, and E_BUS, on UPDATE (program P3). -/
theorem test_update_faults :
    (after (.update 3) base).err.word = 0x00032501#32 ∧
    (after (.update 1) (withData [] 0xFFF0#64 0x2000000000000000#64)).err.word = 0x00012601#32 ∧
    (after (.update 1) (withData [] 0xFFF0#64 0x20#64)).err.word = 0x00012701#32 := by decide +kernel

/-- The record of two faults, and its clearing by halves (2.11). -/
theorem test_err_sequence :
    let s1 := base.illegalCommand 0x00000000#32;
    let s2 := after (.update 0) s1;
    s2.err.word = 0x00000203#32 ∧ (s2.ackFault 1#32).err.word = 0x00000002#32 ∧
    ((s2.ackFault 1#32).ackFault 2#32).err.word = 0x00000000#32 ∧ (s2.ackFault 2#32).err.word = 0x00000201#32 := by
  decide +kernel

/-- CAP at both ends of N_CTX, with and without the extensions (2.12). -/
theorem test_cap :
    readAt 0x00#8 base = 0x0004000F#32 ∧ readAt 0x00#8 bare = 0x00040000#32 ∧
    capWord true 1 = 0x0001000F#32 ∧ capWord true 256 = 0x0100000F#32 := by decide +kernel

/-- CTX_STATUS of a FRESH SHA-224 slot is 0x21 and of the 130-byte SHA-256 slot of section 2.7 is 0x212; a FREE slot is 0. -/
theorem test_status :
    statusWord (slotOf .fresh .sha224 []) 0#7 = 0x00000021#32 ∧ statusWord (slotOf .streaming .sha256 [0x80#8, 0x81#8]) 2#7 = 0x00000212#32 ∧
    readAt 0x20#8 base = 0x00000000#32 := by decide +kernel

/-- CTX_SEL: a value that names no slot is ignored, and only bits [7:0] count (2.12). -/
theorem test_ctx_sel :
    (base.select 2#32).ctxSel = 2#8 ∧ ((base.select 2#32).select 9#32).ctxSel = 2#8 ∧ (base.select 0x102#32).ctxSel = 2#8 := by
  decide +kernel

/-- A zero-length range is admitted anywhere, the window nowhere, and no range passes the top of the address space (R62, R78). -/
theorem test_admission :
    Platform.sample.admitted .write 0xFFFFFFF0 0 = true ∧ Platform.sample.admitted .read 0xFFFF 1 = true ∧
    Platform.sample.admitted .read 0xFFFF 2 = false ∧ Platform.sample.admitted .read 0x10000 1 = false := by decide +kernel

/-! ## Witnesses: states and operands that meet the hypotheses of each statement -/

theorem test_witness_decodeEncode : (Instr.clone 255 255).wellFormed = true ∧ (Instr.sha1rnds4 7 7 255#8).wellFormed = true := by
  decide

theorem test_witness_encodeDecode : decode (.command 0x00FFFF04#32) = some (.clone 255 255) ∧
    decode (.primitive [0x66#8, 0x0F#8, 0x70#8, 0xFF#8, 0xFF#8]) = some (.pshufd 7 7 0xFF#8) := by decide

/-- One word for each clause, alone in its fault. -/
theorem test_witness_illegalWordFields :
    decodeCommand 0x00000000#32 = none ∧ decodeCommand 0x00000008#32 = none ∧ decodeCommand 0x0000000F#32 = none ∧
    decodeCommand 0x00000047#32 = none ∧ decodeCommand 0x80000007#32 = none ∧ decodeCommand 0x00000031#32 = none ∧
    decodeCommand 0x00000014#32 = none ∧ decodeCommand 0x00010007#32 = none ∧
    decodeCommand 0x00000007#32 = some (.xform 0) := by decide

theorem test_witness_stepRunsDecodedInstruction :
    ({ base with pending := [.hostWrite 0x04#8 0x00000302#32] }.pending = [.hostWrite 0x04#8 0x00000302#32] ∧
      decodeCommand 0x00000302#32 = some (.update 3)) ∧
    ({ base with pending := [.datapath [0x0F#8, 0x38#8, 0xC8#8, 0xCA#8]] }.pending = [.datapath [0x0F#8, 0x38#8, 0xC8#8, 0xCA#8]] ∧
      decodePrimitive [0x0F#8, 0x38#8, 0xC8#8, 0xCA#8] = some (.sha1nexte 1 2) ∧ base.platform.hasShaExt = true) := by
  decide +kernel

theorem test_witness_withFetchWord : decodeTableWord 32 0x00000007 = some (.xform 0) ∧
    decodeTableWord 40 0x660F70CA1B = some (.pshufd 1 2 0x1B#8) ∧ State.reset.platform.hasShaExt = true := by decide

theorem test_witness_stepTakesInputs : step State.reset = .next State.reset ∧
    step { base with pending := [.hostWrite 0x08#8 7#32] } = .next { base with argAddr := 7#64 } := ⟨rfl, rfl⟩

theorem test_witness_compression : padAbc.length = 64 := by decide

theorem test_witness_messageGroups : 0 < 20 ∧ 19 < 20 ∧ 0 < 16 ∧ 15 < 16 := by decide

/-- The two counts of blocks meet between 55 and 56, and 63 is the last partial length. -/
theorem test_witness_padBlocks :
    (0#7).toNat < 64 ∧ (55#7).toNat < 64 ∧ (56#7).toNat < 64 ∧ (63#7).toNat < 64 ∧
    (padBlocks (Vector.replicate 64 1#8) 55#7 55#64).length = 1 ∧ (padBlocks (Vector.replicate 64 1#8) 56#7 56#64).length = 2 := by
  decide +kernel

theorem test_witness_digestBytes : 19 < (digest .sha1 (iv .sha1)).length ∧ 27 < (digest .sha224 (iv .sha224)).length ∧
    31 < (digest .sha256 (iv .sha256)).length := by decide +kernel

/-- INIT: the first and the last slot, FREE and in use. -/
theorem test_witness_init : base.platform.hasShaExt = true ∧ 0 < base.nCtx ∧ 3 < base.nCtx ∧ base.slot 0 = none ∧
    base.slot 3 = some (slotOf .finalized .sha224 []) := by decide +kernel

/-- UPDATE: a slot for each clause, and the length limit at its last admitted and first refused value. -/
theorem test_witness_update :
    base.platform.hasShaExt = true ∧ 3 < base.nCtx ∧ base.slot 0 = none ∧
    base.slot 3 = some (slotOf .finalized .sha224 []) ∧ (slotOf .finalized .sha224 []).life = .finalized ∧
    (let s := withData [] 0x1000#64 0x1FFFFFFFFFFFFFFD#64;
      s.slot 2 = some (slotOf .streaming .sha256 abc) ∧ (slotOf .streaming .sha256 abc).life ≠ .finalized ∧
      2 ^ 61 - 1 < (slotOf .streaming .sha256 abc).total.toNat + s.argLen.toNat) ∧
    (let s := withData [] 0x1000#64 0x1FFFFFFFFFFFFFFC#64;
      s.slot 2 = some (slotOf .streaming .sha256 abc) ∧
      (slotOf .streaming .sha256 abc).total.toNat + s.argLen.toNat ≤ 2 ^ 61 - 1 ∧
      s.platform.admitted .read s.argAddr.toNat s.argLen.toNat = false) ∧
    (let s := withData (m 61) 0x1000#64 61#64;
      s.slot 2 = some (slotOf .streaming .sha256 abc) ∧ (slotOf .streaming .sha256 abc).plen.toNat < 64 ∧
      (slotOf .streaming .sha256 abc).total.toNat + s.argLen.toNat ≤ 2 ^ 61 - 1 ∧
      s.platform.admitted .read s.argAddr.toNat s.argLen.toNat = true) := by decide +kernel

/-- FINAL: a slot for each clause, with a range admitted and one that is not. -/
theorem test_witness_final :
    base.platform.hasShaExt = true ∧ 3 < base.nCtx ∧ base.slot 0 = none ∧ base.slot 3 = some (slotOf .finalized .sha224 []) ∧
    (let s := withData [] 0xFFED#64 20#64;
      s.slot 1 = some (slotOf .fresh .sha1 []) ∧ s.platform.admitted .write s.argAddr.toNat (min s.argLen.toNat 20) = false) ∧
    (let s := withData [] 0xFFEC#64 0xFFFFFFFFFFFFFFFF#64;
      s.slot 1 = some (slotOf .fresh .sha1 []) ∧ (slotOf .fresh .sha1 []).plen.toNat < 64 ∧
      s.platform.admitted .write s.argAddr.toNat (min s.argLen.toNat 20) = true) := by decide +kernel

/-- CLONE: a source index out of range, a FREE source, and a source in use. -/
theorem test_witness_clone : base.platform.hasShaExt = true ∧ 3 < base.nCtx ∧ base.nCtx ≤ 4 ∧ 0 < base.nCtx ∧ base.slot 0 = none ∧
    base.slot 1 = some (slotOf .fresh .sha1 []) := by decide +kernel

theorem test_witness_reset_release : base.platform.hasShaExt = true ∧ 3 < base.nCtx ∧ base.slot 0 = none ∧
    base.slot 2 = some (slotOf .streaming .sha256 abc) := by decide +kernel

/-- XFORM: a slot for each clause; the block count 2^58 + 1, and one block, the last that the RAM holds. -/
theorem test_witness_xform :
    base.platform.hasShaExt = true ∧ 3 < base.nCtx ∧ base.slot 0 = none ∧ base.slot 3 = some (slotOf .finalized .sha224 []) ∧
    (let s := withData [] 0#64 0x0400000000000001#64;
      s.slot 1 = some (slotOf .fresh .sha1 []) ∧ 2 ^ 58 < s.argLen.toNat) ∧
    (let s := withData [] 0xFFC1#64 1#64;
      s.platform.admitted .read s.argAddr.toNat (64 * s.argLen.toNat) = false) ∧
    (let s := withData [] 0xFFC0#64 1#64;
      s.slot 1 = some (slotOf .fresh .sha1 []) ∧ (slotOf .fresh .sha1 []).life ≠ .finalized ∧
      s.platform.admitted .read s.argAddr.toNat (64 * s.argLen.toNat) = true) := by decide +kernel

/-- FaultPriority: without the extensions; an illegal word; a command for each fault; and one that raises none. -/
theorem test_witness_faultPriority :
    bare.platform.hasShaExt = false ∧ base.platform.hasShaExt = true ∧ decodeCommand 0x00000008#32 = none ∧
    decodeCommand 0x00000302#32 = some (.update 3) ∧ base.firstFault (.update 3) = some .finalized ∧
    base.firstFault (.update 4) = some .badCtx ∧ base.firstFault (.update 0) = some .notInit ∧
    (withData [] 0#64 0x2000000000000000#64).firstFault (.update 1) = some .length ∧
    (withData [] 0xFFFF#64 2#64).firstFault (.update 1) = some .bus ∧ bare.firstFault (.update 9) = some .unavailable ∧
    base.firstFault (.update 1) = none := by decide +kernel

theorem test_witness_reservedBits :
    ({ base with pending := [.hostWrite 0x04#8 0x00000041#32] }).platform.hasShaExt = true ∧
    fieldRsv0 0x00000041#32 ≠ 0#2 ∧ fieldRsv1 0x01000001#32 ≠ 0#8 := by decide +kernel

theorem test_witness_unavailable : bare.platform.hasShaExt = false ∧ (0x00#8).toNat % 4 = 0 ∧ (0xFC#8).toNat % 4 = 0 ∧
    (0xFC#8) ≠ (0x00#8) ∧ (0xFC#8) ≠ (0x04#8) := by decide +kernel

theorem test_witness_faultRecord : base.err.valid = false ∧ (after (.update 0) base).err.valid = true := by decide +kernel

theorem test_witness_errWrite : (1#32).getLsbD 0 = true ∧ (1#32).getLsbD 1 = false ∧ (2#32).getLsbD 0 = false ∧
    (2#32).getLsbD 1 = true := by decide

/-- A step that sets VALID, one that sets OVF, and one that clears both. -/
theorem test_witness_errBits :
    let s0 := { base with pending := [.hostWrite 0x04#8 0#32] };
    let s1 := { base.illegalCommand 0#32 with pending := [.hostWrite 0x04#8 0#32] };
    let s2 := { (base.illegalCommand 0#32).illegalCommand 0#32 with pending := [.hostWrite 0x18#8 3#32] };
    (step s0 = .next (base.illegalCommand 0#32) ∧ s0.err.valid = false ∧ (base.illegalCommand 0#32).err.valid = true) ∧
    (step s1 = .next ((base.illegalCommand 0#32).illegalCommand 0#32) ∧ s1.err.ovf = false ∧
      ((base.illegalCommand 0#32).illegalCommand 0#32).err.ovf = true) ∧
    (step s2 = .next base ∧ s2.err.valid = true ∧ s2.err.ovf = true ∧ base.err.valid = false ∧ base.err.ovf = false) :=
  ⟨⟨rfl, rfl, rfl⟩, ⟨rfl, rfl, rfl⟩, ⟨rfl, rfl, rfl, rfl, rfl⟩⟩

theorem test_witness_command : (Instr.final 1).command = some (3#4, 1) ∧ (Instr.clone 2 1).command = some (4#4, 2) ∧
    base.slot 1 = some (slotOf .fresh .sha1 []) ∧ (3 : Nat) ≠ 2 ∧ (3 : Nat) ≠ 1 := by decide +kernel

/-- A FINALIZED slot left by RELEASE, by CLONE into it and by the platform's reset. -/
theorem test_witness_finalized :
    base.slot 3 = some (slotOf .finalized .sha224 []) ∧ (slotOf .finalized .sha224 []).life = .finalized ∧
    step { base with pending := [.hostWrite 0x04#8 0x00000306#32] } = .next (base.setSlot 3 none) ∧
    (base.setSlot 3 none).slot 3 ≠ some (slotOf .finalized .sha224 []) ∧
    step { base with pending := [.hostWrite 0x04#8 0x00010304#32] } =
      .next (base.setSlot 3 (some (slotOf .fresh .sha1 []))) ∧
    (base.setSlot 3 (some (slotOf .fresh .sha1 []))).slot 3 ≠ some (slotOf .finalized .sha224 []) :=
  ⟨rfl, rfl, rfl, by decide +kernel, rfl, by decide +kernel⟩

theorem test_witness_platformConstant : step { base with pending := [.platformReset] } = .next base.platformReset ∧
    base.platformReset.nCtx = 4 := ⟨rfl, rfl⟩

theorem test_witness_cap : base.nCtx ≤ 256 ∧ ({ base with slots := List.replicate 256 none }).nCtx ≤ 256 := by decide +kernel

theorem test_witness_ctxStatus : (base.slot base.ctxSel.toNat = none) ∧
    ({ base with ctxSel := 2#8 }).slot 2 = some (slotOf .streaming .sha256 abc) ∧
    (slotOf .streaming .sha256 abc).life ≠ .finalized ∧ (7 : Nat) < 8 := by decide +kernel

/-- The selected slot a SHA-1 slot, and the first and the last of its three words that are 0. -/
theorem test_witness_ctxFields : ({ base with ctxSel := 1#8 }).Inv ∧ (slotOf .fresh .sha1 []).alg = .sha1 ∧
    ({ base with ctxSel := 1#8 }).slot 1 = some (slotOf .fresh .sha1 []) ∧ 5 < 8 ∧ 7 < 8 := by decide +kernel

/-- Aligned offsets: CMD, the reserved ones at each end, and the last register. -/
theorem test_witness_reads : (0x04#8).toNat % 4 = 0 ∧ (0x2C#8).toNat % 4 = 0 ∧ (0x50#8).toNat % 4 = 0 ∧ 0x50 ≤ (0x50#8).toNat ∧
    (0xFC#8).toNat % 4 = 0 ∧ ¬ 0x50 ≤ (0x4C#8).toNat ∧ 0x20 ≤ (0x20#8).toNat ∧ ¬ 0x20 ≤ (0x1C#8).toNat := by decide

theorem test_witness_hostMemory : base.platform.meetsWindow (0xFFFF#64).toNat 1 = false ∧
    base.platform.meetsWindow (0x10000#64).toNat 1 = true := by decide +kernel

theorem test_witness_stepKeepsInv : base.Inv ∧
    step { base with pending := [.hostWrite 0x04#8 0x00000306#32] } = .next (base.setSlot 3 none) :=
  ⟨by decide +kernel, rfl⟩

/-- Ranges of two chunkings of the same three bytes: read whole, read in two parts, and a range of no bytes anywhere. -/
theorem test_witness_chunks :
    (withData abc 0#64 0#64).mem.dataOf [(0x1000#64, 1#64), (0x1001#64, 2#64)] = abc ∧
    (withData abc 0#64 0#64).mem.dataOf [(0x1000#64, 3#64), (0xFFFFFFFFFFFFFFFF#64, 0#64)] = abc ∧
    Platform.sample.readable [(0x1000#64, 1#64), (0x1001#64, 2#64)] ∧
    Platform.sample.readable [(0x1000#64, 3#64), (0xFFFFFFFFFFFFFFFF#64, 0#64)] ∧ abc.length ≤ 2 ^ 61 - 1 :=
  ⟨by decide +kernel, by decide +kernel,
    List.forall_mem_cons.2 ⟨by decide +kernel, List.forall_mem_singleton.2 (by decide +kernel)⟩,
    List.forall_mem_cons.2 ⟨by decide +kernel, List.forall_mem_singleton.2 (by decide +kernel)⟩, by decide +kernel⟩

/-- A slot that goes on with those bytes, and digest ranges with and without room. -/
theorem test_witness_stream :
    (withData abc 0#64 0#64).platform.hasShaExt = true ∧ 3 < (withData abc 0#64 0#64).nCtx ∧
    (withData abc 0#64 0#64).slot 2 = some (slotOf .streaming .sha256 abc) ∧
    (slotOf .streaming .sha256 abc).life ≠ .finalized ∧ (slotOf .streaming .sha256 abc).plen.toNat < 64 ∧
    (slotOf .streaming .sha256 abc).total.toNat + abc.length ≤ 2 ^ 61 - 1 ∧
    Platform.sample.admitted .write 0x2000 (min (32#64).toNat 32) = true ∧
    Platform.sample.admitted .write 0x2000 (min (0#64).toNat 20) = true := by decide +kernel

/-- The least padding: none of the shorter zero runs fills a block. -/
theorem test_witness_padding : (padMessage abc).length = 64 ∧ (padMessage (m 56)).length = 128 ∧
    (abc ++ [0x80#8] ++ zeros 52 ++ be64Bytes (BitVec.ofNat 64 (8 * 3))).length % 64 = 0 := by decide +kernel

/-- A platform with a map of any shape: a single access admitted. -/
theorem test_map_row : ({ Platform.sample with memMap := [⟨.read, 0x40, 0x44, 4, 4⟩] } : Platform).admitted .read 0x40 4 = true ∧
    ({ Platform.sample with memMap := [⟨.read, 0x40, 0x44, 4, 4⟩] } : Platform).admitted .read 0x40 3 = false := by
  decide +kernel

end Sys2Proof.Tests
end

section
/-! SUPPORT. What one step can do, said once: what a check before a command can answer, what an instruction can make of the
state (`Effect`), and what an input can make of it (`Reaction`). -/

namespace Sys2Proof.Machine

/-! ## The checks before a command, as rules

Each rule shows a property of what a check answers from the property of every fault and of what follows the check. -/

section Checks

variable {P : State → Prop} {s : State} {op : BitVec 4} {c : Nat}

theorem State.atSlot_elim {go : Unit → State} (fault : ∀ code, P (s.raiseFault code op (BitVec.ofNat 8 c)))
    (passed : s.platform.hasShaExt = true → c < s.nCtx → P (go ())) : P (s.atSlot op c go) := by
  rcases s.atSlot_cases op c go with ⟨_, e⟩ | ⟨_, _, e⟩ | ⟨he, hc, e⟩
  · exact e ▸ fault _
  · exact e ▸ fault _
  · exact e ▸ passed he hc

theorem State.inUse_elim {go : HashState → State} (fault : ∀ code, P (s.raiseFault code op (BitVec.ofNat 8 c)))
    (passed : ∀ x, s.slot c = some x → P (go x)) : P (s.inUse op c go) := by
  rcases s.inUse_cases op c go with ⟨_, e⟩ | ⟨x, hx, e⟩
  · exact e ▸ fault _
  · exact e ▸ passed x hx

theorem State.unfinished_elim {go : HashState → State} (fault : ∀ code, P (s.raiseFault code op (BitVec.ofNat 8 c)))
    (passed : ∀ x, s.slot c = some x → x.life ≠ .finalized → P (go x)) : P (s.unfinished op c go) := by
  rcases s.unfinished_cases op c go with ⟨_, e⟩ | ⟨_, _, _, e⟩ | ⟨x, hx, hl, e⟩
  · exact e ▸ fault _
  · exact e ▸ fault _
  · exact e ▸ passed x hx hl

theorem State.withRange_elim {kind : AccessKind} {a n : Nat} {go : Unit → State}
    (fault : ∀ code, P (s.raiseFault code op (BitVec.ofNat 8 c)))
    (passed : s.platform.admitted kind a n = true → P (go ())) : P (s.withRange op c kind a n go) := by
  rcases s.withRange_cases op c kind a n go with ⟨_, e⟩ | ⟨ha, e⟩
  · exact e ▸ fault _
  · exact e ▸ passed ha

end Checks

/-! ## What an instruction can make of the state -/

/-- The slot after an UPDATE with the `n` bytes at `a` (R211). -/
def HashState.afterUpdate (x : HashState) (m : Memory) (a n : Nat) : HashState :=
  { x.absorb (m.readBytes a n) with total := BitVec.ofNat 64 (x.total.toNat + n), life := .streaming }

/-- The slot after a FINAL, its `plen` and `buf` from draw `k` (R213, R28). -/
def HashState.afterFinal (x : HashState) (k : Nat) : HashState :=
  { x with life := .finalized, h := x.finalChain, plen := Config.freePlen k, buf := freeBlock k }

/-- The slot after an XFORM of the `n` blocks at `a` (R217). -/
def HashState.afterXform (x : HashState) (m : Memory) (a n : Nat) : HashState :=
  { x with h := transform m x.alg n x.h a, life := .streaming }

/-- `Effect s i t`: instruction `i` may take state `s` to `t`. A command that does not fault has its constructor with the
checks it passed; which fault a refused command raises is not said here (`State.firstFault` says it). -/
inductive Effect (s : State) : Instr → State → Prop where
  | fault {i : Instr} {op : BitVec 4} {c : Nat} (code : FaultCode) (hi : i.command = some (op, c)) :
      Effect s i (s.raiseFault code op (BitVec.ofNat 8 c))
  | initSha1 {c : Nat} (hc : c < s.nCtx) : Effect s (.initSha1 c) (s.init c .sha1)
  | initSha256 {c : Nat} (hc : c < s.nCtx) : Effect s (.initSha256 c) (s.init c .sha256)
  | initSha224 {c : Nat} (hc : c < s.nCtx) : Effect s (.initSha224 c) (s.init c .sha224)
  | update {c : Nat} {x : HashState} (hx : s.slot c = some x) (hl : x.life ≠ .finalized)
      (hn : x.total.toNat + s.lenArg ≤ Config.lenLimit) (ha : s.platform.admitted .read s.addrArg s.lenArg = true) :
      Effect s (.update c) (s.setSlot c (some (x.afterUpdate s.mem s.addrArg s.lenArg))).clobberXmm
  | final {c : Nat} {x : HashState} (hx : s.slot c = some x) (hl : x.life ≠ .finalized)
      (ha : s.platform.admitted .write s.addrArg (min s.lenArg (dsize x.alg)) = true) :
      Effect s (.final c) { s.setSlot c (some (x.afterFinal s.draws)) with
        mem := s.mem.writeBytes s.addrArg (x.output s.lenArg) }.clobberXmm
  | clone {c src : Nat} {x : HashState} (hc : c < s.nCtx) (hx : s.slot src = some x) :
      Effect s (.clone c src) (s.setSlot c (some x))
  | reset {c : Nat} {x : HashState} (hx : s.slot c = some x) : Effect s (.reset c) (s.init c x.alg)
  | release {c : Nat} {x : HashState} (hx : s.slot c = some x) : Effect s (.release c) (s.setSlot c none)
  | xform {c : Nat} {x : HashState} (hx : s.slot c = some x) (hl : x.life ≠ .finalized)
      (ha : s.platform.admitted .read s.addrArg (64 * s.lenArg) = true) :
      Effect s (.xform c) (s.setSlot c (some (x.afterXform s.mem s.addrArg s.lenArg))).clobberXmm
  | primitive {i : Instr} (d : XReg) (v : Vec) (hi : i.command = none) : Effect s i (s.setReg d v)

section Commands

variable {s t : State} {c : Nat}

theorem effect_of_execUpdate (h : execUpdate c s = .next t) : Effect s (.update c) t := by
  have fault (code : FaultCode) : Effect s (.update c) (s.raiseFault code 2#4 (BitVec.ofNat 8 c)) := .fault code rfl
  refine Host.Outcome.next.inj h ▸ State.atSlot_elim fault fun _ _ => State.unfinished_elim fault fun x hx hl => ?_
  split
  · exact fault _
  · next hn => exact State.withRange_elim fault fun ha => .update hx hl (Nat.not_lt.1 hn) ha

theorem effect_of_execFinal (h : execFinal c s = .next t) : Effect s (.final c) t := by
  have fault (code : FaultCode) : Effect s (.final c) (s.raiseFault code 3#4 (BitVec.ofNat 8 c)) := .fault code rfl
  exact Host.Outcome.next.inj h ▸ State.atSlot_elim fault fun _ _ => State.unfinished_elim fault fun x hx hl =>
    State.withRange_elim fault fun ha => .final hx hl ha

theorem effect_of_execClone {src : Nat} (h : execClone c src s = .next t) : Effect s (.clone c src) t := by
  have fault (code : FaultCode) : Effect s (.clone c src) (s.raiseFault code 4#4 (BitVec.ofNat 8 c)) := .fault code rfl
  refine Host.Outcome.next.inj h ▸ State.atSlot_elim fault fun _ hc => ?_
  split
  · exact fault _
  · split
    · exact fault _
    · next x hx => exact .clone hc hx

theorem effect_of_execReset (h : execReset c s = .next t) : Effect s (.reset c) t := by
  have fault (code : FaultCode) : Effect s (.reset c) (s.raiseFault code 5#4 (BitVec.ofNat 8 c)) := .fault code rfl
  exact Host.Outcome.next.inj h ▸ State.atSlot_elim fault fun _ _ => State.inUse_elim fault fun x hx => .reset hx

theorem effect_of_execRelease (h : execRelease c s = .next t) : Effect s (.release c) t := by
  have fault (code : FaultCode) : Effect s (.release c) (s.raiseFault code 6#4 (BitVec.ofNat 8 c)) := .fault code rfl
  exact Host.Outcome.next.inj h ▸ State.atSlot_elim fault fun _ _ => State.inUse_elim fault fun x hx => .release hx

theorem effect_of_execXform (h : execXform c s = .next t) : Effect s (.xform c) t := by
  have fault (code : FaultCode) : Effect s (.xform c) (s.raiseFault code 7#4 (BitVec.ofNat 8 c)) := .fault code rfl
  exact Host.Outcome.next.inj h ▸ State.atSlot_elim fault fun _ _ => State.unfinished_elim fault fun x hx hl =>
    State.withRange_elim fault fun ha => .xform hx hl ha

end Commands

/-- A primitive writes one datapath register (R147). -/
theorem exec_primitive {i : Instr} (hi : i.command = none) (s : State) :
    ∃ d v, exec i s = .next (s.setReg d v) := by
  cases i <;> cases hi -- the thirteen primitives remain
  all_goals exact ⟨_, _, rfl⟩

theorem effect_of_exec_primitive {i : Instr} {s t : State} (hi : i.command = none) (h : exec i s = .next t) :
    Effect s i t := by
  obtain ⟨d, v, e⟩ := exec_primitive hi s
  exact Host.Outcome.next.inj (e ▸ h) ▸ .primitive d v hi

/-- What `exec` answers is an effect of its instruction. -/
theorem effect_of_exec {i : Instr} {s t : State} (h : exec i s = .next t) : Effect s i t := by
  cases i with
  | initSha1 c => exact Host.Outcome.next.inj h ▸ State.atSlot_elim (fun code => .fault code rfl) fun _ hc => .initSha1 hc
  | initSha256 c => exact Host.Outcome.next.inj h ▸ State.atSlot_elim (fun code => .fault code rfl) fun _ hc => .initSha256 hc
  | initSha224 c => exact Host.Outcome.next.inj h ▸ State.atSlot_elim (fun code => .fault code rfl) fun _ hc => .initSha224 hc
  | update c => exact effect_of_execUpdate h
  | final c => exact effect_of_execFinal h
  | clone c src => exact effect_of_execClone h
  | reset c => exact effect_of_execReset h
  | release c => exact effect_of_execRelease h
  | xform c => exact effect_of_execXform h
  | _ => exact effect_of_exec_primitive rfl h

/-! ## What an input can make of the state -/

/-- A read of the window changes the read port and the draw count, and nothing else. -/
def State.onlyRead (s t : State) : Prop := ∃ v k, t = { s with readData := v, draws := k }

theorem State.onlyRead_returns (s : State) (v : Word) : s.onlyRead (s.returns v) := ⟨v, s.draws, rfl⟩

theorem State.onlyRead_returns_drawn (s : State) (v : Word) : s.onlyRead (s.returns v).drawn := ⟨v, s.draws + 1, rfl⟩

theorem State.onlyRead_returnsField (s : State) (f : HashState → Word) : s.onlyRead (s.returnsField f) := by
  unfold State.returnsField
  split
  · exact s.onlyRead_returns_drawn _
  · exact s.onlyRead_returns _

theorem State.onlyRead_returnsStatus (s : State) : s.onlyRead s.returnsStatus := by
  unfold State.returnsStatus
  split
  · exact s.onlyRead_returns _
  · split
    · exact s.onlyRead_returns_drawn _
    · exact s.onlyRead_returns _
    · exact s.onlyRead_returns _

theorem State.onlyRead_windowRead (s : State) (off : BitVec 8) : s.onlyRead (s.windowRead off) := by
  unfold State.windowRead
  split <;> simp only [State.onlyRead_returns, State.onlyRead_returnsField, State.onlyRead_returnsStatus]

/-- What a write of the window other than to CMD can do: write the argument registers (or leave all as it is), acknowledge a
fault, or select a slot. -/
theorem State.windowWrite_cases (s : State) (off : BitVec 8) (w : Word) :
    (∃ addr len, s.windowWrite off w = { s with argAddr := addr, argLen := len }) ∨
    s.windowWrite off w = s.ackFault w ∨
    ((w.extractLsb' 0 8).toNat < s.nCtx ∧ s.windowWrite off w = { s with ctxSel := w.extractLsb' 0 8 }) := by
  unfold State.windowWrite
  split
  · exact .inl ⟨_, s.argLen, rfl⟩
  · exact .inl ⟨_, s.argLen, rfl⟩
  · exact .inl ⟨s.argAddr, _, rfl⟩
  · exact .inl ⟨s.argAddr, _, rfl⟩
  · exact .inr (.inl rfl)
  · unfold State.select
    split
    · next hw => exact .inr (.inr ⟨hw, rfl⟩)
    · exact .inl ⟨s.argAddr, s.argLen, rfl⟩
  · exact .inl ⟨s.argAddr, s.argLen, rfl⟩

/-- `Reaction s e t`: input `e` may take state `s` to `t`. -/
inductive Reaction (s : State) : Input → State → Prop where
  | read {off : BitVec 8} (ha : aligned off = true) : Reaction s (.hostRead off) (s.windowRead off)
  | command {w : Word} {i : Instr} {t : State} (hd : decodeCommand w = some i) (h : Effect s i t) :
      Reaction s (.hostWrite cmdOffset w) t
  | illegal {w : Word} (hd : decodeCommand w = none) : Reaction s (.hostWrite cmdOffset w) (s.illegalCommand w)
  | write {off : BitVec 8} {w : Word} (ha : aligned off = true) (hoff : off ≠ cmdOffset) :
      Reaction s (.hostWrite off w) (s.windowWrite off w)
  | load {a : DWord} : Reaction s (.memLoad a) (s.returns ((s.mem.read a.toNat).setWidth 32))
  | store {a : DWord} {b : Byte} : Reaction s (.memStore a b) { s with mem := s.mem.write a.toNat b }
  | platformReset : Reaction s .platformReset s.platformReset
  | issue {bytes : List Byte} {i : Instr} {t : State} (hd : decodePrimitive bytes = some i) (h : Effect s i t) :
      Reaction s (.datapath bytes) t

section Inputs

variable {s t : State}

theorem reaction_of_execute {w : Word} (h : execute w s = .next t) : Reaction s (.hostWrite cmdOffset w) t := by
  unfold execute at h
  split at h
  · next i hd => exact .command hd (effect_of_exec h)
  · next hd => exact Host.Outcome.next.inj h ▸ .illegal hd

theorem reaction_of_hostRead {off : BitVec 8} (h : hostRead off s = .next t) : Reaction s (.hostRead off) t := by
  unfold hostRead at h
  split at h
  · next ha => exact Host.Outcome.next.inj h ▸ .read ha
  · cases h

theorem reaction_of_hostWrite {off : BitVec 8} {w : Word} (h : hostWrite off w s = .next t) :
    Reaction s (.hostWrite off w) t := by
  unfold hostWrite at h
  split at h
  · cases h
  · next ha =>
    split at h
    · next hoff => exact hoff ▸ reaction_of_execute h
    · next hoff => exact Host.Outcome.next.inj h ▸ .write (eq_true_of_ne_false ha) hoff

theorem reaction_of_hostLoad {a : DWord} (h : hostLoad a s = .next t) : Reaction s (.memLoad a) t := by
  unfold hostLoad at h
  split at h
  · cases h
  · exact Host.Outcome.next.inj h ▸ .load

theorem reaction_of_hostStore {a : DWord} {b : Byte} (h : hostStore a b s = .next t) : Reaction s (.memStore a b) t := by
  unfold hostStore at h
  split at h
  · cases h
  · exact Host.Outcome.next.inj h ▸ .store

theorem reaction_of_issue {bytes : List Byte} (h : issue bytes s = .next t) : Reaction s (.datapath bytes) t := by
  unfold issue at h
  split at h
  · cases h
  · split at h
    · next i hd => exact .issue hd (effect_of_exec h)
    · cases h

/-- What an input makes of the state is one of its reactions. -/
theorem reaction_of_receive {e : Input} (h : receive e s = .next t) : Reaction s e t := by
  cases e with
  | hostRead off => exact reaction_of_hostRead h
  | hostWrite off w => exact reaction_of_hostWrite h
  | memLoad a => exact reaction_of_hostLoad h
  | memStore a b => exact reaction_of_hostStore h
  | platformReset => exact Host.Outcome.next.inj h ▸ .platformReset
  | datapath bytes => exact reaction_of_issue h

/-- A step is idle, or takes the first input and reacts to it. -/
theorem step_cases (h : step s = .next t) :
    (s.pending = [] ∧ t = s) ∨ ∃ e rest, s.pending = e :: rest ∧ Reaction { s with pending := rest } e t := by
  unfold step at h
  split at h
  · next hp => exact .inl ⟨hp, (Host.Outcome.next.inj h).symm⟩
  · next e rest hp => exact .inr ⟨e, rest, hp, reaction_of_receive h⟩

end Inputs

end Sys2Proof.Machine
end

section
/-! What no step changes: the platform's parameters and the number of slots (R7, R50). -/

namespace Sys2Proof.Machine

/-- The platform and the number of slots are as before. -/
def State.sameConfig (s t : State) : Prop := t.platform = s.platform ∧ t.nCtx = s.nCtx

theorem State.nCtx_platformReset (s : State) : s.platformReset.nCtx = s.nCtx :=
  List.length_replicate

theorem State.sameConfig_setSlot (s : State) (c : Nat) (o : Option HashState) : s.sameConfig (s.setSlot c o) :=
  ⟨rfl, s.nCtx_setSlot c o⟩

theorem State.sameConfig_windowRead (s : State) (off : BitVec 8) : s.sameConfig (s.windowRead off) := by
  obtain ⟨v, k, e⟩ := s.onlyRead_windowRead off
  exact e ▸ ⟨rfl, rfl⟩

theorem State.sameConfig_windowWrite (s : State) (off : BitVec 8) (w : Word) : s.sameConfig (s.windowWrite off w) := by
  rcases s.windowWrite_cases off w with ⟨_, _, e⟩ | e | ⟨_, e⟩ <;> exact e ▸ ⟨rfl, rfl⟩

theorem Effect.sameConfig {s t : State} {i : Instr} (h : Effect s i t) : s.sameConfig t := by
  cases h with
  | fault => exact ⟨rfl, rfl⟩
  | primitive => exact ⟨rfl, rfl⟩
  | _ => exact s.sameConfig_setSlot _ _

theorem Reaction.sameConfig {s t : State} {e : Input} (h : Reaction s e t) : s.sameConfig t := by
  cases h with
  | read => exact s.sameConfig_windowRead _
  | write => exact s.sameConfig_windowWrite _ _
  | command _ h => exact h.sameConfig
  | issue _ h => exact h.sameConfig
  | platformReset => exact ⟨rfl, s.nCtx_platformReset⟩
  | _ => exact ⟨rfl, rfl⟩

/-- Settles O41: every reaction keeps the platform and the number of slots. -/
theorem platformConstant : Obligations.PlatformConstant := by
  intro s t h
  rcases step_cases h with ⟨_, rfl⟩ | ⟨e, rest, _, hr⟩
  · exact ⟨rfl, rfl⟩
  · exact hr.sameConfig

end Sys2Proof.Machine
end

section
/-! The invariant, one lemma per part: what compression leaves of a SHA-1 slot, what each command makes of its slot, what a
fault and its acknowledgement make of ERR. -/

namespace Sys2Proof.Machine

/-! ## Slots -/

/-- H[5] = H[6] = H[7] = 0, as R24 asks of a SHA-1 slot. -/
abbrev Sha1Zeros (h : Vector Word 8) : Prop := h[5] = 0#32 ∧ h[6] = 0#32 ∧ h[7] = 0#32

theorem sha1Zeros_compress {h : Vector Word 8} (hz : Sha1Zeros h) (blk : List Byte) : Sha1Zeros (compress .sha1 h blk) := hz

theorem sha1Zeros_compressBlocks {h : Vector Word 8} (hz : Sha1Zeros h) (n : Nat) (d : List Byte) :
    Sha1Zeros (compressBlocks .sha1 n h d) := by
  obtain ⟨h5, h6, h7⟩ := hz
  obtain ⟨e5, e6, e7⟩ := compressBlocks_sha1_high n h d
  exact ⟨e5.trans h5, e6.trans h6, e7.trans h7⟩

theorem sha1Zeros_foldl_compress {h : Vector Word 8} (hz : Sha1Zeros h) (blks : List (List Byte)) :
    Sha1Zeros (blks.foldl (compress .sha1) h) :=
  List.foldlRecOn blks (compress .sha1) hz fun _ hh blk _ => sha1Zeros_compress hh blk

theorem sha1Zeros_iv : Sha1Zeros (iv .sha1) := ⟨rfl, rfl, rfl⟩

/-- A slot as INIT leaves it (R210). -/
theorem HashState.wf_of_init (alg : Alg) (buf : Vector Byte 64) : HashState.wf ⟨.fresh, alg, iv alg, buf, 0#7, 0#64⟩ :=
  ⟨Nat.zero_le _, fun (ha : alg = .sha1) => ha ▸ sha1Zeros_iv, fun _ => rfl, fun _ => ⟨rfl, rfl, rfl⟩⟩

/-- UPDATE within LEN_LIMIT: `total` does not wrap, so `plen` stays `total` mod 64 (R25, R211). -/
theorem HashState.wf_afterUpdate {x : HashState} (hx : x.wf) (hl : x.life ≠ .finalized) (m : Memory) (a : Nat) {n : Nat}
    (hn : x.total.toNat + n ≤ Config.lenLimit) : (x.afterUpdate m a n).wf := by
  obtain ⟨_, hzeros, hplen, _⟩ := hx
  have hp := hplen hl
  obtain ⟨halg, _, _, hh, hlen, _⟩ := absorb_spec x (m.readBytes a n) (by omega)
  have htotal : (x.afterUpdate m a n).total.toNat = x.total.toNat + n :=
    Nat.mod_eq_of_lt (Nat.lt_of_le_of_lt hn (by decide))
  refine ⟨htotal ▸ hn, fun ha => ?_, fun _ => ?_, nofun⟩
  · have ha : x.alg = .sha1 := halg.symm.trans ha
    show Sha1Zeros (x.absorb (m.readBytes a n)).h
    rw [hh, ha]
    exact sha1Zeros_compressBlocks (hzeros ha) _ _
  · rw [htotal]
    refine hlen.trans ?_
    simp only [List.length_append, List.length_take, Vector.length_toList, Memory.length_readBytes]
    omega

theorem HashState.wf_afterFinal {x : HashState} (hx : x.wf) (k : Nat) : (x.afterFinal k).wf := by
  obtain ⟨htotal, hzeros, _, _⟩ := hx
  refine ⟨htotal, fun (ha : x.alg = .sha1) => ?_, fun hl => absurd rfl hl, nofun⟩
  show Sha1Zeros x.finalChain
  rw [HashState.finalChain, ha]
  exact sha1Zeros_foldl_compress (hzeros ha) _

theorem HashState.wf_afterXform {x : HashState} (hx : x.wf) (hl : x.life ≠ .finalized) (m : Memory) (a n : Nat) :
    (x.afterXform m a n).wf := by
  obtain ⟨htotal, hzeros, hplen, _⟩ := hx
  refine ⟨htotal, fun (ha : x.alg = .sha1) => ?_, fun _ => hplen hl, nofun⟩
  show Sha1Zeros (transform m x.alg n x.h a)
  rw [transform_eq, ha]
  exact sha1Zeros_compressBlocks (hzeros ha) _ _

/-! ## ERR and host memory -/

theorem ErrReg.wf_clear : ErrReg.clear.wf := by decide

theorem ErrReg.wf_record {e : ErrReg} (he : e.wf) (code : FaultCode) (op : BitVec 4) (ctx : BitVec 8) :
    (e.record code op ctx).wf := by
  unfold ErrReg.record
  split
  · exact he
  · exact ⟨fun _ => code.number_range, nofun⟩

theorem ErrReg.wf_ack {e : ErrReg} (he : e.wf) (w : Word) : (e.ack w).wf := by
  unfold ErrReg.ack
  cases w.getLsbD 0
  · exact he
  · exact ⟨fun hv => absurd hv Bool.false_ne_true, fun _ => ⟨rfl, rfl, rfl⟩⟩

/-- An admitted range ends inside the address space; an empty one begins there when its address is a u64 (R62). -/
theorem Platform.le_of_admitted {p : Platform} {kind : AccessKind} {a : DWord} {n : Nat}
    (h : p.admitted kind a.toNat n = true) : a.toNat + n ≤ Config.addrSpace := by
  simp only [Platform.admitted, Bool.or_eq_true, Bool.and_eq_true, decide_eq_true_eq] at h
  rcases h with rfl | ⟨⟨h, _⟩, _⟩
  · exact Nat.le_of_lt a.isLt
  · exact h

/-! ## The whole state -/

section Inv

variable {s t : State} (h : s.Inv)
include h

theorem State.Inv.wf_slot {c : Nat} {x : HashState} (hx : s.slot c = some x) : x.wf := by
  obtain ⟨_, _, _, _, _, _, hslots⟩ := h
  exact hslots _ (State.mem_of_slot hx) x rfl

theorem State.Inv.setSlot (c : Nat) {o : Option HashState} (ho : ∀ x ∈ o, x.wf) : (s.setSlot c o).Inv := by
  obtain ⟨hp, h1, h256, hsel, he, hm, hslots⟩ := h
  have hn := s.nCtx_setSlot c o
  refine ⟨hp, hn ▸ h1, hn ▸ h256, hn ▸ hsel, he, hm, fun o' ho' => ?_⟩
  rcases List.mem_or_eq_of_mem_set ho' with hmem | rfl
  · exact hslots o' hmem
  · exact ho

theorem State.Inv.setSlot_some (c : Nat) {x : HashState} (hx : x.wf) : (s.setSlot c (some x)).Inv :=
  h.setSlot c fun _ hy => Option.some.inj hy ▸ hx

theorem State.Inv.init (c : Nat) (alg : Alg) : (s.init c alg).Inv :=
  h.setSlot_some c (HashState.wf_of_init alg _)

theorem State.Inv.setErr {e : ErrReg} (he : e.wf) : State.Inv { s with err := e } := by
  obtain ⟨hp, h1, h256, hsel, _, hm, hslots⟩ := h
  exact ⟨hp, h1, h256, hsel, he, hm, hslots⟩

theorem State.Inv.setMem {m : Memory} (hm : m.wf = true) : State.Inv { s with mem := m } := by
  obtain ⟨hp, h1, h256, hsel, he, _, hslots⟩ := h
  exact ⟨hp, h1, h256, hsel, he, hm, hslots⟩

theorem State.Inv.setCtxSel {k : BitVec 8} (hk : k.toNat < s.nCtx) : State.Inv { s with ctxSel := k } := by
  obtain ⟨hp, h1, h256, _, he, hm, hslots⟩ := h
  exact ⟨hp, h1, h256, hk, he, hm, hslots⟩

theorem State.Inv.wf_err : s.err.wf := by
  obtain ⟨_, _, _, _, he, _, _⟩ := h
  exact he

theorem State.Inv.wf_mem : s.mem.wf = true := by
  obtain ⟨_, _, _, _, _, hm, _⟩ := h
  exact hm

theorem State.Inv.raiseFault (code : FaultCode) (op : BitVec 4) (ctx : BitVec 8) : (s.raiseFault code op ctx).Inv :=
  h.setErr (ErrReg.wf_record h.wf_err code op ctx)

/-- FINAL stores inside the address space, at the range it was admitted to. -/
theorem State.Inv.wf_mem_final {x : HashState}
    (ha : s.platform.admitted .write s.addrArg (min s.lenArg (dsize x.alg)) = true) :
    (s.mem.writeBytes s.addrArg (x.output s.lenArg)).wf = true :=
  Memory.wf_writeBytes _ h.wf_mem (by rw [x.length_output]; exact Platform.le_of_admitted ha)

theorem State.Inv.platformReset : s.platformReset.Inv := by
  obtain ⟨hp, h1, h256, _, _, hm, _⟩ := h
  have hn := s.nCtx_platformReset
  refine ⟨hp, hn ▸ h1, hn ▸ h256, hn ▸ h1, ErrReg.wf_clear, hm, fun o ho x hx => ?_⟩
  obtain rfl := List.eq_of_mem_replicate ho
  cases hx

theorem State.Inv.windowRead (off : BitVec 8) : (s.windowRead off).Inv := by
  obtain ⟨v, k, e⟩ := s.onlyRead_windowRead off
  exact e ▸ h

theorem State.Inv.windowWrite (off : BitVec 8) (w : Word) : (s.windowWrite off w).Inv := by
  rcases s.windowWrite_cases off w with ⟨_, _, e⟩ | e | ⟨hw, e⟩
  · exact e ▸ h
  · exact e ▸ h.setErr (ErrReg.wf_ack h.wf_err w)
  · exact e ▸ h.setCtxSel hw

theorem State.Inv.effect {i : Instr} (hi : Effect s i t) : t.Inv := by
  cases hi with
  | fault code => exact h.raiseFault code _ _
  | initSha1 => exact h.init _ _
  | initSha256 => exact h.init _ _
  | initSha224 => exact h.init _ _
  | update hx hl hn => exact h.setSlot_some _ (HashState.wf_afterUpdate (h.wf_slot hx) hl _ _ hn)
  | final hx _ ha => exact (h.setSlot_some _ (HashState.wf_afterFinal (h.wf_slot hx) _)).setMem (h.wf_mem_final ha)
  | clone _ hx => exact h.setSlot_some _ (h.wf_slot hx)
  | reset => exact h.init _ _
  | release => exact h.setSlot _ nofun
  | xform hx hl => exact h.setSlot_some _ (HashState.wf_afterXform (h.wf_slot hx) hl _ _ _)
  | primitive => exact h

theorem State.Inv.reaction {e : Input} (he : Reaction s e t) : t.Inv := by
  cases he with
  | read => exact h.windowRead _
  | write => exact h.windowWrite _ _
  | command _ hi => exact h.effect hi
  | illegal => exact h.raiseFault _ _ _
  | load => exact h
  | store => exact h.setMem (Memory.wf_write h.wf_mem _ (BitVec.isLt _))
  | platformReset => exact h.platformReset
  | issue _ hi => exact h.effect hi

end Inv

/-- Settles O54: taking the input off the queue changes nothing the invariant speaks of, and every reaction keeps it. -/
theorem stepKeepsInv : Obligations.StepKeepsInv := by
  intro s t h hstep
  rcases step_cases hstep with ⟨_, rfl⟩ | ⟨e, rest, _, hr⟩
  · exact h
  · have hrest : State.Inv { s with pending := rest } := h
    exact hrest.reaction hr

end Sys2Proof.Machine
end

section
/-! The register window: the words CAP, ERR and CTX_STATUS field by field (R39, R43, R45), and what a read and a write of
each offset is (R38 to R48). -/

namespace Sys2Proof.Machine

/-! ## The status words, field by field -/

/-- A one-bit field is its bit. -/
theorem getLsbD_of_extractLsb' {w : Word} {i : Nat} {b : Bool} (h : w.extractLsb' i 1 = BitVec.ofBool b) :
    w.getLsbD i = b := by
  simpa using congrArg (fun x => x.getLsbD 0) h

theorem capWord_fields (b : Bool) (n : Nat) :
    (capWord b n).extractLsb' 0 1 = BitVec.ofBool b ∧ (capWord b n).extractLsb' 1 1 = BitVec.ofBool b ∧
      (capWord b n).extractLsb' 2 1 = BitVec.ofBool b ∧ (capWord b n).extractLsb' 3 1 = BitVec.ofBool b ∧
      (capWord b n).extractLsb' 4 12 = 0#12 ∧ (capWord b n).extractLsb' 16 9 = BitVec.ofNat 9 n ∧
      (capWord b n).extractLsb' 25 7 = 0#7 := by
  have parts (lo k : Nat) : (capWord b n).extractLsb' lo k = BitVec.extractLsb' (n := 7 + 9 + 12 + 1 + 1 + 1 + 1) lo k
      (0#7 ++ BitVec.ofNat 9 n ++ 0#12 ++ BitVec.ofBool b ++ BitVec.ofBool b ++ BitVec.ofBool b ++ BitVec.ofBool b) := rfl
  refine ⟨?_, ?_, ?_, ?_, ?_, ?_, ?_⟩
  all_goals
    rw [parts]
    simp (disch := decide) only [-Nat.reduceAdd, Nat.reduceSub, BitVec.extractLsb'_append_eq_of_le,
      BitVec.extractLsb'_append_eq_of_add_le, BitVec.extractLsb'_eq_self]

theorem ErrReg.word_fields (e : ErrReg) :
    e.word.extractLsb' 0 1 = BitVec.ofBool e.valid ∧ e.word.extractLsb' 1 1 = BitVec.ofBool e.ovf ∧
      e.word.extractLsb' 2 6 = 0#6 ∧ e.word.extractLsb' 8 4 = e.code ∧ e.word.extractLsb' 12 4 = e.op ∧
      e.word.extractLsb' 16 8 = e.ctx ∧ e.word.extractLsb' 24 8 = 0#8 := by
  have parts (lo k : Nat) : e.word.extractLsb' lo k = BitVec.extractLsb' (n := 8 + 8 + 4 + 4 + 6 + 1 + 1) lo k
      (0#8 ++ e.ctx ++ e.op ++ e.code ++ 0#6 ++ BitVec.ofBool e.ovf ++ BitVec.ofBool e.valid) := rfl
  refine ⟨?_, ?_, ?_, ?_, ?_, ?_, ?_⟩
  all_goals
    rw [parts]
    simp (disch := decide) only [-Nat.reduceAdd, Nat.reduceSub, BitVec.extractLsb'_append_eq_of_le,
      BitVec.extractLsb'_append_eq_of_add_le, BitVec.extractLsb'_eq_self]

theorem statusWord_fields (x : HashState) (plen : BitVec 7) :
    (statusWord x plen).extractLsb' 0 2 = lifeNumber (some x) ∧ (statusWord x plen).extractLsb' 2 2 = 0#2 ∧
      (statusWord x plen).extractLsb' 4 2 = x.alg.number ∧ (statusWord x plen).extractLsb' 6 2 = 0#2 ∧
      (statusWord x plen).extractLsb' 8 7 = plen ∧ (statusWord x plen).extractLsb' 15 17 = 0#17 := by
  have parts (lo k : Nat) : (statusWord x plen).extractLsb' lo k = BitVec.extractLsb' (n := 17 + 7 + 2 + 2 + 2 + 2) lo k
      (0#17 ++ plen ++ 0#2 ++ x.alg.number ++ 0#2 ++ lifeNumber (some x)) := rfl
  refine ⟨?_, ?_, ?_, ?_, ?_, ?_⟩
  all_goals
    rw [parts]
    simp (disch := decide) only [-Nat.reduceAdd, Nat.reduceSub, BitVec.extractLsb'_append_eq_of_le,
      BitVec.extractLsb'_append_eq_of_add_le, BitVec.extractLsb'_eq_self]

/-! ## Reads -/

theorem State.onlyRead.eq_readData_draws {s t : State} (h : s.onlyRead t) :
    t = { s with readData := t.readData, draws := t.draws } := by
  obtain ⟨v, k, rfl⟩ := h
  rfl

theorem hostRead_of_aligned {off : BitVec 8} (h : off.toNat % 4 = 0) (s : State) :
    hostRead off s = .next (s.windowRead off) :=
  if_pos (decide_eq_true h)

theorem State.returnsField_readData {s : State} {x : HashState} (h : s.selected = some x) (f : HashState → Word) :
    (s.returnsField f).readData = f x := by
  rw [State.returnsField, h]
  rfl

/-- The eight offsets of CTX_H (R47). -/
theorem State.windowRead_h (s : State) {i : Nat} (hi : i < 8) :
    s.windowRead (BitVec.ofNat 8 (0x30 + 4 * i)) = s.returnsField fun x => x.h[i] := by
  interval_cases i <;> rfl

/-- CMD and the offsets that no register has read 0 (R40, R48). -/
theorem State.windowRead_zero (s : State) {off : BitVec 8} (ha : off.toNat % 4 = 0)
    (h : off.toNat = 0x04 ∨ off.toNat = 0x2C ∨ 0x50 ≤ off.toNat) : s.windowRead off = s.returns 0#32 := by
  unfold State.windowRead
  split
  case h_19 => rfl
  all_goals omega

/-- A slot in use reads as its status word, with a PLEN that is its own outside FINALIZED (R45). -/
theorem State.returnsStatus_readData {s : State} {x : HashState} (h : s.selected = some x) :
    ∃ plen, s.returnsStatus.readData = statusWord x plen ∧ (x.life ≠ .finalized → plen = x.plen) := by
  simp only [State.returnsStatus, h]
  split
  · next hl => exact ⟨_, rfl, fun hne => absurd hl hne⟩
  · exact ⟨_, rfl, fun _ => rfl⟩
  · exact ⟨_, rfl, fun _ => rfl⟩

theorem State.returnsStatus_free {s : State} (h : s.selected = none) : s.returnsStatus = s.returns 0#32 := by
  rw [State.returnsStatus, h]

/-! ## Writes -/

theorem setHigh_setLow (x : DWord) (lo hi : Word) : setHigh (setLow x lo) hi = hi ++ lo := by
  rw [setHigh, setLow, BitVec.extractLsb'_append_eq_right]

theorem State.windowWrite_select (s : State) (w : Word) :
    s.windowWrite 0x1C#8 w =
      if w.toNat % 256 < s.nCtx then { s with ctxSel := BitVec.ofNat 8 (w.toNat % 256) } else s := by
  have hw : w.extractLsb' 0 8 = BitVec.ofNat 8 (w.toNat % 256) := by
    apply BitVec.eq_of_toNat_eq
    simp
  show s.select w = _
  rw [State.select, hw, BitVec.toNat_ofNat, Nat.mod_mod]

/-! ## The obligations on reads -/

/-- Settles O42: by the fields of the word; the write falls to an offset that ignores it. -/
theorem capReads : Obligations.CapReads := by
  intro s hn
  obtain ⟨h0, h1, h2, h3, hlow, hn9, hhigh⟩ := capWord_fields s.platform.hasShaExt s.nCtx
  have hcount : (BitVec.ofNat 9 s.nCtx).toNat = s.nCtx := Nat.mod_eq_of_lt (by omega)
  exact ⟨⟨_, rfl, getLsbD_of_extractLsb' h0, getLsbD_of_extractLsb' h1, getLsbD_of_extractLsb' h2,
    getLsbD_of_extractLsb' h3, hlow, hn9 ▸ hcount, hhigh⟩, fun _ => rfl⟩

/-- Settles O44: by the fields of the word. -/
theorem errReads : Obligations.ErrReads := by
  intro s
  obtain ⟨hvalid, hovf, hrest⟩ := s.err.word_fields
  exact ⟨_, rfl, getLsbD_of_extractLsb' hvalid, getLsbD_of_extractLsb' hovf, hrest⟩

/-- Settles O46: a FREE slot reads 0, and any other the fields of its status word. -/
theorem ctxStatusReads : Obligations.CtxStatusReads := by
  intro s
  refine ⟨s.returnsStatus, rfl, fun h => by rw [State.returnsStatus_free h]; rfl, fun x hx => ?_⟩
  obtain ⟨plen, e, hplen⟩ := State.returnsStatus_readData hx
  obtain ⟨hlife, h2, halg, h6, hp, h15⟩ := statusWord_fields x plen
  rw [e]
  exact ⟨hlife, halg, fun hl => hp.trans (hplen hl), h2, h6, h15⟩

/-- Settles O47: each offset reads one field of the selected slot. -/
theorem ctxFieldsRead : Obligations.CtxFieldsRead := by
  intro s
  have frame (f : HashState → Word) := (s.onlyRead_returnsField f).eq_readData_draws
  refine ⟨⟨_, rfl, frame _, fun x hx => ?_⟩, ⟨_, rfl, frame _, fun x hx => ?_⟩, fun i hi => ?_⟩
  · refine (State.returnsField_readData hx _).trans (BitVec.eq_of_toNat_eq ?_)
    simp
  · refine (State.returnsField_readData hx _).trans (BitVec.eq_of_toNat_eq ?_)
    simp [Nat.shiftRight_eq_div_pow]
  · have hoff : (BitVec.ofNat 8 (0x30 + 4 * i)).toNat % 4 = 0 := by rw [BitVec.toNat_ofNat]; omega
    rw [hostRead_of_aligned hoff, s.windowRead_h hi]
    refine ⟨_, rfl, frame _, fun x hx => ?_⟩
    rw [State.returnsField_readData hx]
    refine ⟨by simp [hi], fun hinv ha h5 => ?_⟩
    obtain ⟨_, hzeros, _⟩ := hinv.wf_slot hx
    obtain ⟨h5', h6', h7'⟩ := hzeros ha
    obtain rfl | rfl | rfl : i = 5 ∨ i = 6 ∨ i = 7 := by omega
    · exact h5'
    · exact h6'
    · exact h7'

/-- Settles O48: by what a read can change, and the offsets that no register has. -/
theorem readsHaveNoSideEffect : Obligations.ReadsHaveNoSideEffect := by
  intro s o ha
  refine ⟨_, hostRead_of_aligned ha s, (s.onlyRead_windowRead o).eq_readData_draws, fun h => ?_⟩
  have hoff : o.toNat = 0x04 ∨ o.toNat = 0x2C ∨ 0x50 ≤ o.toNat :=
    h.imp (congrArg BitVec.toNat) (Or.imp_left (congrArg BitVec.toNat))
  exact congrArg State.readData (s.windowRead_zero ha hoff)

end Sys2Proof.Machine
end

section
/-! Reset (R49, R280) and the host's own memory accesses (R21, R73). -/

namespace Sys2Proof.Machine

theorem State.slot_resetOf (p : Platform) (n : Nat) (mem : Memory) (c : Nat) : (State.resetOf p n mem).slot c = none :=
  (List.getD_eq_getElem?_getD ..).trans (List.getElem?_getD_replicate_default_eq none n c)

theorem ErrReg.word_clear : ErrReg.clear.word = 0#32 := by decide

theorem State.nCtx_resetOf (p : Platform) (n : Nat) (mem : Memory) : (State.resetOf p n mem).nCtx = n :=
  List.length_replicate

/-- Settles O50: every slot is FREE, so CTX_STATUS reads 0. -/
theorem resetLeaves : Obligations.ResetLeaves := by
  intro p n mem
  have hfree := State.slot_resetOf p n mem
  refine ⟨rfl, State.nCtx_resetOf p n mem, rfl, rfl, ErrReg.word_clear, rfl, hfree, _, rfl, ?_⟩
  exact congrArg State.readData (State.returnsStatus_free (hfree 0))

/-- Settles O51: the engine's part of the state is that of reset. -/
theorem platformResetLeaves : Obligations.PlatformResetLeaves := fun s =>
  ⟨_, rfl, rfl, s.nCtx_platformReset, rfl, rfl, rfl, rfl, State.slot_resetOf s.platform s.nCtx s.mem, fun _ => rfl⟩

/-- Settles O53: by what a byte reads as after a write, to its address and to another. -/
theorem hostMemoryAccess : Obligations.HostMemoryAccess := by
  intro s a b h
  have hload : receive (.memLoad a) s = .next (s.returns ((s.mem.read a.toNat).setWidth 32)) :=
    if_neg (Bool.not_eq_true _ ▸ h)
  have hstore : receive (.memStore a b) s = .next { s with mem := s.mem.write a.toNat b } :=
    if_neg (Bool.not_eq_true _ ▸ h)
  refine ⟨⟨_, hstore, rfl, Memory.read_write_same _ _ _, fun k hk => ?_⟩, _, hload, rfl, ?_⟩
  · exact Memory.read_write_other _ _ _ (by omega)
  · simp only [State.returns_readData, BitVec.toNat_setWidth]
    omega

/-- Settles O55: no slot is in use, ERR is clear and no memory is listed. -/
theorem resetMeetsInv : Obligations.ResetMeetsInv := by
  refine ⟨by decide, by decide, by decide, by decide, ErrReg.wf_clear, Memory.wf_nil, fun o ho x hx => ?_⟩
  obtain rfl := List.eq_of_mem_replicate ho
  cases hx

end Sys2Proof.Machine
end

section
/-! What the instructions of each encoding are: a command word decodes to a command with the word's OP and CTX fields (R80,
R87), and the bytes of a primitive to no command (R91). -/

namespace Sys2Proof

/-- Each row of R87 masks all four bits of OP, and its instruction has the OP of its pattern. -/
theorem commandRows_command : ∀ r ∈ commandRows, ∀ c src,
    fieldOp r.mask = 0xF#4 ∧ (r.make c src).command = some (fieldOp r.pattern, c) := by
  simp [commandRows, Instr.command, fieldOp, field]

theorem primitiveRows_command : ∀ r ∈ primitiveRows, ∀ d m imm, (r.make d m imm).command = none := by
  simp [primitiveRows, Instr.command]

/-- Every row of R87 masks OP whole, so OP is the pattern's. -/
theorem decodeCommand_command {w : Word} {i : Instr} (h : decodeCommand w = some i) :
    i.command = some (fieldOp w, (fieldCtx w).toNat) := by
  obtain ⟨r, hr, rfl⟩ := Option.map_eq_some_iff.1 h
  have hits : w &&& r.mask = r.pattern := by simpa [CommandRow.hits] using List.find?_some hr
  obtain ⟨hmask, hcommand⟩ := commandRows_command r (List.mem_of_find?_eq_some hr) (fieldCtx w).toNat (fieldSrc w).toNat
  have hop : fieldOp r.pattern = fieldOp w := by
    calc fieldOp r.pattern = fieldOp w &&& fieldOp r.mask := by rw [← hits]; exact BitVec.extractLsb'_and
      _ = fieldOp w := by rw [hmask]; exact BitVec.and_allOnes
  rw [hcommand, hop]

theorem decodePrimitive_command {bytes : List Byte} {i : Instr} (h : decodePrimitive bytes = some i) :
    i.command = none := by
  obtain ⟨r, hr, h⟩ := List.exists_of_findSome?_eq_some h
  unfold PrimitiveRow.parse at h
  split at h
  · split at h
    · obtain ⟨p, _, rfl⟩ := Option.map_eq_some_iff.1 h
      exact primitiveRows_command r hr _ _ _
    · obtain ⟨p, _, rfl⟩ := Option.map_eq_some_iff.1 h
      exact primitiveRows_command r hr _ _ _
    · cases h
  · cases h

end Sys2Proof
end

section
/-! What an instruction and an input leave as it was, from `Effect` and `Reaction`. -/

namespace Sys2Proof.Machine

/-! ## Slots -/

theorem State.slot_eq_of_slots_eq {s t : State} (h : t.slots = s.slots) (c : Nat) : t.slot c = s.slot c :=
  congrArg (·.getD c none) h

theorem State.slot_setSlot_other (s : State) {c k : Nat} (o : Option HashState) (h : k ≠ c) :
    (s.setSlot c o).slot k = s.slot k :=
  (s.slot_setSlot c o k).trans (if_neg fun hk => h hk.1)

theorem State.slot_setSlot_same {s : State} {c : Nat} (hc : c < s.nCtx) (o : Option HashState) : (s.setSlot c o).slot c = o :=
  (s.slot_setSlot c o c).trans (if_pos ⟨rfl, hc⟩)

theorem State.sameSlotsBut_setSlot (s : State) (c : Nat) (o : Option HashState) : s.sameSlotsBut c (s.setSlot c o) :=
  ⟨s.nCtx_setSlot c o, fun _ hk => s.slot_setSlot_other o hk⟩

/-! ## Instructions -/

/-- No instruction stops. -/
theorem exec_completes (i : Instr) (s : State) : ∃ t, exec i s = .next t := by
  cases i <;> exact ⟨_, rfl⟩

section Effects

variable {s t : State} {i : Instr} (h : Effect s i t)
include h

theorem Effect.sameHost : s.sameHost t := by
  cases h <;> exact ⟨rfl, rfl, rfl, rfl, rfl, rfl⟩

/-- ERR changes by a fault only, and a fault changes nothing else. -/
theorem Effect.err_cases : t.err = s.err ∨
    ∃ code op c, i.command = some (op, c) ∧ t = s.raiseFault code op (BitVec.ofNat 8 c) := by
  cases h with
  | fault code hi => exact .inr ⟨code, _, _, hi, rfl⟩
  | _ => exact .inl rfl

/-- Only FINAL writes host memory (R213). -/
theorem Effect.mem_cases : t.mem = s.mem ∨
    ∃ c x, i = .final c ∧ s.slot c = some x ∧ t.mem = s.mem.writeBytes s.addrArg (x.output s.lenArg) := by
  cases h with
  | final hx => exact .inr ⟨_, _, rfl, hx, rfl⟩
  | _ => exact .inl rfl

/-- The slots change by a write of the command's own slot, if at all. -/
theorem Effect.slots_cases : t.slots = s.slots ∨
    ∃ op c o, i.command = some (op, c) ∧ t.slots = (s.setSlot c o).slots := by
  cases h with
  | fault => exact .inl rfl
  | primitive => exact .inl rfl
  | _ => exact .inr ⟨_, _, _, rfl, rfl⟩

theorem Effect.slot_cases (c : Nat) : t.slot c = s.slot c ∨ ∃ op, i.command = some (op, c) := by
  rcases h.slots_cases with e | ⟨op, c', o, hi, e⟩
  · exact .inl (State.slot_eq_of_slots_eq e c)
  · by_cases hc : c = c'
    · exact .inr ⟨op, hc ▸ hi⟩
    · exact .inl ((State.slot_eq_of_slots_eq e c).trans (s.slot_setSlot_other o hc))

end Effects

/-! ## Inputs -/

theorem State.windowRead_pending (s : State) (off : BitVec 8) : (s.windowRead off).pending = s.pending := by
  obtain ⟨v, k, e⟩ := s.onlyRead_windowRead off
  exact e ▸ rfl

theorem State.windowRead_err (s : State) (off : BitVec 8) : (s.windowRead off).err = s.err := by
  obtain ⟨v, k, e⟩ := s.onlyRead_windowRead off
  exact e ▸ rfl

theorem State.windowRead_slots (s : State) (off : BitVec 8) : (s.windowRead off).slots = s.slots := by
  obtain ⟨v, k, e⟩ := s.onlyRead_windowRead off
  exact e ▸ rfl

theorem State.windowWrite_pending (s : State) (off : BitVec 8) (w : Word) : (s.windowWrite off w).pending = s.pending := by
  rcases s.windowWrite_cases off w with ⟨_, _, e⟩ | e | ⟨_, e⟩ <;> exact e ▸ rfl

theorem State.windowWrite_slots (s : State) (off : BitVec 8) (w : Word) : (s.windowWrite off w).slots = s.slots := by
  rcases s.windowWrite_cases off w with ⟨_, _, e⟩ | e | ⟨_, e⟩ <;> exact e ▸ rfl

/-- Of the writes other than to CMD, only the one to ERR's own offset changes ERR (R201, R257). -/
theorem State.windowWrite_err (s : State) (off : BitVec 8) (w : Word) :
    (s.windowWrite off w).err = s.err ∨ off = 0x18#8 ∧ (s.windowWrite off w).err = s.err.ack w := by
  unfold State.windowWrite
  split
  case h_5 hoff => exact .inr ⟨BitVec.eq_of_toNat_eq hoff, rfl⟩
  case h_6 => unfold State.select; split <;> exact .inl rfl
  all_goals exact .inl rfl

section Reactions

variable {s t : State} {e : Input} (h : Reaction s e t)
include h

theorem Reaction.pending : t.pending = s.pending := by
  cases h with
  | read => exact s.windowRead_pending _
  | write => exact s.windowWrite_pending _ _
  | command _ h => obtain ⟨_, _, _, _, _, hp⟩ := h.sameHost; exact hp
  | issue _ h => obtain ⟨_, _, _, _, _, hp⟩ := h.sameHost; exact hp
  | _ => rfl

/-- What an input can do to ERR: nothing, the record of a faulting command word with the word's own fields, an
acknowledgement, or the platform's reset (R33). -/
theorem Reaction.err_cases : t.err = s.err ∨
    (∃ w code, e = .hostWrite cmdOffset w ∧ t = s.raiseFault code (fieldOp w) (fieldCtx w)) ∨
    (∃ w, e = .hostWrite 0x18#8 w ∧ t.err = s.err.ack w) ∨
    (e = .platformReset ∧ t.err = ErrReg.clear) := by
  cases h with
  | read => exact .inl (s.windowRead_err _)
  | @write off w =>
    rcases s.windowWrite_err off w with he | ⟨rfl, he⟩
    · exact .inl he
    · exact .inr (.inr (.inl ⟨w, rfl, he⟩))
  | @command w _ _ hd h =>
    rcases h.err_cases with he | ⟨code, op, c, hi, rfl⟩
    · exact .inl he
    · cases (decodeCommand_command hd).symm.trans hi
      exact .inr (.inl ⟨w, code, rfl, by rw [BitVec.ofNat_toNat, BitVec.setWidth_eq]⟩)
  | @illegal w => exact .inr (.inl ⟨w, _, rfl, rfl⟩)
  | issue hd h =>
    rcases h.err_cases with he | ⟨_, _, _, hi, _⟩
    · exact .inl he
    · cases (decodePrimitive_command hd).symm.trans hi
  | platformReset => exact .inr (.inr (.inr ⟨rfl, rfl⟩))
  | _ => exact .inl rfl

/-- What an input can do to slot `c`: nothing, the effect of a command word, or the platform's reset. -/
theorem Reaction.slot_cases (c : Nat) : t.slot c = s.slot c ∨
    (∃ w i, e = .hostWrite cmdOffset w ∧ decodeCommand w = some i ∧ Effect s i t) ∨ e = .platformReset := by
  cases h with
  | read => exact .inl (State.slot_eq_of_slots_eq (s.windowRead_slots _) c)
  | write => exact .inl (State.slot_eq_of_slots_eq (s.windowWrite_slots _ _) c)
  | command hd h => exact .inr (.inl ⟨_, _, rfl, hd, h⟩)
  | issue hd h =>
    rcases h.slot_cases c with hs | ⟨_, hi⟩
    · exact .inl hs
    · cases (decodePrimitive_command hd).symm.trans hi
  | platformReset => exact .inr (.inr rfl)
  | _ => exact .inl rfl

end Reactions

/-- `step_cases` with the queue of the state after the step. -/
theorem step_reaction {s t : State} (h : step s = .next t) :
    (s.pending = [] ∧ t = s) ∨ ∃ e, s.pending = e :: t.pending ∧ Reaction { s with pending := t.pending } e t := by
  rcases step_cases h with hidle | ⟨e, rest, hp, hr⟩
  · exact .inl hidle
  · obtain rfl : t.pending = rest := hr.pending
    exact .inr ⟨e, hp, hr⟩

/-! ## The obligations on every step -/

/-- Settles O5: the offset of CMD is aligned, and the sequencer runs on an engine with the extensions. -/
theorem stepRunsDecodedInstruction : Obligations.StepRunsDecodedInstruction := by
  refine ⟨fun s rest w i hp hd => ?_, fun s rest bytes i hp hd he => ?_⟩
  · rw [step, hp]
    show execute w { s with pending := rest } = _
    rw [execute, hd]
  · rw [step, hp]
    show issue bytes { s with pending := rest } = _
    rw [issue, if_neg (by simp [he]), hd]

/-- Settles O7: no reaction touches the queue. -/
theorem stepTakesInputsInOrder : Obligations.StepTakesInputsInOrder := by
  intro s t h
  rcases step_reaction h with hidle | ⟨e, hp, _⟩
  · exact .inl hidle
  · exact .inr ⟨e, hp⟩

theorem ErrReg.record_ovf {e : ErrReg} (h : e.ovf = true) (code : FaultCode) (op : BitVec 4) (ctx : BitVec 8) :
    (e.record code op ctx).ovf = true := by
  unfold ErrReg.record
  split
  · rfl
  · exact h

theorem ErrReg.ack_valid (e : ErrReg) (w : Word) : (e.ack w).valid = (e.valid && !w.getLsbD 0) := by
  unfold ErrReg.ack
  cases w.getLsbD 0 <;> simp

theorem ErrReg.ack_ovf (e : ErrReg) (w : Word) : (e.ack w).ovf = (e.ovf && !w.getLsbD 1) := by
  unfold ErrReg.ack
  cases w.getLsbD 1 <;> simp

/-- Settles O37: a fault only sets the two bits, and an acknowledgement or the platform's reset only clears them. -/
theorem errBitsChangeOnlyBy : Obligations.ErrBitsChangeOnlyBy := by
  intro s t h
  rcases step_reaction h with ⟨_, rfl⟩ | ⟨e, hp, hr⟩
  · simp
  rcases hr.err_cases with he | ⟨w, code, rfl, ht⟩ | ⟨w, rfl, he⟩ | ⟨rfl, he⟩
  · simp [he]
  · have hvalid : t.err.valid = true := ht ▸ ErrReg.record_valid _ _ _ _
    have hovf (ho : s.err.ovf = true) : t.err.ovf = true := ht ▸ ErrReg.record_ovf ho _ _ _
    refine ⟨fun _ => ⟨w, code, hp, ht⟩, fun ⟨_, hv⟩ => ?_, fun ⟨ho, ho'⟩ => ?_⟩
    · exact absurd (hvalid.symm.trans hv) Bool.true_eq_false_eq_False
    · exact absurd ((hovf ho).symm.trans ho') Bool.true_eq_false_eq_False
  · have hvalid : t.err.valid = (s.err.valid && !w.getLsbD 0) := he ▸ ErrReg.ack_valid s.err w
    have hovf : t.err.ovf = (s.err.ovf && !w.getLsbD 1) := he ▸ ErrReg.ack_ovf s.err w
    refine ⟨?_, fun ⟨hv, hv'⟩ => .inr ⟨w, hp, ?_⟩, fun ⟨ho, ho'⟩ => .inr ⟨w, hp, ?_⟩⟩
    · rw [hvalid, hovf]
      rintro (⟨hv, hv'⟩ | ⟨ho, ho'⟩)
      · simp [hv] at hv'
      · simp [ho] at ho'
    · simpa [hv, hvalid] using hv'
    · simpa [ho, hovf] using ho'
  · refine ⟨?_, fun _ => .inl hp, fun _ => .inl hp⟩
    simp [he, ErrReg.clear]

/-- The commands that leave FINALIZED (R27, R214, R282). -/
def leavesFinalized (i : Instr) (c : Nat) : Prop :=
  i = .initSha1 c ∨ i = .initSha256 c ∨ i = .initSha224 c ∨ i = .reset c ∨ i = .release c ∨ ∃ src, i = .clone c src

/-- UPDATE, FINAL and XFORM refuse a FINALIZED slot. -/
theorem Effect.finalized_cases {s t : State} {i : Instr} (h : Effect s i t) {c : Nat} {x : HashState}
    (hx : s.slot c = some x) (hl : x.life = .finalized) : t.slot c = some x ∨ leavesFinalized i c := by
  rcases h.slot_cases c with hs | ⟨op, hi⟩
  · exact .inl (hs.trans hx)
  · have refused {y : HashState} (hy : s.slot c = some y) : ¬ y.life ≠ .finalized := by
      obtain rfl := Option.some.inj (hx.symm.trans hy)
      exact not_not_intro hl
    cases h with
    | fault => exact .inl hx
    | primitive d v hn => cases hn.symm.trans hi
    | update hy hly => cases hi; exact absurd hly (refused hy)
    | final hy hly => cases hi; exact absurd hly (refused hy)
    | xform hy hly => cases hi; exact absurd hly (refused hy)
    | _ => cases hi; simp [leavesFinalized]

/-- Settles O40: a slot changes by a command word or the platform's reset only, and of the commands UPDATE, FINAL and XFORM
refuse a FINALIZED slot. -/
theorem finalizedLeftOnlyBy : Obligations.FinalizedLeftOnlyBy := by
  intro s t c x h hx hl hne
  rcases step_reaction h with ⟨_, rfl⟩ | ⟨e, hp, hr⟩
  · exact absurd hx hne
  rcases hr.slot_cases c with hs | ⟨w, i, rfl, hd, hi⟩ | rfl
  · exact absurd (hs.trans hx) hne
  · rcases hi.finalized_cases hx hl with hs | hleft
    · exact absurd hs hne
    · exact .inr ⟨w, i, hp, hd, hleft⟩
  · exact .inl hp

end Sys2Proof.Machine
end

section
/-! Changes of the state that an instruction carries through unseen: of a slot it does not name, or of CTX_SEL (R30, R44). -/

namespace Sys2Proof.Machine

/-- To an instruction that names only slots that are `seen`, the change `f` is unseen: nothing the instruction reads is
changed, and each of its writes commutes with `f`. -/
structure Unseen (f : State → State) (seen : Nat → Prop) : Prop where
  platform : ∀ s, (f s).platform = s.platform
  argAddr : ∀ s, (f s).argAddr = s.argAddr
  argLen : ∀ s, (f s).argLen = s.argLen
  mem : ∀ s, (f s).mem = s.mem
  draws : ∀ s, (f s).draws = s.draws
  reg : ∀ s d, (f s).reg d = s.reg d
  nCtx : ∀ s, (f s).nCtx = s.nCtx
  slot : ∀ s k, seen k → (f s).slot k = s.slot k
  raiseFault : ∀ s code op ctx, (f s).raiseFault code op ctx = f (s.raiseFault code op ctx)
  setSlot : ∀ s k o, seen k → (f s).setSlot k o = f (s.setSlot k o)
  setMem : ∀ s m, { f s with mem := m } = f { s with mem := m }
  setReg : ∀ s d v, (f s).setReg d v = f (s.setReg d v)
  drawn : ∀ s, (f s).drawn = f s.drawn
  clobberXmm : ∀ s, (f s).clobberXmm = f s.clobberXmm

theorem unseen_setSlot (k : Nat) (o : Option HashState) : Unseen (fun s => s.setSlot k o) (fun c => c ≠ k) where
  platform _ := rfl
  argAddr _ := rfl
  argLen _ := rfl
  mem _ := rfl
  draws _ := rfl
  reg _ _ := rfl
  nCtx s := s.nCtx_setSlot k o
  slot s _ hc := s.slot_setSlot_other o hc
  raiseFault _ _ _ _ := rfl
  setSlot s _ p hc := s.setSlot_comm o p (Ne.symm hc)
  setMem _ _ := rfl
  setReg _ _ _ := rfl
  drawn _ := rfl
  clobberXmm _ := rfl

theorem unseen_setCtxSel (v : BitVec 8) : Unseen (fun s => { s with ctxSel := v }) (fun _ => True) where
  platform _ := rfl
  argAddr _ := rfl
  argLen _ := rfl
  mem _ := rfl
  draws _ := rfl
  reg _ _ := rfl
  nCtx _ := rfl
  slot _ _ _ := rfl
  raiseFault _ _ _ _ := rfl
  setSlot _ _ _ _ := rfl
  setMem _ _ := rfl
  setReg _ _ _ := rfl
  drawn _ := rfl
  clobberXmm _ := rfl

namespace Unseen

variable {f : State → State} {seen : Nat → Prop} (h : Unseen f seen)
include h

theorem addrArg (s : State) : (f s).addrArg = s.addrArg := congrArg BitVec.toNat (h.argAddr s)

theorem lenArg (s : State) : (f s).lenArg = s.lenArg := congrArg BitVec.toNat (h.argLen s)

/-! ## The checks: what follows them decides -/

theorem atSlot (s : State) (op : BitVec 4) (c : Nat) {go go' : Unit → State} (hgo : go' () = f (go ())) :
    (f s).atSlot op c go' = f (s.atSlot op c go) := by
  simp only [State.atSlot, h.platform, h.nCtx, h.raiseFault, hgo]
  split_ifs <;> rfl

theorem withRange (s : State) (op : BitVec 4) (c : Nat) (kind : AccessKind) (a n : Nat) {go go' : Unit → State}
    (hgo : go' () = f (go ())) : (f s).withRange op c kind a n go' = f (s.withRange op c kind a n go) := by
  simp only [State.withRange, h.platform, h.raiseFault, hgo]
  split_ifs <;> rfl

variable {c : Nat} (hc : seen c)
include hc

theorem inUse (s : State) (op : BitVec 4) {go go' : HashState → State} (hgo : ∀ x, go' x = f (go x)) :
    (f s).inUse op c go' = f (s.inUse op c go) := by
  simp only [State.inUse, h.slot s c hc, h.raiseFault, hgo]
  split <;> rfl

theorem unfinished (s : State) (op : BitVec 4) {go go' : HashState → State} (hgo : ∀ x, go' x = f (go x)) :
    (f s).unfinished op c go' = f (s.unfinished op c go) := by
  refine h.inUse hc s op fun x => ?_
  simp only [h.raiseFault, hgo]
  split_ifs <;> rfl

/-! ## The commands -/

theorem init (s : State) (alg : Alg) : (f s).init c alg = f (s.init c alg) := by
  simp only [State.init, h.slot s c hc, h.draws, h.setSlot _ _ _ hc, h.drawn]

theorem atSlot_init (s : State) (op : BitVec 4) (alg : Alg) :
    ((f s).atSlot op c fun _ => (f s).init c alg) = f (s.atSlot op c fun _ => s.init c alg) :=
  h.atSlot _ _ _ (h.init hc _ _)

theorem execUpdate_next (s : State) {t : State} (ht : execUpdate c s = .next t) : execUpdate c (f s) = .next (f t) := by
  obtain rfl := Host.Outcome.next.inj ht
  refine congrArg Host.Outcome.next (h.atSlot _ _ _ (h.unfinished hc _ _ fun x => ?_))
  simp only [h.lenArg, h.addrArg, h.mem, h.raiseFault]
  split_ifs
  · rfl
  · refine h.withRange _ _ _ _ _ _ ?_
    simp only [h.setSlot _ _ _ hc, h.clobberXmm]

theorem execFinal_next (s : State) {t : State} (ht : execFinal c s = .next t) : execFinal c (f s) = .next (f t) := by
  obtain rfl := Host.Outcome.next.inj ht
  refine congrArg Host.Outcome.next (h.atSlot _ _ _ (h.unfinished hc _ _ fun x => ?_))
  simp only [h.lenArg, h.addrArg, h.mem, h.draws]
  refine h.withRange _ _ _ _ _ _ ?_
  simp only [h.setSlot _ _ _ hc, h.setMem, h.clobberXmm]

theorem execXform_next (s : State) {t : State} (ht : execXform c s = .next t) : execXform c (f s) = .next (f t) := by
  obtain rfl := Host.Outcome.next.inj ht
  refine congrArg Host.Outcome.next (h.atSlot _ _ _ (h.unfinished hc _ _ fun x => ?_))
  simp only [h.lenArg, h.addrArg, h.mem]
  refine h.withRange _ _ _ _ _ _ ?_
  simp only [h.setSlot _ _ _ hc, h.clobberXmm]

theorem execClone_next {src : Nat} (hsrc : seen src) (s : State) {t : State} (ht : execClone c src s = .next t) :
    execClone c src (f s) = .next (f t) := by
  obtain rfl := Host.Outcome.next.inj ht
  refine congrArg Host.Outcome.next (h.atSlot _ _ _ ?_)
  simp only [h.nCtx, h.slot s src hsrc, h.raiseFault, h.setSlot _ _ _ hc]
  split_ifs
  · rfl
  · split <;> rfl

theorem execReset_next (s : State) {t : State} (ht : execReset c s = .next t) : execReset c (f s) = .next (f t) := by
  obtain rfl := Host.Outcome.next.inj ht
  exact congrArg Host.Outcome.next (h.atSlot _ _ _ (h.inUse hc _ _ fun _ => h.init hc _ _))

theorem execRelease_next (s : State) {t : State} (ht : execRelease c s = .next t) : execRelease c (f s) = .next (f t) := by
  obtain rfl := Host.Outcome.next.inj ht
  exact congrArg Host.Outcome.next (h.atSlot _ _ _ (h.inUse hc _ _ fun _ => h.setSlot _ _ _ hc))

omit hc

/-- An instruction that names only `seen` slots does the same on the changed state, and the change is carried through. -/
theorem exec_next {i : Instr} (hslot : ∀ op c, i.command = some (op, c) → seen c) (hsrc : ∀ c src, i = .clone c src → seen src)
    {s t : State} (ht : exec i s = .next t) : exec i (f s) = .next (f t) := by
  cases i with
  | initSha1 c =>
    cases ht
    exact congrArg Host.Outcome.next (h.atSlot_init (hslot _ _ rfl) _ _ _)
  | initSha256 c =>
    cases ht
    exact congrArg Host.Outcome.next (h.atSlot_init (hslot _ _ rfl) _ _ _)
  | initSha224 c =>
    cases ht
    exact congrArg Host.Outcome.next (h.atSlot_init (hslot _ _ rfl) _ _ _)
  | update c => exact h.execUpdate_next (hslot _ _ rfl) s ht
  | final c => exact h.execFinal_next (hslot _ _ rfl) s ht
  | clone c src => exact h.execClone_next (hslot _ _ rfl) (hsrc _ _ rfl) s ht
  | reset c => exact h.execReset_next (hslot _ _ rfl) s ht
  | release c => exact h.execRelease_next (hslot _ _ rfl) s ht
  | xform c => exact h.execXform_next (hslot _ _ rfl) s ht
  | _ =>
    cases ht
    refine congrArg Host.Outcome.next (Eq.trans ?_ (h.setReg _ _ _))
    simp only [State.regWK, h.reg]

end Unseen

/-- Settles O45: CTX_SEL is a window register only, so every instruction carries a change of it through unseen. -/
theorem ctxSelSelects : Obligations.CtxSelSelects := by
  refine ⟨fun s w => congrArg Host.Outcome.next (s.windowWrite_select w), fun s => ⟨_, rfl, ?_⟩, fun i s v => ?_⟩
  · exact BitVec.toNat_setWidth_of_le (by decide)
  · obtain ⟨t, ht⟩ := exec_completes i s
    exact ⟨t, ht, (unseen_setCtxSel v).exec_next (fun _ _ _ => trivial) (fun _ _ _ => trivial) ht⟩

/-- Settles O43: two half writes make up the u64, and an effect keeps the host's registers. -/
theorem argumentRegisters : Obligations.ArgumentRegisters := by
  refine fun s lo hi => ⟨⟨_, rfl, ?_⟩, ⟨_, rfl, ?_⟩, ⟨_, rfl, ?_⟩, ⟨_, rfl, ?_⟩, ⟨_, rfl, ?_⟩, ⟨_, rfl, ?_⟩, fun i => ?_⟩
  · exact congrArg (fun a => Host.Outcome.next { s with argAddr := a }) (setHigh_setLow s.argAddr lo hi)
  · exact congrArg (fun n => Host.Outcome.next { s with argLen := n }) (setHigh_setLow s.argLen lo hi)
  · exact BitVec.extractLsb'_append_eq_right
  · exact BitVec.extractLsb'_append_eq_left
  · exact BitVec.extractLsb'_append_eq_right
  · exact BitVec.extractLsb'_append_eq_left
  · obtain ⟨t, ht⟩ := exec_completes i s
    obtain ⟨_, haddr, hlen, _⟩ := (effect_of_exec ht).sameHost
    exact ⟨t, ht, haddr, hlen⟩

/-! ## A command and its slot -/

section Commands

variable {s t : State} {i : Instr} (h : Effect s i t) {op : BitVec 4} {c : Nat} (hi : i.command = some (op, c))
include h hi

theorem Effect.sameSlotsBut : s.sameSlotsBut c t := by
  refine ⟨h.sameConfig.2, fun k hk => ?_⟩
  rcases h.slot_cases k with hs | ⟨_, hk'⟩
  · exact hs
  · cases hi.symm.trans hk'
    exact absurd rfl hk

/-- The transform engines run in UPDATE, FINAL and XFORM only (log 6). -/
theorem Effect.xmm_of_no_transform (hu : i ≠ .update c) (hf : i ≠ .final c) (hx : i ≠ .xform c) : t.xmm = s.xmm := by
  cases h with
  | update => cases hi; exact absurd rfl hu
  | final => cases hi; exact absurd rfl hf
  | xform => cases hi; exact absurd rfl hx
  | primitive d v hn => cases hn.symm.trans hi
  | _ => rfl

end Commands

/-- Settles O39: the frame by `Effect`, and what is carried through by `Unseen`. -/
theorem commandTouchesOnlyItsSlot : Obligations.CommandTouchesOnlyItsSlot := by
  intro i op c s hi
  obtain ⟨t, ht⟩ := exec_completes i s
  have h := effect_of_exec ht
  refine ⟨t, ht, h.sameHost, h.sameSlotsBut hi, fun b hb => ?_, h.xmm_of_no_transform hi, fun k o hk hsrc => ?_⟩
  · rcases h.mem_cases with e | ⟨c', x, rfl, hx, e⟩
    · rw [e]
    · cases hi
      rw [e, Memory.read_writeBytes, x.length_output, if_neg (hb x rfl hx)]
  · refine (unseen_setSlot k o).exec_next (fun op' c' hi' => ?_) (fun c' src e => ?_) ht
    · cases hi.symm.trans hi'
      exact Ne.symm hk
    · subst e
      cases hi
      exact Ne.symm (hsrc src rfl)

end Sys2Proof.Machine
end

section
/-! A slot as the stream of the bytes it has taken in (R25), and runs of INIT and UPDATE (R95). -/

namespace Sys2Proof.Machine

/-! ## The bytes a slot holds -/

/-- The slot has taken in the bytes `m`: its whole blocks are compressed and the rest stands in the buffer (R25). -/
structure HashState.Holds (x : HashState) (alg : Alg) (m : List Byte) : Prop where
  alg_eq : x.alg = alg
  unfinished : x.life ≠ .finalized
  total : x.total.toNat = m.length
  plen : x.plen.toNat = m.length % 64
  buf : x.buf.toList.take x.plen.toNat = m.drop (m.length - x.plen.toNat)
  h : x.h = compressBlocks alg (m.length / 64) (iv alg) m

theorem HashState.holds_of_init (alg : Alg) (buf : Vector Byte 64) :
    HashState.Holds ⟨.fresh, alg, iv alg, buf, 0#7, 0#64⟩ alg [] :=
  ⟨rfl, nofun, rfl, rfl, rfl, rfl⟩

/-- UPDATE appends its bytes: the valid bytes of the buffer and the new bytes in a row are what the longer stream has past
the blocks that are compressed already (R211). -/
theorem HashState.Holds.afterUpdate {x : HashState} {alg : Alg} {m : List Byte} (hx : x.Holds alg m) (mem : Memory) (a : Nat)
    {n : Nat} (hn : m.length + n ≤ Config.lenLimit) :
    (x.afterUpdate mem a n).Holds alg (m ++ mem.readBytes a n) := by
  obtain ⟨rfl, _, htotal, hplen, hbuf, hh⟩ := hx
  obtain ⟨yalg, _, _, yh, yplen, ybuf⟩ := absorb_spec x (mem.readBytes a n) (by omega)
  have hlen : (m ++ mem.readBytes a n).length = m.length + n := by simp
  have hrow : x.buf.toList.take x.plen.toNat ++ mem.readBytes a n =
      (m ++ mem.readBytes a n).drop (64 * (m.length / 64)) := by
    rw [hbuf, List.drop_append_of_le_length (by omega)]
    congr 2
    omega
  rw [hrow, List.length_drop, hlen] at yh yplen ybuf
  have hrest : (m.length + n - 64 * (m.length / 64)) % 64 = (m.length + n) % 64 := by omega
  have hblocks : (m.length + n) / 64 = m.length / 64 + (m.length + n - 64 * (m.length / 64)) / 64 := by omega
  rw [hrest] at yplen ybuf
  refine ⟨yalg, nofun, ?_, hlen ▸ yplen, ?_, ?_⟩
  · rw [hlen, ← htotal]
    exact Nat.mod_eq_of_lt (Nat.lt_of_le_of_lt (htotal ▸ hn) (by decide))
  · show (x.absorb (mem.readBytes a n)).buf.toList.take (x.absorb (mem.readBytes a n)).plen.toNat =
      (m ++ mem.readBytes a n).drop ((m ++ mem.readBytes a n).length - (x.absorb (mem.readBytes a n)).plen.toNat)
    rw [yplen, ybuf, List.drop_drop, hlen]
    congr 1
    omega
  · refine yh.trans ?_
    rw [hlen, hblocks, compressBlocks_add, compressBlocks_take _ _ _ m _ (by omega), hh]

/-! ## Runs -/

/-- A run of INIT and UPDATE on slot `c` with no fault: the platform, ERR, host memory and the other slots are as before. -/
def State.sameButStream (c : Nat) (s t : State) : Prop :=
  t.platform = s.platform ∧ t.err = s.err ∧ t.mem = s.mem ∧ s.sameSlotsBut c t

theorem State.sameButStream_refl (c : Nat) (s : State) : s.sameButStream c s :=
  ⟨rfl, rfl, rfl, rfl, fun _ _ => rfl⟩

theorem State.sameButStream.trans {c : Nat} {s t u : State} (h : s.sameButStream c t) (h' : t.sameButStream c u) :
    s.sameButStream c u := by
  obtain ⟨hp, he, hm, hn, hs⟩ := h
  obtain ⟨hp', he', hm', hn', hs'⟩ := h'
  exact ⟨hp'.trans hp, he'.trans he, hm'.trans hm, hn'.trans hn, fun k hk => (hs' k hk).trans (hs k hk)⟩

theorem State.sameButStream_init (s : State) (c : Nat) (alg : Alg) : s.sameButStream c (s.init c alg) :=
  ⟨rfl, rfl, rfl, s.sameSlotsBut_setSlot c _⟩

theorem State.sameButStream_update (s : State) (c : Nat) (o : Option HashState) (addr len : DWord) :
    s.sameButStream c ((s.withArgs addr len).setSlot c o).clobberXmm :=
  ⟨rfl, rfl, rfl, s.sameSlotsBut_setSlot c o⟩

section Run

variable {c : Nat} {s : State} (hext : s.platform.hasShaExt = true)
include hext

theorem runCommand_init (hc : c < s.nCtx) (alg : Alg) : runCommand (initOf alg c) s.argAddr s.argLen s = some (s.init c alg) := by
  have hgo (op : BitVec 4) : (s.atSlot op c fun _ => s.init c alg) = s.init c alg := State.atSlot_go hext hc
  cases alg <;> exact congrArg some (hgo 1#4)

theorem exec_update_passed {x : HashState} (hx : s.slot c = some x) (hl : x.life ≠ .finalized)
    (hn : x.total.toNat + s.lenArg ≤ Config.lenLimit) (ha : s.platform.admitted .read s.addrArg s.lenArg = true) :
    exec (.update c) s = .next (s.setSlot c (some (x.afterUpdate s.mem s.addrArg s.lenArg))).clobberXmm := by
  refine congrArg Host.Outcome.next
    ((State.atSlot_go hext (State.lt_of_slot hx)).trans ((State.unfinished_go hx hl).trans ?_))
  rw [if_neg (Nat.not_lt.2 hn)]
  exact if_pos ha

theorem runCommand_update {x : HashState} (hx : s.slot c = some x) (hl : x.life ≠ .finalized) {addr len : DWord}
    (hn : x.total.toNat + len.toNat ≤ Config.lenLimit) (ha : s.platform.admitted .read addr.toNat len.toNat = true) :
    runCommand (.update c) addr len s =
      some ((s.withArgs addr len).setSlot c (some (x.afterUpdate s.mem addr.toNat len.toNat))).clobberXmm := by
  rw [runCommand, exec_update_passed (s := s.withArgs addr len) hext hx hl hn ha]
  rfl

end Run

/-- UPDATEs append their bytes one after the other, and none of them faults. -/
theorem runUpdates_holds (alg : Alg) (c : Nat) (ps : List (DWord × DWord)) {s : State} {x : HashState} {m : List Byte}
    (hext : s.platform.hasShaExt = true) (hx : s.slot c = some x) (hm : x.Holds alg m) (hr : s.platform.readable ps)
    (hlen : m.length + (s.mem.dataOf ps).length ≤ Config.lenLimit) :
    ∃ t y, runUpdates c ps s = some t ∧ t.slot c = some y ∧ y.Holds alg (m ++ s.mem.dataOf ps) ∧ s.sameButStream c t := by
  induction ps generalizing s x m with
  | nil => exact ⟨s, x, rfl, hx, (List.append_nil m).symm ▸ hm, s.sameButStream_refl c⟩
  | cons p ps ih =>
    have hdata : s.mem.dataOf (p :: ps) = s.mem.readBytes p.1.toNat p.2.toNat ++ s.mem.dataOf ps := List.flatMap_cons
    rw [hdata, List.length_append, Memory.length_readBytes] at hlen
    have hfirst := runCommand_update hext hx hm.unfinished (by rw [hm.total]; omega) (hr p List.mem_cons_self)
    have hc : c < s.nCtx := State.lt_of_slot hx
    obtain ⟨t, y, ht, hy, hym, hst⟩ := ih
      (s := ((s.withArgs p.1 p.2).setSlot c (some (x.afterUpdate s.mem p.1.toNat p.2.toNat))).clobberXmm)
      hext (State.slot_setSlot_same hc _) (hm.afterUpdate s.mem p.1.toNat (n := p.2.toNat) (by omega))
      (fun r hr' => hr r (List.mem_cons_of_mem p hr')) (by simpa [Nat.add_assoc] using hlen)
    refine ⟨t, y, ?_, hy, ?_, (s.sameButStream_update c _ p.1 p.2).trans hst⟩
    · rw [runUpdates, hfirst]
      exact ht
    · rw [hdata, ← List.append_assoc]
      exact hym

/-- Settles O56: INIT leaves a slot that holds no bytes, and each UPDATE appends its own. -/
theorem streamState : Obligations.StreamState := by
  intro alg c ps s hext hc hr hlen
  have hinit := runCommand_init hext hc alg
  obtain ⟨t, x, ht, hx, hxm, hst⟩ := runUpdates_holds alg c ps (s := s.init c alg) hext
    (State.slot_setSlot_same hc _) (HashState.holds_of_init alg _) hr (by rw [List.length_nil, Nat.zero_add]; exact hlen)
  obtain ⟨_, he, hmem, hslots⟩ := (s.sameButStream_init c alg).trans hst
  obtain ⟨halg, hl, htotal, hplen, hbuf, hh⟩ := hxm
  refine ⟨t, x, ?_, hx, he, fun b => congrArg (Memory.read · b) hmem, hslots, halg, hl, htotal, hplen, hbuf, hh⟩
  rw [runStream, hinit]
  exact ht

end Sys2Proof.Machine
end

section
/-! Admission of a host-memory range (R62, R78), the padding blocks (R204) and the bytes of the digest (R66, R205). -/

namespace Sys2Proof.Machine

/-! ## Admission -/

/-- A range of `n ≥ 1` bytes misses the register window exactly when none of its bytes lies in it (R78). -/
theorem Platform.meetsWindow_eq_false_iff (p : Platform) (a : Nat) {n : Nat} (hn : n ≠ 0) :
    p.meetsWindow a n = false ↔
      ∀ b, a ≤ b → b < a + n → ¬ (p.regBase.toNat ≤ b ∧ b < p.regBase.toNat + 256) := by
  have hsize : Config.windowBytes = 256 := rfl
  simp only [Platform.meetsWindow, Bool.and_eq_false_iff, decide_eq_false_iff_not, not_lt]
  constructor
  · intro hmiss b hab hbn
    omega
  · intro hmiss
    by_contra hmeet
    exact hmiss (max a p.regBase.toNat) (by omega) (by omega) (by omega)

/-- Settles O52: apart from the window clause it is the definition, whose address space is 2^64. -/
theorem admissionRule : Obligations.AdmissionRule := by
  intro p kind a n
  by_cases hn : n = 0
  · simp [Platform.admitted, hn]
  · simp only [Platform.admitted, hn, decide_false, Bool.false_or, false_or, Bool.and_eq_true, decide_eq_true_eq,
      Bool.not_eq_true', p.meetsWindow_eq_false_iff a hn, and_assoc]
    exact Iff.rfl

/-! ## Padding -/

@[simp] theorem length_zeros (n : Nat) : (zeros n).length = n := List.length_replicate

@[simp] theorem length_be64Bytes (x : DWord) : (be64Bytes x).length = 8 := rfl

theorem zeros_append_zeros (m n : Nat) : zeros m ++ zeros n = zeros (m + n) := List.replicate_append_replicate

/-- The valid bytes of a partial block and the 0x80 byte are `plen + 1` bytes. -/
theorem length_markedRest (buf : Vector Byte 64) {n : Nat} (hn : n < 64) :
    (buf.toList.take n ++ [0x80#8]).length = n + 1 := by
  rw [List.length_append, List.length_take, Vector.length_toList, List.length_singleton, Nat.min_eq_left hn.le]

/-- With at most 55 valid bytes the bit count fits the block (R204). -/
theorem padBlocks_of_le (buf : Vector Byte 64) {plen : BitVec 7} (total : DWord) (h : plen.toNat ≤ 55) :
    padBlocks buf plen total =
      [buf.toList.take plen.toNat ++ [0x80#8] ++ zeros (55 - plen.toNat) ++
        be64Bytes (BitVec.ofNat 64 (8 * total.toNat))] := by
  have hz : 56 - (plen.toNat + 1) = 55 - plen.toNat := by omega
  rw [padBlocks, if_neg (by omega), hz]

/-- With more than 55 valid bytes the bit count ends a block of its own (R204). -/
theorem padBlocks_of_gt (buf : Vector Byte 64) {plen : BitVec 7} (total : DWord) (h : 55 < plen.toNat) :
    padBlocks buf plen total =
      [buf.toList.take plen.toNat ++ [0x80#8] ++ zeros (63 - plen.toNat),
        zeros 56 ++ be64Bytes (BitVec.ofNat 64 (8 * total.toNat))] := by
  have hz : 64 - (plen.toNat + 1) = 63 - plen.toNat := by omega
  rw [padBlocks, if_pos (by omega), hz]

/-- Settles O23, in the two cases of R204. -/
theorem padBlocksBytes : Obligations.PadBlocksBytes := by
  intro buf plen total hlt
  have hrest := length_markedRest buf hlt
  by_cases h : plen.toNat ≤ 55
  · rw [padBlocks_of_le buf total h, if_pos h, if_pos h]
    refine ⟨rfl, List.forall_mem_singleton.2 ?_, List.flatten_singleton⟩
    rw [List.length_append, List.length_append, hrest, length_zeros, length_be64Bytes]
    omega
  · have hz : 63 - plen.toNat + 56 = 119 - plen.toNat := by omega
    rw [padBlocks_of_gt buf total (not_le.1 h), if_neg h, if_neg h]
    refine ⟨rfl, List.forall_mem_cons.2 ⟨?_, List.forall_mem_singleton.2 rfl⟩, ?_⟩
    · rw [List.length_append, hrest, length_zeros]
      omega
    · rw [← zeros, ← hz, ← zeros_append_zeros]
      simp only [List.flatten_cons, List.flatten_nil, List.append_nil, List.append_assoc]

/-! ## The digest -/

/-- Byte `k` of a word, most significant first (R11). -/
theorem be32Bytes_getD (w : Word) {k : Nat} (hk : k < 4) :
    (be32Bytes w).getD k 0#8 = BitVec.ofNat 8 (w.toNat / 256 ^ (3 - k)) := by
  apply BitVec.eq_of_toNat_eq
  interval_cases k <;> simp [be32Bytes, Nat.shiftRight_eq_div_pow]

/-- Byte `j` of a row of words is byte `j mod 4` of word `j div 4`; past the end both are zero (R66). -/
theorem flatMap_be32Bytes_getD (ws : List Word) (j : Nat) :
    (ws.flatMap be32Bytes).getD j 0#8 = BitVec.ofNat 8 ((ws.getD (j / 4) 0#32).toNat / 256 ^ (3 - j % 4)) := by
  induction ws generalizing j with
  | nil => simp
  | cons w ws ih =>
    have hw : (be32Bytes w).length = 4 := rfl
    rw [List.flatMap_cons]
    by_cases hj : j < 4
    · rw [List.getD_append _ _ _ _ (hw ▸ hj), be32Bytes_getD w hj, Nat.div_eq_of_lt hj, Nat.mod_eq_of_lt hj,
        List.getD_cons_zero]
    · have hq : j / 4 = (j - 4) / 4 + 1 := by omega
      have hr : j % 4 = (j - 4) % 4 := by omega
      rw [List.getD_append_right _ _ _ _ (hw ▸ not_lt.1 hj), hw, ih, hq, hr, List.getD_cons_succ]

theorem dsize_le_four_mul_nw (alg : Alg) : dsize alg ≤ 4 * nw alg := by cases alg <;> decide

/-- Settles O24: the words that the digest serializes cover its DSIZE bytes. -/
theorem digestBytes : Obligations.DigestBytes := by
  intro alg h
  refine ⟨(length_digest alg h).trans (by cases alg <;> rfl), fun j hj => ?_⟩
  rw [length_digest] at hj
  have hcover := dsize_le_four_mul_nw alg
  have hword : j / 4 < nw alg := by omega
  calc (digest alg h).getD j 0#8
      = ((h.toList.take (nw alg)).flatMap be32Bytes).getD j 0#8 := by
        rw [digest, List.getD_eq_getElem?_getD, List.getElem?_take_of_lt hj, ← List.getD_eq_getElem?_getD]
    _ = BitVec.ofNat 8 (((h.toList.take (nw alg)).getD (j / 4) 0#32).toNat / 256 ^ (3 - j % 4)) :=
        flatMap_be32Bytes_getD _ j
    _ = BitVec.ofNat 8 ((h.toList.getD (j / 4) 0#32).toNat / 256 ^ (3 - j % 4)) := by
        rw [List.getD_eq_getElem?_getD, List.getElem?_take_of_lt hword, ← List.getD_eq_getElem?_getD]

end Sys2Proof.Machine
end

section
/-! The two encodings of 30_encoding.md, row by row: the word of a row of R87 and the bytes of a row of R91 are what the
encoder writes for the row's instructions, the row reads them back and reads nothing else, and no other row reads them. -/

namespace Sys2Proof

/-! ## Command words -/

/-- A word is known by its fields (R80). -/
theorem word_eq_iff {w v : Word} : w = v ↔ fieldOp w = fieldOp v ∧ fieldAlg w = fieldAlg v ∧ fieldRsv0 w = fieldRsv0 v ∧
    fieldCtx w = fieldCtx v ∧ fieldSrc w = fieldSrc v ∧ fieldRsv1 w = fieldRsv1 v := by
  refine ⟨fun h => h ▸ ⟨rfl, rfl, rfl, rfl, rfl, rfl⟩, fun ⟨hop, halg, hrsv0, hctx, hsrc, hrsv1⟩ => ?_⟩
  rw [word_fields w, word_fields v, hop, halg, hrsv0, hctx, hsrc, hrsv1]

/-- The fields of `w &&& v` are the fields of `w`, each masked with that of `v`. -/
theorem and_fields (w v : Word) :
    fieldOp (w &&& v) = fieldOp w &&& fieldOp v ∧ fieldAlg (w &&& v) = fieldAlg w &&& fieldAlg v ∧
      fieldRsv0 (w &&& v) = fieldRsv0 w &&& fieldRsv0 v ∧ fieldCtx (w &&& v) = fieldCtx w &&& fieldCtx v ∧
      fieldSrc (w &&& v) = fieldSrc w &&& fieldSrc v ∧ fieldRsv1 (w &&& v) = fieldRsv1 w &&& fieldRsv1 v :=
  ⟨BitVec.extractLsb'_and, BitVec.extractLsb'_and, BitVec.extractLsb'_and, BitVec.extractLsb'_and,
    BitVec.extractLsb'_and, BitVec.extractLsb'_and⟩

/-- The word of the row's instruction on slots `c` and `src`: OP and ALG are the row's, and SRC is zero but for CLONE, whose
OP is 4 (R81, R83, R84). -/
def CommandRow.word (r : CommandRow) (c src : Nat) : Word :=
  commandWord (fieldOp r.pattern) (fieldAlg r.pattern) c (if fieldOp r.pattern = 4#4 then src else 0)

/-- Each mask of R87 covers OP, ALG, RSV0 and RSV1, and SRC but for CLONE, and leaves CTX open. -/
theorem commandRows_mask : ∀ r ∈ commandRows,
    fieldOp r.mask = BitVec.allOnes 4 ∧ fieldAlg r.mask = BitVec.allOnes 2 ∧ fieldRsv0 r.mask = BitVec.allOnes 2 ∧
      fieldCtx r.mask = 0#8 ∧ fieldSrc r.mask = (if fieldOp r.pattern = 4#4 then 0#8 else BitVec.allOnes 8) ∧
      fieldRsv1 r.mask = BitVec.allOnes 8 := by
  decide

/-- Each pattern of R87 is zero but for OP and ALG. -/
theorem commandRows_pattern : ∀ r ∈ commandRows,
    fieldRsv0 r.pattern = 0#2 ∧ fieldCtx r.pattern = 0#8 ∧ fieldSrc r.pattern = 0#8 ∧ fieldRsv1 r.pattern = 0#8 := by
  decide

theorem encode_commandRow : ∀ r ∈ commandRows, ∀ c src, encode (r.make c src) = .command (r.word c src) := by
  simp [commandRows, encode, CommandRow.word, fieldOp, fieldAlg, field]

/-- Only CLONE's instruction has a source slot (R84). -/
theorem commandRow_make_src : ∀ r ∈ commandRows, fieldOp r.pattern ≠ 4#4 → ∀ c src src',
    r.make c src = r.make c src' := by
  simp [commandRows, fieldOp, field]

theorem commandRow_wellFormed : ∀ r ∈ commandRows, ∀ c < 256, ∀ src < 256, (r.make c src).wellFormed = true := by
  simp +contextual [commandRows, Instr.wellFormed, slotFits]

/-- A row's words, by their fields (R81, R83, R84, R85). -/
theorem CommandRow.hits_iff {r : CommandRow} (hr : r ∈ commandRows) (w : Word) : r.hits w = true ↔
    fieldOp w = fieldOp r.pattern ∧ fieldAlg w = fieldAlg r.pattern ∧ fieldRsv0 w = 0#2 ∧
      (fieldOp r.pattern = 4#4 ∨ fieldSrc w = 0#8) ∧ fieldRsv1 w = 0#8 := by
  obtain ⟨hrsv0, hctx, hsrc, hrsv1⟩ := commandRows_pattern r hr
  obtain ⟨mop, malg, mrsv0, mctx, msrc, mrsv1⟩ := commandRows_mask r hr
  rw [CommandRow.hits, beq_iff_eq, word_eq_iff]
  simp only [and_fields, hrsv0, hctx, hsrc, hrsv1, mop, malg, mrsv0, mctx, msrc, mrsv1, BitVec.and_allOnes,
    BitVec.and_zero, true_and]
  split
  · next hclone => simp [hclone]
  · next hclone => rw [BitVec.and_allOnes, or_iff_right hclone]

/-- The row reads its own words. -/
theorem CommandRow.hits_word {r : CommandRow} (hr : r ∈ commandRows) (c src : Nat) : r.hits (r.word c src) = true := by
  obtain ⟨hop, halg, hrsv0, _, hsrc, hrsv1⟩ := commandWord_fields (fieldOp r.pattern) (fieldAlg r.pattern) c
    (if fieldOp r.pattern = 4#4 then src else 0)
  refine (CommandRow.hits_iff hr _).2 ⟨hop, halg, hrsv0, ?_, hrsv1⟩
  by_cases hclone : fieldOp r.pattern = 4#4
  · exact .inl hclone
  · exact .inr (hsrc.trans (congrArg (BitVec.ofNat 8) (if_neg hclone)))

/-- A word the row reads is the row's word for the slots of its fields: no bit is ignored (R85). -/
theorem CommandRow.word_of_hits {r : CommandRow} (hr : r ∈ commandRows) {w : Word} (h : r.hits w = true) :
    r.word (fieldCtx w).toNat (fieldSrc w).toNat = w := by
  obtain ⟨hop, halg, hrsv0, hsrc, hrsv1⟩ := (CommandRow.hits_iff hr w).1 h
  refine word_eq_iff.2 ?_
  rw [CommandRow.word]
  simp only [commandWord_fields, hop, halg, hrsv0, hrsv1, BitVec.ofNat_toNat, BitVec.setWidth_eq, true_and, and_true]
  split
  · exact BitVec.ofNat_toNat ..
  · next hclone => exact (hsrc.resolve_left hclone).symm

/-- No two rows read one word: OP and ALG tell them apart. -/
theorem commandRow_unique {r r' : CommandRow} (hr : r ∈ commandRows) (hr' : r' ∈ commandRows) {w : Word}
    (h : r.hits w = true) (h' : r'.hits w = true) : r' = r := by
  obtain ⟨hop, halg, _⟩ := (CommandRow.hits_iff hr w).1 h
  obtain ⟨hop', halg', _⟩ := (CommandRow.hits_iff hr' w).1 h'
  have hnodup : (commandRows.map fun r => (fieldOp r.pattern, fieldAlg r.pattern)).Nodup := by decide
  exact List.inj_on_of_nodup_map hnodup hr' hr (Prod.ext (hop'.symm.trans hop) (halg'.symm.trans halg))

/-- A row that reads the word is the row it decodes by. -/
theorem decodeCommand_of_hits {r : CommandRow} (hr : r ∈ commandRows) {w : Word} (h : r.hits w = true) :
    decodeCommand w = some (r.make (fieldCtx w).toNat (fieldSrc w).toNat) := by
  have hsome : (commandRows.find? (CommandRow.hits w)).isSome := List.find?_isSome.2 ⟨r, hr, h⟩
  obtain ⟨r', hfind⟩ := Option.isSome_iff_exists.1 hsome
  obtain rfl := commandRow_unique hr (List.mem_of_find?_eq_some hfind) h (List.find?_some hfind)
  rw [decodeCommand, hfind, Option.map_some]

theorem decodeCommand_eq_some_iff {w : Word} {i : Instr} : decodeCommand w = some i ↔
    ∃ r ∈ commandRows, r.hits w = true ∧ r.make (fieldCtx w).toNat (fieldSrc w).toNat = i := by
  constructor
  · intro h
    obtain ⟨r, hfind, hmake⟩ := Option.map_eq_some_iff.1 h
    exact ⟨r, List.mem_of_find?_eq_some hfind, List.find?_some hfind, hmake⟩
  · rintro ⟨r, hr, hhits, rfl⟩
    exact decodeCommand_of_hits hr hhits

theorem decodeCommand_word {r : CommandRow} (hr : r ∈ commandRows) {c src : Nat} (hc : c < 256) (hsrc : src < 256) :
    decodeCommand (r.word c src) = some (r.make c src) := by
  rw [decodeCommand_of_hits hr (CommandRow.hits_word hr c src), CommandRow.word]
  simp only [commandWord_fields, BitVec.toNat_ofNat, Nat.mod_eq_of_lt hc]
  split
  · rw [Nat.mod_eq_of_lt hsrc]
  · next hclone => rw [commandRow_make_src r hr hclone c _ src]

/-- The pairs of OP and ALG that stand for a command (R81, R83). -/
theorem exists_commandRow_iff : ∀ (op : BitVec 4) (alg : BitVec 2),
    (∃ r ∈ commandRows, op = fieldOp r.pattern ∧ alg = fieldAlg r.pattern) ↔
      ¬ (op = 0#4 ∨ 8 ≤ op.toNat ∨ (op = 1#4 ∧ alg = 3#2) ∨ (op ≠ 1#4 ∧ alg ≠ 0#2)) := by
  decide

/-- The words that some row reads, by their fields (R81, R83, R84, R85, R88). -/
theorem exists_hits_iff (w : Word) : (∃ r ∈ commandRows, r.hits w = true) ↔
    (∃ r ∈ commandRows, fieldOp w = fieldOp r.pattern ∧ fieldAlg w = fieldAlg r.pattern) ∧ fieldRsv0 w = 0#2 ∧
      (fieldOp w = 4#4 ∨ fieldSrc w = 0#8) ∧ fieldRsv1 w = 0#8 := by
  constructor
  · rintro ⟨r, hr, h⟩
    obtain ⟨hop, halg, hrest⟩ := (CommandRow.hits_iff hr w).1 h
    exact ⟨⟨r, hr, hop, halg⟩, hop ▸ hrest⟩
  · rintro ⟨⟨r, hr, hop, halg⟩, hrest⟩
    exact ⟨r, hr, (CommandRow.hits_iff hr w).2 ⟨hop, halg, hop ▸ hrest⟩⟩

/-- Settles O4: a word is illegal when no row of R87 reads it. -/
theorem illegalWordFields : Obligations.IllegalWordFields := by
  intro w
  have hnone : decodeCommand w = none ↔ ¬ ∃ r ∈ commandRows, r.hits w = true := by
    simp [decodeCommand]
  rw [hnone, exists_hits_iff, exists_commandRow_iff]
  grind

/-! ## Primitives -/

/-- The bytes of the row's instruction on registers `d` and `r`, with `imm` where the row has an immediate (R91). -/
def PrimitiveRow.bytes (row : PrimitiveRow) (d r : XReg) (imm : Byte) : List Byte :=
  row.opcode ++ modrmByte d r :: if row.hasImm then [imm] else []

theorem encode_primitiveRow : ∀ row ∈ primitiveRows, ∀ d r imm,
    encode (row.make d r imm) = .primitive (row.bytes d r imm) := by
  simp [primitiveRows, encode, PrimitiveRow.bytes]

/-- The instruction of a row without an immediate has none. -/
theorem primitiveRow_make_imm : ∀ row ∈ primitiveRows, row.hasImm = false → ∀ d r imm imm',
    row.make d r imm = row.make d r imm' := by
  simp [primitiveRows]

theorem primitiveRow_wellFormed : ∀ row ∈ primitiveRows, ∀ d r imm, (row.make d r imm).wellFormed = true := by
  simp [primitiveRows, Instr.wellFormed]

/-- The row reads its own bytes. -/
theorem PrimitiveRow.parse_bytes {row : PrimitiveRow} (hrow : row ∈ primitiveRows) (d r : XReg) (imm : Byte) :
    row.parse (row.bytes d r imm) = some (row.make d r imm) := by
  unfold PrimitiveRow.parse PrimitiveRow.bytes
  rw [if_pos List.take_left, List.drop_left]
  cases himm : row.hasImm
  · simp [modrmRegs_modrmByte, primitiveRow_make_imm row hrow himm d r 0#8 imm]
  · simp [modrmRegs_modrmByte]

/-- What the row reads is its own bytes. -/
theorem PrimitiveRow.bytes_of_parse {row : PrimitiveRow} {bytes : List Byte} {i : Instr} (h : row.parse bytes = some i) :
    ∃ d r imm, row.bytes d r imm = bytes ∧ row.make d r imm = i := by
  unfold PrimitiveRow.parse at h
  split at h
  case isFalse => cases h
  case isTrue htake =>
    have happend := List.take_append_drop row.opcode.length bytes
    rw [htake] at happend
    split at h
    · next m himm hdrop =>
      obtain ⟨⟨d, r⟩, hregs, hmake⟩ := Option.map_eq_some_iff.1 h
      refine ⟨d, r, 0#8, ?_, hmake⟩
      rw [PrimitiveRow.bytes, himm, modrmByte_of_modrmRegs m d r hregs, ← happend, hdrop]
      rfl
    · next m imm himm hdrop =>
      obtain ⟨⟨d, r⟩, hregs, hmake⟩ := Option.map_eq_some_iff.1 h
      refine ⟨d, r, imm, ?_, hmake⟩
      rw [PrimitiveRow.bytes, himm, modrmByte_of_modrmRegs m d r hregs, ← happend, hdrop]
      rfl
    · cases h

/-- No row's opcode bytes begin another's (R91). -/
theorem primitiveRows_opcode_prefix : ∀ row ∈ primitiveRows, ∀ row' ∈ primitiveRows,
    row.opcode <+: row'.opcode → row = row' := by
  have hnodup : (primitiveRows.map PrimitiveRow.opcode).Nodup := by decide
  have hprefix : ∀ row ∈ primitiveRows, ∀ row' ∈ primitiveRows,
      row.opcode <+: row'.opcode → row.opcode = row'.opcode := by decide
  exact fun row hrow row' hrow' h => List.inj_on_of_nodup_map hnodup hrow hrow' (hprefix row hrow row' hrow' h)

/-- No two rows read the same bytes. -/
theorem primitiveRow_unique {row row' : PrimitiveRow} (hrow : row ∈ primitiveRows) (hrow' : row' ∈ primitiveRows)
    {bytes : List Byte} {i i' : Instr} (h : row.parse bytes = some i) (h' : row'.parse bytes = some i') : row' = row := by
  obtain ⟨_, _, _, hbytes, _⟩ := PrimitiveRow.bytes_of_parse h
  obtain ⟨_, _, _, hbytes', _⟩ := PrimitiveRow.bytes_of_parse h'
  have hop : row.opcode <+: bytes := hbytes ▸ List.prefix_append _ _
  have hop' : row'.opcode <+: bytes := hbytes' ▸ List.prefix_append _ _
  rcases List.prefix_or_prefix_of_prefix hop hop' with hle | hle
  · exact (primitiveRows_opcode_prefix row hrow row' hrow' hle).symm
  · exact primitiveRows_opcode_prefix row' hrow' row hrow hle

/-- A row that reads the bytes is the row they decode by. -/
theorem decodePrimitive_of_parse {row : PrimitiveRow} (hrow : row ∈ primitiveRows) {bytes : List Byte} {i : Instr}
    (h : row.parse bytes = some i) : decodePrimitive bytes = some i := by
  have hsome : (decodePrimitive bytes).isSome := List.findSome?_isSome_iff.2 ⟨row, hrow, h ▸ rfl⟩
  obtain ⟨i', hdecode⟩ := Option.isSome_iff_exists.1 hsome
  obtain ⟨row', hrow', h'⟩ := List.exists_of_findSome?_eq_some hdecode
  obtain rfl := primitiveRow_unique hrow hrow' h h'
  exact hdecode.trans (h'.symm.trans h)

/-! ## Both encodings -/

/-- Every well-formed command is that of a row of R87, its slots within eight bits. -/
theorem exists_commandRow {i : Instr} {p : BitVec 4 × Nat} (hi : i.command = some p) (h : i.wellFormed = true) :
    ∃ r ∈ commandRows, ∃ c < 256, ∃ src < 256, r.make c src = i := by
  have zero_fits : ∃ src, src < 256 := ⟨0, by decide⟩
  simp only [commandRows, List.cons_append, List.nil_append, List.exists_mem_cons_iff]
  cases i <;> cases hi -- the nine commands remain
  all_goals simpa [Instr.wellFormed, slotFits, zero_fits] using h

/-- Every primitive is that of a row of R91. -/
theorem exists_primitiveRow {i : Instr} (hi : i.command = none) :
    ∃ row ∈ primitiveRows, ∃ d r imm, row.make d r imm = i := by
  simp only [primitiveRows, List.cons_append, List.nil_append, List.exists_mem_cons_iff]
  cases i <;> cases hi -- the thirteen primitives remain
  all_goals simp

/-- Settles O2: a row of R87 or R91 makes the instruction, and reads back the word or the bytes it encodes to. -/
theorem decodeEncode : Obligations.DecodeEncode := by
  intro i h
  cases hi : i.command with
  | some p =>
    obtain ⟨r, hr, c, hc, src, hsrc, rfl⟩ := exists_commandRow hi h
    rw [encode_commandRow r hr]
    exact decodeCommand_word hr hc hsrc
  | none =>
    obtain ⟨row, hrow, d, r, imm, rfl⟩ := exists_primitiveRow hi
    rw [encode_primitiveRow row hrow]
    exact decodePrimitive_of_parse hrow (PrimitiveRow.parse_bytes hrow d r imm)

/-- Settles O3: the row that reads the bits has made the instruction, and its word or bytes are those bits. -/
theorem encodeDecode : Obligations.EncodeDecode := by
  intro code i h
  cases code with
  | command w =>
    obtain ⟨r, hr, hhits, rfl⟩ := decodeCommand_eq_some_iff.1 h
    refine ⟨commandRow_wellFormed r hr _ (BitVec.isLt _) _ (BitVec.isLt _), ?_⟩
    rw [encode_commandRow r hr, CommandRow.word_of_hits hr hhits]
  | primitive bytes =>
    obtain ⟨row, hrow, hparse⟩ := List.exists_of_findSome?_eq_some h
    obtain ⟨d, r, imm, rfl, rfl⟩ := PrimitiveRow.bytes_of_parse hparse
    exact ⟨primitiveRow_wellFormed row hrow d r imm, encode_primitiveRow row hrow d r imm⟩

/-- Settles O1: each is the encoding of the instruction it stands for. -/
theorem sampleWordsDecode : Obligations.SampleWordsDecode :=
  ⟨decodeEncode (.update 3) rfl, decodeEncode (.clone 2 1) rfl, decodeEncode (.initSha224 3) rfl,
    decodeEncode (.final 255) rfl, decodeEncode (.sha1rnds4 1 2 2#8) rfl, decodeEncode (.sha256rnds2 6 5) rfl,
    decodeEncode (.palignr 0 1 4#8) rfl⟩

end Sys2Proof
end

section
/-! The step on the words of the two encodings: an opcode-table word placed first (log 8), and a write to CMD of a word with a
reserved bit set (R85). -/

namespace Sys2Proof.Machine

/-- Settles O6: the word's input stands first, and the step past it runs on the state as it was. -/
theorem withFetchWordRunsTableWord : Obligations.WithFetchWordRunsTableWord := by
  intro s nbits w i hd he
  obtain ⟨runsCommand, runsPrimitive⟩ := stepRunsDecodedInstruction
  have hp : (s.withFetchWord nbits w).pending = inputOf (tableCode nbits w) :: s.pending := rfl
  rw [decodeTableWord] at hd
  cases hcode : tableCode nbits w with
  | command v =>
    rw [hcode] at hd hp
    exact runsCommand _ _ v i hp hd
  | primitive bytes =>
    rw [hcode] at hd hp
    exact runsPrimitive _ _ bytes i hp hd he

/-- A write to CMD of a word that decodes to nothing faults E_BAD_CMD where the extensions are (R88, R251). -/
theorem step_illegal {s : State} {rest : List Input} {w : Word} (hp : s.pending = .hostWrite 0x04#8 w :: rest)
    (he : s.platform.hasShaExt = true) (hd : decodeCommand w = none) :
    step s = .next ({ s with pending := rest }.raiseFault .badCmd (fieldOp w) (fieldCtx w)) := by
  rw [step, hp]
  show execute w { s with pending := rest } = _
  rw [execute, hd]
  simp only [State.illegalCommand, he, if_true]

/-- Settles O33: the word is illegal by its reserved fields. -/
theorem reservedBitsFault : Obligations.ReservedBitsFault := by
  intro w s rest hp he hrsv
  refine step_illegal hp he ((illegalWordFields w).2 ?_)
  rcases hrsv with hrsv0 | hrsv1
  · exact .inr (.inr (.inl hrsv0))
  · exact .inr (.inr (.inr (.inl hrsv1)))

end Sys2Proof.Machine
end

section
/-! The compression functions as recurrences (R117 to R126): a schedule read word by word, and a run of rounds read round by
round. -/

namespace Sys2Proof.Machine

/-! ## A schedule, word by word -/

/-- The words of a schedule, newest first, when `n` have been made past the sixteen of the block. -/
def wordsSoFar (next : List Word → Word) (blk : List Byte) (n : Nat) : List Word := extendBy next n (messageWords blk).reverse

theorem schedule1_eq (blk : List Byte) : schedule1 blk = (wordsSoFar next1 blk 64).reverse := rfl

theorem schedule2_eq (blk : List Byte) : schedule2 blk = (wordsSoFar next2 blk 48).reverse := rfl

section Schedule

variable (next : List Word → Word) (blk : List Byte) {k n t j : Nat}

theorem length_wordsSoFar : (wordsSoFar next blk n).length = n + 16 := by simp [wordsSoFar]

theorem wordsSoFar_succ : wordsSoFar next blk (n + 1) = next (wordsSoFar next blk n) :: wordsSoFar next blk n :=
  extendBy_add next n 1 _

/-- Words made later change none of the earlier ones. -/
theorem reverse_wordsSoFar_getD_of_le (hk : k ≤ n) (ht : t < k + 16) :
    (wordsSoFar next blk n).reverse.getD t 0#32 = (wordsSoFar next blk k).reverse.getD t 0#32 := by
  obtain ⟨m, rfl⟩ := Nat.exists_eq_add_of_le hk
  obtain ⟨new, _, hnew⟩ := extendBy_suffix next m (wordsSoFar next blk k)
  have happ : wordsSoFar next blk (k + m) = new ++ wordsSoFar next blk k := (extendBy_add next k m _).trans hnew
  rw [happ, List.reverse_append, List.getD_append _ _ _ _ (by rwa [List.length_reverse, length_wordsSoFar])]

/-- The sixteen words of the block stand first. -/
theorem reverse_wordsSoFar_getD_message (ht : t < 16) : (wordsSoFar next blk n).reverse.getD t 0#32 = be32 blk t := by
  rw [reverse_wordsSoFar_getD_of_le next blk n.zero_le (by omega)]
  simp [wordsSoFar, extendBy, messageWords, ht]

/-- Where a word `j` places back stands in the finished schedule. -/
theorem wordsSoFar_getD (hk : k ≤ n) (hj : j < k + 16) :
    (wordsSoFar next blk k).getD j 0#32 = (wordsSoFar next blk n).reverse.getD (k + 15 - j) 0#32 := by
  have hlen : (wordsSoFar next blk k).length = k + 16 := length_wordsSoFar next blk
  rw [reverse_wordsSoFar_getD_of_le next blk hk (by omega), List.getD_reverse _ (by omega), hlen]
  congr 1
  omega

/-- A word past the sixteenth is made from those before it. -/
theorem reverse_wordsSoFar_getD_next (hk : k < n) :
    (wordsSoFar next blk n).reverse.getD (k + 16) 0#32 = next (wordsSoFar next blk k) := by
  have hlast := wordsSoFar_getD next blk (Nat.succ_le_of_lt hk) (j := 0) (by omega)
  rw [wordsSoFar_succ, List.getD_cons_zero, Nat.sub_zero, Nat.succ_add] at hlast
  exact hlast.symm

end Schedule

/-- The recurrence of R118. -/
theorem schedule1_getD_next (blk : List Byte) {k : Nat} (hk : k < 64) :
    (schedule1 blk).getD (k + 16) 0#32 =
      rotl 1 ((schedule1 blk).getD (k + 13) 0#32 ^^^ (schedule1 blk).getD (k + 8) 0#32 ^^^ (schedule1 blk).getD (k + 2) 0#32 ^^^
        (schedule1 blk).getD k 0#32) := by
  have hback (j : Nat) (hj : j < 16) := wordsSoFar_getD next1 blk hk.le (j := j) (by omega)
  rw [schedule1_eq, reverse_wordsSoFar_getD_next next1 blk hk, next1, hback 2 (by decide), hback 7 (by decide),
    hback 13 (by decide), hback 15 (by decide)]
  rfl

/-- The recurrence of R121. -/
theorem schedule2_getD_next (blk : List Byte) {k : Nat} (hk : k < 48) :
    (schedule2 blk).getD (k + 16) 0#32 =
      smallSigma1 ((schedule2 blk).getD (k + 14) 0#32) + (schedule2 blk).getD (k + 9) 0#32 +
        smallSigma0 ((schedule2 blk).getD (k + 1) 0#32) + (schedule2 blk).getD k 0#32 := by
  have hback (j : Nat) (hj : j < 16) := wordsSoFar_getD next2 blk hk.le (j := j) (by omega)
  rw [schedule2_eq, reverse_wordsSoFar_getD_next next2 blk hk, next2, hback 1 (by decide), hback 6 (by decide),
    hback 14 (by decide), hback 15 (by decide)]
  rfl

/-! ## A run of rounds, round by round -/

section Rounds

variable {α β : Type} (body : Nat → α → β → β) (ws : List α) (v : β)

/-- The variables after the first `t` rounds. -/
def varsAfter (t : Nat) : β := roundsFrom body 0 (ws.take t) v

theorem varsAfter_succ (z : α) {t : Nat} (ht : t < ws.length) :
    varsAfter body ws v (t + 1) = body t (ws.getD t z) (varsAfter body ws v t) := by
  have hlen : (ws.take t).length = t := List.length_take_of_le ht.le
  rw [varsAfter, List.take_succ_eq_append_getElem ht, roundsFrom_append, hlen, Nat.zero_add, List.getD_eq_getElem _ _ ht]
  rfl

theorem varsAfter_length : varsAfter body ws v ws.length = roundsFrom body 0 ws v := by
  rw [varsAfter, List.take_length]

end Rounds

theorem compress1_eq (h : Vars1) (blk : List Byte) : compress1 h blk = h.add (varsAfter round1 (schedule1 blk) h 80) := by
  rw [compress1, ← varsAfter_length, length_schedule1]

theorem compress256_eq (h : Vars2) (blk : List Byte) : compress256 h blk = h.add (varsAfter round2 (schedule2 blk) h 64) := by
  rw [compress256, ← varsAfter_length, length_schedule2]

/-- What round `t` of SHA-1 takes by its selector, written by the bounds of R112 and R117. -/
theorem ofSelector_eq_ite {α : Type} (f : Nat → α) {t : Nat} (ht : t < 80) :
    f (t / 20) = if t < 20 then f 0 else if t < 40 then f 1 else if t < 60 then f 2 else f 3 := by
  have hsel {n : Nat} (hlo : 20 * n ≤ t) (hhi : t < 20 * n + 20) : f (t / 20) = f n := congrArg f (by omega)
  split_ifs with h20 h40 h60
  · exact hsel (by omega) (by omega)
  · exact hsel (by omega) (by omega)
  · exact hsel (by omega) (by omega)
  · exact hsel (by omega) (by omega)

/-! ## The statements -/

/-- Settles O18: the words are those of the schedule, the variables those after each round. -/
theorem sha1Compression : Obligations.Sha1Compression := by
  intro h blk _
  let w := fun t => (schedule1 blk).getD t 0#32
  let v := varsAfter round1 (schedule1 blk) (chain1 h)
  refine ⟨w, fun t => (v t).a, fun t => (v t).b, fun t => (v t).c, fun t => (v t).d, fun t => (v t).e,
    fun t ht => reverse_wordsSoFar_getD_message next1 blk ht, fun t hlo hhi => ?_, rfl, rfl, rfl, rfl, rfl, fun t ht => ?_, ?_⟩
  · obtain ⟨k, rfl⟩ := Nat.exists_eq_add_of_le' hlo
    exact schedule1_getD_next blk (by omega)
  · have hround : v (t + 1) = round1 t (w t) (v t) := varsAfter_succ round1 _ _ _ (by simpa using ht)
    have hf := ofSelector_eq_ite (f1 · (v t).b (v t).c (v t).d) ht
    have hk := ofSelector_eq_ite k1 ht
    simp only [hround, round1, hf, hk, and_true]
    rfl
  · rw [compress, compress1_eq]
    rfl

/-- Settles O19: the words are those of the schedule, the variables those after each round. -/
theorem sha256Compression : Obligations.Sha256Compression := by
  intro h blk _
  let w := fun t => (schedule2 blk).getD t 0#32
  let v := varsAfter round2 (schedule2 blk) (chain2 h)
  refine ⟨w, fun t => (v t).a, fun t => (v t).b, fun t => (v t).c, fun t => (v t).d, fun t => (v t).e, fun t => (v t).f,
    fun t => (v t).g, fun t => (v t).h, fun t ht => reverse_wordsSoFar_getD_message next2 blk ht, fun t hlo hhi => ?_,
    rfl, rfl, rfl, rfl, rfl, rfl, rfl, rfl, fun t ht => ?_, ?_, rfl⟩
  · obtain ⟨k, rfl⟩ := Nat.exists_eq_add_of_le' hlo
    exact schedule2_getD_next blk (by omega)
  · have hround : v (t + 1) = step2 (k256At t + w t) (v t) := varsAfter_succ round2 _ _ _ (by simpa using ht)
    simp only [hround, step2, k256At, BitVec.add_assoc, and_self]
  · rw [compress, compress256_eq]
    rfl

end Sys2Proof.Machine
end

section
/-! INIT (R210). -/

namespace Sys2Proof.Machine

/-- An INIT that passes its checks leaves its slot as R210 says, and everything else as it was. -/
theorem exec_initOf {c : Nat} {s : State} (hext : s.platform.hasShaExt = true) (hc : c < s.nCtx) (alg : Alg) :
    ∃ t x, exec (initOf alg c) s = .next t ∧ s.onlySlot c t ∧ t.slot c = some x ∧
      x.life = .fresh ∧ x.alg = alg ∧ x.plen = 0#7 ∧ x.total = 0#64 ∧ (∀ y, s.slot c = some y → x.buf = y.buf) ∧
      x.h = iv alg := by
  have hgo (op : BitVec 4) : (s.atSlot op c fun _ => s.init c alg) = s.init c alg := State.atSlot_go hext hc
  have hexec : exec (initOf alg c) s = .next (s.init c alg) := by
    cases alg <;> exact congrArg Host.Outcome.next (hgo 1#4)
  have honly : s.onlySlot c (s.init c alg) :=
    ⟨⟨rfl, rfl, rfl, rfl, rfl, rfl⟩, rfl, s.sameSlotsBut_setSlot c _, fun _ => rfl⟩
  refine ⟨_, _, hexec, honly, State.slot_setSlot_same hc _, rfl, rfl, rfl, rfl, fun y hy => ?_, rfl⟩
  rw [hy]

/-- Settles O25: one law for the three rows, with the initial vector of each (R114 to R116). -/
theorem initStartsHash : Obligations.InitStartsHash := fun _ _ hext hc =>
  ⟨exec_initOf hext hc .sha1, exec_initOf hext hc .sha256, exec_initOf hext hc .sha224⟩

end Sys2Proof.Machine
end

section
/-! The thirteen primitives (41_hash_primitives.md R140 to R155): each writes its result to xmm1 and leaves the rest (R92,
R147), and the results read round by round, lane by lane and byte by byte. -/

namespace Sys2Proof.Machine

/-! ## The written register -/

@[simp] theorem State.reg_setReg_same (s : State) (d : XReg) (v : Vec) : (s.setReg d v).reg d = v := by
  rw [State.reg_setReg, if_pos rfl]

theorem State.onlyReg_setReg (s : State) (d : XReg) (v : Vec) : s.onlyReg d (s.setReg d v) := by
  have hregs : s.sameRegsBut d (s.setReg d v) := fun k hk => by rw [State.reg_setReg, if_neg hk]
  exact ⟨hregs, ⟨rfl, rfl, rfl, rfl, rfl, rfl⟩, rfl, rfl, fun _ => rfl, rfl⟩

/-- A primitive whose meaning is a register write gives a state in which only that register changed; what is said of its
new value is said of the value written. -/
theorem exists_onlyReg_of_exec {i : Instr} {s : State} {d : XReg} {v : Vec} (hexec : exec i s = .next (s.setReg d v)) :
    ∃ t, exec i s = .next t ∧ s.onlyReg d t ∧ t.reg d = v :=
  ⟨_, hexec, s.onlyReg_setReg d v, s.reg_setReg_same d v⟩

/-! ## Rounds (R140, R144) -/

theorem varsAfter_range_succ {α β : Type} (body : Nat → α → β → β) (w : Nat → α) (v : β) {n t : Nat} (ht : t < n) :
    varsAfter body ((List.range n).map w) v (t + 1) = body t (w t) (varsAfter body ((List.range n).map w) v t) := by
  rw [varsAfter_succ body _ v (w t) (by simpa using ht)]
  simp [List.getD_eq_getElem?_getD, ht]

/-- The variables of SHA1RNDS4 after `t` of its four rounds (R140). -/
def rnds4After (x y : Vec) (imm : Byte) : Nat → Vars1 :=
  varsAfter (fun _ => rnds4Round (imm.toNat % 4)) ((List.range 4).map fun k => lane y (3 - k))
    ⟨lane x 3, lane x 2, lane x 1, lane x 0, 0#32⟩

theorem rnds4After_succ (x y : Vec) (imm : Byte) {k : Nat} (hk : k < 4) :
    rnds4After x y imm (k + 1) = rnds4Round (imm.toNat % 4) (lane y (3 - k)) (rnds4After x y imm k) :=
  varsAfter_range_succ _ _ _ hk

theorem sha1rnds4_eq_rnds4After (x y : Vec) (imm : Byte) :
    sha1rnds4 x y imm = (let v := rnds4After x y imm 4; vec v.a v.b v.c v.d) := by
  have hsel : (imm.extractLsb' 0 2).toNat = imm.toNat % 4 := BitVec.extractLsb'_toNat 0 2 imm
  simp only [sha1rnds4, hsel]
  rfl

/-- The constants of R112 as a list in the order of their selectors. -/
theorem k1_eq_getD {sel : Nat} (hsel : sel < 4) :
    k1 sel = [0x5A827999#32, 0x6ED9EBA1#32, 0x8F1BBCDC#32, 0xCA62C1D6#32].getD sel 0#32 := by
  interval_cases sel <;> rfl

/-- The variables of SHA256RNDS2 after `t` of its two rounds (R144). -/
def rnds2After (x y wk : Vec) : Nat → Vars2 :=
  varsAfter (fun _ => step2) ((List.range 2).map (lane wk))
    ⟨lane y 3, lane y 2, lane x 3, lane x 2, lane y 1, lane y 0, lane x 1, lane x 0⟩

theorem rnds2After_succ (x y wk : Vec) {i : Nat} (hi : i < 2) :
    rnds2After x y wk (i + 1) = step2 (lane wk i) (rnds2After x y wk i) :=
  varsAfter_range_succ _ _ _ hi

theorem sha256rnds2_eq_rnds2After (x y wk : Vec) :
    sha256rnds2 x y wk = (let v := rnds2After x y wk 2; vec v.a v.b v.e v.f) := rfl

/-- Settles O8: the variables are those after each round. -/
theorem sha1rnds4Result : Obligations.Sha1rnds4Result := by
  intro d r imm s
  let v := rnds4After (s.reg d) (s.reg r) imm
  obtain ⟨t, hexec, honly, hreg⟩ := exists_onlyReg_of_exec (i := .sha1rnds4 d r imm) (s := s) rfl
  refine ⟨t, fun k => (v k).a, fun k => (v k).b, fun k => (v k).c, fun k => (v k).d, fun k => (v k).e, hexec, honly,
    rfl, rfl, rfl, rfl, rfl, fun k hk => ?_, hreg.trans (sha1rnds4_eq_rnds4After _ _ _)⟩
  have hround : v (k + 1) = rnds4Round (imm.toNat % 4) (lane (s.reg r) (3 - k)) (v k) := rnds4After_succ _ _ _ hk
  have hsel : imm.toNat % 4 < 4 := Nat.mod_lt _ (by decide)
  simp only [hround, rnds4Round, k1_eq_getD hsel, and_true]
  -- the functions of R140 remain, selector by selector
  generalize imm.toNat % 4 = sel at hsel
  interval_cases sel <;> rfl

/-- Settles O11: the variables are those after each round; WK is the old xmm0. -/
theorem sha256rnds2Result : Obligations.Sha256rnds2Result := by
  intro d r s
  let v := rnds2After (s.reg d) (s.reg r) (s.reg 0)
  obtain ⟨t, hexec, honly, hreg⟩ := exists_onlyReg_of_exec (i := .sha256rnds2 d r) (s := s) rfl
  refine ⟨t, fun i => (v i).a, fun i => (v i).b, fun i => (v i).c, fun i => (v i).d, fun i => (v i).e, fun i => (v i).f,
    fun i => (v i).g, fun i => (v i).h, hexec, honly, rfl, rfl, rfl, rfl, rfl, rfl, rfl, rfl, fun i hi => ?_,
    hreg.trans (sha256rnds2_eq_rnds2After _ _ _)⟩
  have hround : v (i + 1) = step2 (lane (s.reg 0) i) (v i) := rnds2After_succ _ _ _ hi
  simp only [hround, step2, and_true, true_and]
  -- the two sums remain, in another order of their terms
  constructor <;> ac_rfl

/-! ## Bytes, lanes and 16-bit words of a result (R150 to R153, R155) -/

theorem byteOf_pshufb (x mask : Vec) {j : Nat} (hj : j < 16) :
    byteOf (pshufb x mask) j =
      if (byteOf mask j).getLsbD 7 then 0#8 else byteOf x ((byteOf mask j).toNat % 16) := by
  have hsel : ((byteOf mask j).extractLsb' 0 4).toNat = (byteOf mask j).toNat % 16 := BitVec.extractLsb'_toNat 0 4 _
  rw [pshufb, byteOf_ofBytes _ _ hj, ← hsel]

theorem lane_pshufd (x : Vec) (imm : Byte) {i : Nat} (hi : i < 4) : lane (pshufd x imm) i = lane x (imm.toNat / 4 ^ i % 4) := by
  have hsel : (imm.extractLsb' (2 * i) 2).toNat = imm.toNat / 4 ^ i % 4 := by
    rw [BitVec.extractLsb'_toNat, Nat.shiftRight_eq_div_pow, Nat.pow_mul]
  rw [← hsel]
  interval_cases i <;> simp [pshufd]

/-- Byte `j` of PALIGNR is byte `imm8 + j` of the 32 bytes `x : y`, and 0 past them. -/
theorem byteOf_palignr (x y : Vec) (imm : Byte) {j : Nat} (hj : j < 16) :
    byteOf (palignr x y imm) j =
      if imm.toNat + j < 16 then byteOf y (imm.toNat + j)
      else if imm.toNat + j < 32 then byteOf x (imm.toNat + j - 16)
      else 0#8 := by
  apply BitVec.eq_of_getLsbD_eq
  intro i hi
  have hbyte (z : Vec) (k : Nat) : (byteOf z k).getLsbD i = z.getLsbD (8 * k + i) := by simp [byteOf, hi]
  have hbit : 8 * imm.toNat + (8 * j + i) = 8 * (imm.toNat + j) + i := by omega
  rw [hbyte, getLsbD_palignr _ _ _ _ (by omega), hbit]
  generalize imm.toNat + j = k
  rcases Nat.lt_or_ge k 16 with hlow | hlow
  · rw [if_pos (by omega), if_pos hlow, hbyte]
  · rw [if_neg (by omega), if_neg (by omega)]
    split
    · have hhigh : 8 * k + i - 128 = 8 * (k - 16) + i := by omega
      rw [hbyte, hhigh]
    · rw [BitVec.getLsbD_of_ge _ _ (by omega), BitVec.getLsbD_zero]

theorem lane_paddd (x y : Vec) {i : Nat} (hi : i < 4) : lane (paddd x y) i = lane x i + lane y i := by
  interval_cases i <;> simp [paddd]

theorem wordOf_pblendw (x y : Vec) (imm : Byte) {j : Nat} (hj : j < 8) :
    wordOf (pblendw x y imm) j = if imm.getLsbD j then wordOf y j else wordOf x j :=
  wordOf_ofWords _ _ hj

/-- Settles O13, by `byteOf_pshufb`. -/
theorem pshufbResult : Obligations.PshufbResult := by
  intro d r s
  obtain ⟨t, hexec, honly, hreg⟩ := exists_onlyReg_of_exec (i := .pshufb d r) (s := s) rfl
  exact ⟨t, hexec, honly, fun j hj => hreg ▸ byteOf_pshufb _ _ hj⟩

/-- Settles O14, by `lane_pshufd`. -/
theorem pshufdResult : Obligations.PshufdResult := by
  intro d r imm s
  obtain ⟨t, hexec, honly, hreg⟩ := exists_onlyReg_of_exec (i := .pshufd d r imm) (s := s) rfl
  exact ⟨t, hexec, honly, fun i hi => hreg ▸ lane_pshufd _ _ hi⟩

/-- Settles O15, by `byteOf_palignr`. -/
theorem palignrResult : Obligations.PalignrResult := by
  intro d r imm s
  obtain ⟨t, hexec, honly, hreg⟩ := exists_onlyReg_of_exec (i := .palignr d r imm) (s := s) rfl
  exact ⟨t, hexec, honly, fun j hj => hreg ▸ byteOf_palignr _ _ _ hj⟩

/-- Settles O17, by `wordOf_pblendw`. -/
theorem pblendwResult : Obligations.PblendwResult := by
  intro d r imm s
  obtain ⟨t, hexec, honly, hreg⟩ := exists_onlyReg_of_exec (i := .pblendw d r imm) (s := s) rfl
  exact ⟨t, hexec, honly, fun j hj => hreg ▸ wordOf_pblendw _ _ _ hj⟩

/-- Settles O16: the sums by `lane_paddd`; the exclusive or is the meaning itself. -/
theorem padddPxorResults : Obligations.PadddPxorResults := by
  intro d r s
  constructor
  · obtain ⟨t, hexec, honly, hreg⟩ := exists_onlyReg_of_exec (i := .paddd d r) (s := s) rfl
    exact ⟨t, hexec, honly, fun i hi => hreg ▸ lane_paddd _ _ hi⟩
  · exact exists_onlyReg_of_exec (i := .pxor d r) rfl

/-! ## Results that are written lane by lane (R141 to R143, R145, R146) -/

/-- Settles O9: the lanes of the vector written. -/
theorem sha1nexteResult : Obligations.Sha1nexteResult := by
  intro d r s
  obtain ⟨t, hexec, honly, hreg⟩ := exists_onlyReg_of_exec (i := .sha1nexte d r) (s := s) rfl
  refine ⟨t, hexec, honly, ?_⟩
  simp [hreg, sha1nexte]

/-- Settles O10: the lanes of the vectors written; lane 3 of SHA1MSG2 is the W16 of the same call. -/
theorem sha1MessageResults : Obligations.Sha1MessageResults := by
  intro d r s
  constructor
  · obtain ⟨t, hexec, honly, hreg⟩ := exists_onlyReg_of_exec (i := .sha1msg1 d r) (s := s) rfl
    exact ⟨t, hexec, honly, by simp [hreg, sha1msg1]⟩
  · obtain ⟨t, hexec, honly, hreg⟩ := exists_onlyReg_of_exec (i := .sha1msg2 d r) (s := s) rfl
    exact ⟨t, hexec, honly, by simp [hreg, sha1msg2]⟩

/-- Settles O12: the lanes of the vectors written; lanes 0 and 1 of SHA256MSG2 are the W16 and W17 of the same call. -/
theorem sha256MessageResults : Obligations.Sha256MessageResults := by
  intro d r s
  constructor
  · obtain ⟨t, hexec, honly, hreg⟩ := exists_onlyReg_of_exec (i := .sha256msg1 d r) (s := s) rfl
    exact ⟨t, hexec, honly, by simp [hreg, sha256msg1]⟩
  · obtain ⟨t, hexec, honly, hreg⟩ := exists_onlyReg_of_exec (i := .sha256msg2 d r) (s := s) rfl
    exact ⟨t, hexec, honly, by simp [hreg, sha256msg2]⟩

end Sys2Proof.Machine
end

section
/-! The schedules of primitives (R173 to R180): the message groups are the schedule taken four words at a time, and a group of
the loop is four rounds of the compression function, so the packed and the plain form go side by side. -/

namespace Sys2Proof.Machine

/-! ## Words in groups of four -/

section Groups

variable {words : Vec → List Word} (hwords : ∀ m, (words m).length = 4)
include hwords

/-- Word `i` of group `g` stands at `4g + i` in the row of all words. -/
theorem flatMap_words_getD {gs : List Vec} {g i : Nat} (hg : g < gs.length) (hi : i < 4) :
    (gs.flatMap words).getD (4 * g + i) 0#32 = (words (gs.getD g 0#128)).getD i 0#32 := by
  induction gs generalizing g with
  | nil => simp at hg
  | cons m gs ih =>
    rw [List.flatMap_cons]
    cases g with
    | zero => rw [Nat.mul_zero, Nat.zero_add, List.getD_append _ _ _ _ (by rwa [hwords]), List.getD_cons_zero]
    | succ g =>
      have hskip : 4 * (g + 1) + i - (words m).length = 4 * g + i := by rw [hwords]; omega
      rw [List.getD_append_right _ _ _ _ (by rw [hwords]; omega), hskip, List.getD_cons_succ]
      exact ih (Nat.lt_of_succ_lt_succ hg)

/-- When each group keeps a relation to the four rounds on its words, the whole loop keeps it to all the rounds. -/
theorem roundsFrom_flatMap {β γ : Type} {group : Nat → Vec → β → β} {round : Nat → Word → γ → γ}
    {R : Nat → β → γ → Prop} {n : Nat}
    (hstep : ∀ g < n, ∀ m p v, R g p v → R (g + 1) (group g m p) (roundsFrom round (4 * g) (words m) v))
    {gs : List Vec} {g : Nat} {p : β} {v : γ} (hn : g + gs.length = n) (hR : R g p v) :
    R n (roundsFrom group g gs p) (roundsFrom round (4 * g) (gs.flatMap words) v) := by
  induction gs generalizing g p v with
  | nil => exact (hn : g = n) ▸ hR
  | cons m gs ih =>
    rw [List.length_cons] at hn
    rw [List.flatMap_cons, roundsFrom_append, hwords]
    exact ih (by omega) (hstep g (by omega) m p v hR)

end Groups

/-- Groups kept newest first, each next one four more words, grow as the words do. -/
theorem extendBy_groups {newestWords : List Vec → List Word} {nextGroup : List Vec → Vec} {next : List Word → Word}
    (hnext : ∀ gs, 4 ≤ gs.length → newestWords (nextGroup gs :: gs) = extendBy next 4 (newestWords gs))
    (n : Nat) {gs : List Vec} (hgs : 4 ≤ gs.length) :
    newestWords (extendBy nextGroup n gs) = extendBy next (4 * n) (newestWords gs) := by
  induction n generalizing gs with
  | zero => rfl
  | succ n ih =>
    have hgs' : 4 ≤ (nextGroup gs :: gs).length := Nat.le_succ_of_le hgs
    rw [extendBy, ih hgs', hnext gs hgs, ← extendBy_add, Nat.mul_succ, Nat.add_comm]

/-! ## SHA-1 message groups (R176(a)) -/

/-- The four words of a SHA-1 group, the earliest first. -/
def groupWords1 (m : Vec) : List Word := [lane m 3, lane m 2, lane m 1, lane m 0]

theorem newestWords1_cons_next (gs : List Vec) (hgs : 4 ≤ gs.length) :
    newestWords1 (nextGroup1 gs :: gs) = extendBy next1 4 (newestWords1 gs) :=
  match gs, hgs with
  | m3 :: m2 :: m1 :: m0 :: rest, _ => newestWords1_next m3 m2 m1 m0 rest

theorem newestWords1_loaded (blk : List Byte) :
    newestWords1 ((List.range 4).map fun g => pshufb (loadGroup blk g) mask1).reverse = (messageWords blk).reverse := by
  simp [newestWords1, messageWords, loadGroup, pshufb_mask1, be32_group, List.range_succ]

/-- The words of the message groups are the schedule. -/
theorem schedule1_eq_groups1 (blk : List Byte) : schedule1 blk = (groups1 blk).flatMap groupWords1 := by
  have hnewest := extendBy_groups newestWords1_cons_next 16
    (gs := ((List.range 4).map fun g => pshufb (loadGroup blk g) mask1).reverse) (by simp)
  rw [newestWords1_loaded] at hnewest
  rw [schedule1, ← hnewest, newestWords1, List.reverse_flatMap]
  rfl

/-- Settles O20: the words of a group are its lanes. -/
theorem sha1MessageGroups : Obligations.Sha1MessageGroups := by
  intro blk g hg w
  have hw (i : Nat) (hi : i < 4) : w (4 * g + i) = (groupWords1 ((groups1 blk).getD g 0#128)).getD i 0#32 := by
    rw [← flatMap_words_getD (fun _ => rfl) (by simpa using hg) hi, ← schedule1_eq_groups1]
  have hw0 : w (4 * g) = lane ((groups1 blk).getD g 0#128) 3 := hw 0 (by decide)
  rw [hw0, hw 1 (by decide), hw 2 (by decide), hw 3 (by decide)]
  exact (vec_lanes _).symm

/-! ## SHA-256 message groups (R179(a)) -/

/-- The four words of a SHA-256 group, the earliest first. -/
def groupWords2 (m : Vec) : List Word := [lane m 0, lane m 1, lane m 2, lane m 3]

theorem newestWords2_cons_next (gs : List Vec) (hgs : 4 ≤ gs.length) :
    newestWords2 (nextGroup2 gs :: gs) = extendBy next2 4 (newestWords2 gs) :=
  match gs, hgs with
  | m3 :: m2 :: m1 :: m0 :: rest, _ => newestWords2_next m3 m2 m1 m0 rest

theorem newestWords2_loaded (blk : List Byte) :
    newestWords2 ((List.range 4).map fun g => pshufb (loadGroup blk g) mask256).reverse = (messageWords blk).reverse := by
  simp [newestWords2, messageWords, loadGroup, pshufb_mask256, be32_group, List.range_succ]

/-- The words of the message groups are the schedule. -/
theorem schedule2_eq_groups2 (blk : List Byte) : schedule2 blk = (groups2 blk).flatMap groupWords2 := by
  have hnewest := extendBy_groups newestWords2_cons_next 12
    (gs := ((List.range 4).map fun g => pshufb (loadGroup blk g) mask256).reverse) (by simp)
  rw [newestWords2_loaded] at hnewest
  rw [schedule2, ← hnewest, newestWords2, List.reverse_flatMap]
  rfl

/-- Settles O21: the words of a group are its lanes. -/
theorem sha256MessageGroups : Obligations.Sha256MessageGroups := by
  intro blk g hg w
  have hw (i : Nat) (hi : i < 4) : w (4 * g + i) = (groupWords2 ((groups2 blk).getD g 0#128)).getD i 0#32 := by
    rw [← flatMap_words_getD (fun _ => rfl) (by simpa using hg) hi, ← schedule2_eq_groups2]
  have hw0 : w (4 * g) = lane ((groups2 blk).getD g 0#128) 0 := hw 0 (by decide)
  rw [hw0, hw 1 (by decide), hw 2 (by decide), hw 3 (by decide)]
  exact (vec_lanes _).symm

/-! ## One block of SHA-1 (R174, R176) -/

/-- What the group loop carries before group `g`, for the variables after `4g` rounds (R176(b), (c)): ABCD holds the first
four, and E is what group `g` folds in, from the saved E for group 0 and from PREV after it. -/
def Loop1.Carries (e0 : Word) (g : Nat) (p : Loop1) (v : Vars1) : Prop :=
  p.abcd = vec v.a v.b v.c v.d ∧ v.e = if g = 0 then e0 else rotl 30 (lane p.prev 3)

/-- The word vector of group `g` has E folded into its first word (R176(c)). -/
theorem Loop1.Carries.we {e0 : Word} {g : Nat} {p : Loop1} {v : Vars1} (h : p.Carries e0 g v) (m : Vec) :
    (if g = 0 then paddd (vec e0 0#32 0#32 0#32) m else sha1nexte p.prev m) =
      vec (lane m 3 + v.e) (lane m 2) (lane m 1) (lane m 0) := by
  obtain ⟨_, he⟩ := h
  rw [he]
  split
  · simp [paddd, BitVec.add_comm]
  · rfl

/-- A group of the loop is four rounds. -/
theorem Loop1.Carries.succ {e0 : Word} {g : Nat} (hg : g < 20) (m : Vec) (p : Loop1) (v : Vars1) (h : p.Carries e0 g v) :
    (group1 (vec e0 0#32 0#32 0#32) g m p).Carries e0 (g + 1) (roundsFrom round1 (4 * g) (groupWords1 m) v) := by
  have hrounds := sha1rnds4_rounds g hg v (lane m 3) (lane m 2) (lane m 1) (lane m 0)
  have hwe := h.we m
  obtain ⟨habcd, _⟩ := h
  constructor
  · rw [group1, hwe, habcd, hrounds]
    rfl
  · rw [groupWords1, four_rounds_e, if_neg (Nat.succ_ne_zero g), group1, habcd, lane_vec_3]

/-- The twenty groups of the loop are the eighty rounds. -/
theorem carries_groups1 (blk : List Byte) (v : Vars1) :
    (roundsFrom (group1 (vec v.e 0#32 0#32 0#32)) 0 (groups1 blk) ⟨vec v.a v.b v.c v.d, vec v.a v.b v.c v.d⟩).Carries
      v.e 20 (roundsFrom round1 0 (schedule1 blk) v) := by
  rw [schedule1_eq_groups1]
  exact roundsFrom_flatMap (fun _ => rfl) (R := Loop1.Carries v.e) (fun _ hg => Loop1.Carries.succ hg) (by simp) ⟨rfl, rfl⟩

/-- One block of the SHA-1 schedule, on the packed chaining value, is the compression (R176(d), R181). -/
theorem block1_pack1 (h : Vector Word 8) (blk : List Byte) : block1 (pack1 h) blk = pack1 (compress .sha1 h blk) := by
  have hpack : pack1 h = (let v := chain1 h; ⟨vec v.a v.b v.c v.d, vec v.e 0#32 0#32 0#32⟩) := pack1_lanes h
  obtain ⟨habcd, he⟩ := carries_groups1 blk (chain1 h)
  rw [if_neg (by decide)] at he
  rw [compress, pack1_setChain1, hpack, block1, habcd, compress1, sha1nexte, Vars1.add, he]
  -- the sums lane by lane remain, in another order of their terms
  simp [paddd, BitVec.add_comm]

/-! ## One block of SHA-256 (R178, R179) -/

/-- Variables in the packed layout: ABEF and CDGH (R177). -/
def Vars2.packed (v : Vars2) : Packed2 := ⟨vec v.a v.b v.e v.f, vec v.c v.d v.g v.h⟩

/-- SHA256RNDS2 on packed variables, with the sums of two rounds in lanes 0 and 1, is those two rounds (R144). -/
theorem sha256rnds2_packed (v : Vars2) {wk : Vec} {t : Nat} {w0 w1 : Word} (h0 : lane wk 0 = k256At t + w0)
    (h1 : lane wk 1 = k256At (t + 1) + w1) :
    sha256rnds2 v.packed.state1 v.packed.state0 wk = (roundsFrom round2 t [w0, w1] v).packed.state0 := by
  rw [Vars2.packed, sha256rnds2_steps, h0, h1]
  rfl

/-- Two rounds move ABEF into CDGH (R178). -/
theorem packed_state1_two_rounds (t : Nat) (w0 w1 : Word) (v : Vars2) :
    (roundsFrom round2 t [w0, w1] v).packed.state1 = v.packed.state0 := rfl

/-- A group of the loop is four rounds (R179(b)). -/
theorem group2_packed (g : Nat) (m : Vec) (v : Vars2) :
    group2 g m v.packed = (roundsFrom round2 (4 * g) (groupWords2 m) v).packed := by
  let mid := roundsFrom round2 (4 * g) [lane m 0, lane m 1] v
  let wk := paddd m (kGroup g)
  have hwk : wk = vec (k256At (4 * g + 3) + lane m 3) (k256At (4 * g + 2) + lane m 2) (k256At (4 * g + 1) + lane m 1)
      (k256At (4 * g) + lane m 0) := by simp [wk, paddd, kGroup, BitVec.add_comm]
  have hmid : sha256rnds2 v.packed.state1 v.packed.state0 wk = mid.packed.state0 :=
    sha256rnds2_packed v (by rw [hwk, lane_vec_0]) (by rw [hwk, lane_vec_1])
  have hlast : sha256rnds2 v.packed.state0 mid.packed.state0 (pshufd wk 0x0E#8) =
      (roundsFrom round2 (4 * g + 2) [lane m 2, lane m 3] mid).packed.state0 :=
    sha256rnds2_packed mid (by rw [pshufd_high, lane_vec_0, hwk, lane_vec_2]) (by rw [pshufd_high, lane_vec_1, hwk, lane_vec_3])
  calc group2 g m v.packed
      = ⟨sha256rnds2 v.packed.state0 (sha256rnds2 v.packed.state1 v.packed.state0 wk) (pshufd wk 0x0E#8),
          sha256rnds2 v.packed.state1 v.packed.state0 wk⟩ := rfl
    _ = (roundsFrom round2 (4 * g + 2) [lane m 2, lane m 3] mid).packed := by rw [hmid, hlast]; rfl
    _ = (roundsFrom round2 (4 * g) (groupWords2 m) v).packed := rfl

/-- The sixteen groups of the loop are the sixty-four rounds. -/
theorem groups2_packed (blk : List Byte) (v : Vars2) :
    roundsFrom group2 0 (groups2 blk) v.packed = (roundsFrom round2 0 (schedule2 blk) v).packed := by
  rw [schedule2_eq_groups2]
  exact roundsFrom_flatMap (fun _ => rfl) (R := fun _ p (v : Vars2) => p = v.packed)
    (fun g _ m _ v hp => (congrArg (group2 g m) hp).trans (group2_packed g m v)) (Nat.zero_add _) rfl

/-- One block of the SHA-256 schedule, on the packed chaining value, is the compression (R181). -/
theorem block2_pack2 (h : Vector Word 8) (blk : List Byte) : block2 (pack2 h) blk = pack2 (compress .sha256 h blk) := by
  have hpack : pack2 h = (chain2 h).packed := pack2_lanes h
  rw [compress, pack2_setChain2, block2, hpack, groups2_packed, compress256]
  -- the sums lane by lane remain, in another order of their terms
  simp [paddd, Vars2.packed, Vars2.add, BitVec.add_comm]

/-! ## Runs of blocks (R180) -/

theorem unpack1_pack1 (h : Vector Word 8) : unpack1 h (pack1 h) = h := by
  rw [pack1_lanes]
  simp [unpack1, vector8_words]

theorem unpack2_pack2 (h : Vector Word 8) : unpack2 (pack2 h) = h := by
  rw [pack2_lanes, unpack2_lanes, vector8_words]

/-- Blocks run on the packed form between one packing and one unpacking are the blocks compressed, when the two are inverse,
one packed block is one compression, and a compression changes nothing that unpacking takes from the chaining value. -/
theorem unpack_foldl_pack {π : Type} {pack : Vector Word 8 → π} {unpack : Vector Word 8 → π → Vector Word 8}
    {block : π → List Byte → π} {alg : Alg} (hinv : ∀ h, unpack h (pack h) = h)
    (hblock : ∀ h blk, block (pack h) blk = pack (compress alg h blk))
    (hkeep : ∀ h blk p, unpack (compress alg h blk) p = unpack h p) (blks : List (List Byte)) (h : Vector Word 8) :
    unpack h (blks.foldl block (pack h)) = blks.foldl (compress alg) h := by
  induction blks generalizing h with
  | nil => exact hinv h
  | cons blk blks ih => rw [List.foldl_cons, List.foldl_cons, hblock, ← hkeep h blk, ih]

/-- Settles O22: SHA-1 leaves H[5..7], which unpacking takes from H, and SHA-224 compresses as SHA-256 does. -/
theorem primitiveScheduleIsCompression : Obligations.PrimitiveScheduleIsCompression := by
  intro alg h blks
  have hsha256 : unpack2 (blks.foldl block2 (pack2 h)) = blks.foldl (compress .sha256) h :=
    unpack_foldl_pack (unpack := fun _ => unpack2) unpack2_pack2 block2_pack2 (fun _ _ _ => rfl) blks h
  cases alg with
  | sha1 => exact unpack_foldl_pack unpack1_pack1 block1_pack1 (fun _ _ _ => rfl) blks h
  | sha256 => exact hsha256
  | sha224 => exact compress_sha224 ▸ hsha256

end Sys2Proof.Machine
end

section
/-! The checks before a command, answered (R251): which fault a check that fails raises, and the state a command that passes
its checks leaves. -/

namespace Sys2Proof.Machine

/-! ## What a check answers -/

section Checks

variable {s : State} {op : BitVec 4} {c : Nat}

theorem State.unfinished_free {go : HashState → State} (h : s.slot c = none) :
    s.unfinished op c go = s.raiseFault .notInit op (BitVec.ofNat 8 c) :=
  State.inUse_free h

theorem State.unfinished_finalized {x : HashState} {go : HashState → State} (h : s.slot c = some x)
    (hl : x.life = .finalized) : s.unfinished op c go = s.raiseFault .finalized op (BitVec.ofNat 8 c) :=
  (State.inUse_go h).trans (if_pos hl)

theorem State.withRange_go {kind : AccessKind} {a n : Nat} {go : Unit → State} (h : s.platform.admitted kind a n = true) :
    s.withRange op c kind a n go = go () :=
  if_pos h

theorem State.withRange_refused {kind : AccessKind} {a n : Nat} {go : Unit → State}
    (h : s.platform.admitted kind a n = false) :
    s.withRange op c kind a n go = s.raiseFault .bus op (BitVec.ofNat 8 c) :=
  if_neg (ne_true_of_eq_false h)

/-- With the extensions and the slot, a command answers what its further checks answer. -/
theorem next_atSlot {go : Unit → State} {t : State} (hext : s.platform.hasShaExt = true) (hc : c < s.nCtx) (h : go () = t) :
    (.next (s.atSlot op c go) : Result) = .next t :=
  congrArg Host.Outcome.next ((State.atSlot_go hext hc).trans h)

/-- On a slot that takes bytes, a command answers what follows its lifecycle checks. -/
theorem next_unfinished {go : HashState → State} {x : HashState} {t : State} (hext : s.platform.hasShaExt = true)
    (hx : s.slot c = some x) (hl : x.life ≠ .finalized) (h : go x = t) :
    (.next (s.atSlot op c fun _ => s.unfinished op c go) : Result) = .next t :=
  next_atSlot hext (State.lt_of_slot hx) ((State.unfinished_go hx hl).trans h)

end Checks

/-! ## Frames of a slot write -/

theorem State.onlySlot_setSlot (s : State) (c : Nat) (o : Option HashState) : s.onlySlot c (s.setSlot c o) :=
  ⟨⟨rfl, rfl, rfl, rfl, rfl, rfl⟩, rfl, s.sameSlotsBut_setSlot c o, fun _ => rfl⟩

theorem State.onlySlot_setSlot_clobberXmm (s : State) (c : Nat) (o : Option HashState) :
    s.onlySlot c (s.setSlot c o).clobberXmm :=
  s.onlySlot_setSlot c o

/-! ## CLONE, RESET and RELEASE (R214 to R216) -/

/-- Settles O28: past its checks CLONE is one slot write, of the source's fields. -/
theorem cloneCopiesSlot : Obligations.CloneCopiesSlot := by
  intro c src s hext hc
  refine ⟨fun hsrc => next_atSlot hext hc (if_pos hsrc), fun hsrc hfree => next_atSlot hext hc ?_, fun x hx => ?_⟩
  · rw [if_neg (Nat.not_le.2 hsrc), hfree]
  · have hexec : exec (.clone c src) s = .next (s.setSlot c (some x)) := next_atSlot hext hc (by
      rw [if_neg (Nat.not_le.2 (State.lt_of_slot hx)), hx])
    have hkept : (s.setSlot c (some x)).slot src = some x := by
      rw [State.slot_setSlot]
      split
      · rfl
      · exact hx
    exact ⟨_, hexec, s.onlySlot_setSlot c _, State.slot_setSlot_same hc _, hkept⟩

theorem exec_initOf_eq {c : Nat} {s : State} (hext : s.platform.hasShaExt = true) (hc : c < s.nCtx) (alg : Alg) :
    exec (initOf alg c) s = .next (s.init c alg) := by
  cases alg <;> exact next_atSlot hext hc rfl

/-- Settles O29: RESET and the INIT of the slot's algorithm answer the same state. -/
theorem resetRestartsSlot : Obligations.ResetRestartsSlot := by
  intro c s hext hc
  refine ⟨fun hfree => next_atSlot hext hc (State.inUse_free hfree), fun x hx => ?_⟩
  have hreset : exec (.reset c) s = .next (s.init c x.alg) := next_atSlot hext hc (State.inUse_go hx)
  have hsame : exec (.reset c) s = exec (initOf x.alg c) s := hreset.trans (exec_initOf_eq hext hc x.alg).symm
  obtain ⟨t, y, hexec, honly, hy, hlife, halg, hplen, htotal, _, hh⟩ := exec_initOf hext hc x.alg
  exact ⟨hsame, t, y, hsame.trans hexec, honly, hy, hlife, halg, hh, hplen, htotal⟩

theorem exec_release_free {c : Nat} {s : State} (hext : s.platform.hasShaExt = true) (hc : c < s.nCtx)
    (hfree : s.slot c = none) : exec (.release c) s = .next (s.raiseFault .notInit 6#4 (BitVec.ofNat 8 c)) :=
  next_atSlot hext hc (State.inUse_free hfree)

/-- Settles O30: past its checks RELEASE is one slot write, and what it leaves meets a FREE slot. -/
theorem releaseFreesSlot : Obligations.ReleaseFreesSlot := by
  intro c s hext hc
  refine ⟨exec_release_free hext hc, fun x hx => ?_⟩
  have hexec : exec (.release c) s = .next (s.setSlot c none) := next_atSlot hext hc (State.inUse_go hx)
  have hfree : (s.setSlot c none).slot c = none := State.slot_setSlot_same hc none
  exact ⟨_, hexec, s.onlySlot_setSlot c none, hfree, exec_release_free hext ((s.nCtx_setSlot c none).symm ▸ hc) hfree⟩

/-! ## XFORM (R217) -/

/-- The transform on host memory takes its blocks in address order (R170). -/
theorem transform_eq_foldl (m : Memory) (alg : Alg) (n : Nat) (h : Vector Word 8) (a : Nat) :
    transform m alg n h a = ((List.range n).map fun i => m.readBytes (a + 64 * i) 64).foldl (compress alg) h := by
  induction n generalizing h a with
  | zero => rfl
  | succ n ih =>
    have hnext (i : Nat) : a + 64 + 64 * i = a + 64 * (i + 1) := by omega
    simp only [transform, ih, hnext, List.range_succ_eq_map, List.map_cons, List.map_map, List.foldl_cons, Nat.mul_zero,
      Nat.add_zero, Function.comp_def, Nat.succ_eq_add_one]

/-- More than 2^58 blocks end past the address space, wherever they start (R62). -/
theorem Platform.admitted_blocks_eq_false (p : Platform) (kind : AccessKind) (a : DWord) {n : Nat} (hn : 2 ^ 58 < n) :
    p.admitted kind a.toNat (64 * n) = false := by
  refine eq_false_of_ne_true fun ha => ?_
  have hend : a.toNat + 64 * n ≤ 2 ^ 64 := Platform.le_of_admitted ha
  omega

/-- Settles O31: the faults one check after the other; past them XFORM is one slot write. -/
theorem xformCompressesBlocks : Obligations.XformCompressesBlocks := by
  intro c s hext hc
  refine ⟨fun hfree => next_atSlot hext hc (State.unfinished_free hfree), fun x hx =>
    ⟨fun hl => next_atSlot hext hc (State.unfinished_finalized hx hl), fun hl => ⟨fun hbus => ?_, fun ha => ?_⟩⟩⟩
  · have hrefused : s.platform.admitted .read s.addrArg (64 * s.lenArg) = false :=
      hbus.elim id (s.platform.admitted_blocks_eq_false .read s.argAddr)
    exact next_unfinished hext hx hl (State.withRange_refused hrefused)
  · have hexec : exec (.xform c) s = .next (s.setSlot c (some (x.afterXform s.mem s.addrArg s.lenArg))).clobberXmm :=
      next_unfinished hext hx hl (State.withRange_go ha)
    exact ⟨_, _, hexec, s.onlySlot_setSlot_clobberXmm c _, State.slot_setSlot_same hc _, rfl, rfl, rfl, rfl, rfl,
      transform_eq_foldl ..⟩

end Sys2Proof.Machine
end

section
/-! Host writes to the window (R201). -/

namespace Sys2Proof.Machine

theorem hostWrite_of_aligned {off : BitVec 8} (ha : off.toNat % 4 = 0) (hoff : off ≠ cmdOffset) (w : Word) (s : State) :
    hostWrite off w s = .next (s.windowWrite off w) := by
  have haligned : aligned off = true := decide_eq_true ha
  rw [hostWrite, if_neg (by simp [haligned]), if_neg hoff]

/-- CAP, the slot's status and fields, and the reserved offsets above them ignore a write (R201). -/
theorem State.windowWrite_ignored (s : State) {off : BitVec 8} (h : off.toNat = 0 ∨ 0x20 ≤ off.toNat) (w : Word) :
    s.windowWrite off w = s := by
  unfold State.windowWrite
  split
  case h_7 => rfl
  all_goals omega

/-- Every word written to CMD completes: it decodes to an instruction, or its fault is recorded (R202). -/
theorem execute_completes (w : Word) (s : State) : ∃ t, execute w s = .next t := by
  unfold execute
  split
  · exact exec_completes _ s
  · exact ⟨_, rfl⟩

/-- A field that an acknowledgement clears is kept when the bit is 0 (R257). -/
theorem ErrReg.ack_eq (e : ErrReg) (w : Word) :
    e.ack w = {
      valid := e.valid && !w.getLsbD 0, ovf := e.ovf && !w.getLsbD 1,
      code := if w.getLsbD 0 then 0#4 else e.code, op := if w.getLsbD 0 then 0#4 else e.op,
      ctx := if w.getLsbD 0 then 0#8 else e.ctx } := by
  have hkeep (b v : Bool) : (if b = true then false else v) = (v && !b) := by cases b <;> simp
  simp only [ErrReg.ack, hkeep]

/-- Settles O49: the named offsets one by one, ERR by `ErrReg.ack_eq`; the others are ignored. -/
theorem hostWrites : Obligations.HostWrites := by
  intro s w
  have herr : hostWrite 0x18#8 w s = .next { s with err := s.err.ack w } := rfl
  refine ⟨rfl, execute_completes w s, rfl, rfl, rfl, rfl, s.err.ack_eq w ▸ herr, rfl, fun o ha ho => ?_⟩
  have hoff : o ≠ cmdOffset := by
    rintro rfl
    revert ho
    decide
  rw [hostWrite_of_aligned ha hoff, s.windowWrite_ignored ho]

end Sys2Proof.Machine
end

section
/-! The row of bytes a slot has taken in, from any chaining value (R25, R211), and UPDATE over any ranges of it (R212). -/

namespace Sys2Proof.Machine

/-! ## The row of a slot -/

/-- The valid bytes of the partial block (R22, R25). -/
def HashState.rest (x : HashState) : List Byte := x.buf.toList.take x.plen.toNat

/-- The slot stands after the row of bytes `e` taken in from the chaining value `h₀`: its whole blocks are compressed and the
rest stands in the buffer. `HashState.Holds` says this of a row from INIT on. -/
structure HashState.Carries (x : HashState) (alg : Alg) (h₀ : Vector Word 8) (e : List Byte) : Prop where
  alg_eq : x.alg = alg
  h : x.h = compressBlocks alg (e.length / 64) h₀ e
  plen : x.plen.toNat = e.length % 64
  rest : x.rest = e.drop (64 * (e.length / 64))

theorem HashState.length_rest (x : HashState) (hp : x.plen.toNat < 64) : x.rest.length = x.plen.toNat := by
  rw [HashState.rest, List.length_take, Vector.length_toList, Nat.min_eq_left hp.le]

/-- Every slot stands after its own valid bytes. -/
theorem HashState.carries_rest (x : HashState) (hp : x.plen.toNat < 64) : x.Carries x.alg x.h x.rest := by
  have hblocks : x.rest.length / 64 = 0 := by rw [x.length_rest hp, Nat.div_eq_of_lt hp]
  refine ⟨rfl, ?_, ?_, ?_⟩
  · rw [hblocks, compressBlocks]
  · rw [x.length_rest hp, Nat.mod_eq_of_lt hp]
  · rw [hblocks, Nat.mul_zero, List.drop_zero]

theorem HashState.Holds.carries {x : HashState} {alg : Alg} {m : List Byte} (hx : x.Holds alg m) :
    x.Carries alg (iv alg) m := by
  obtain ⟨halg, _, _, hplen, hbuf, hh⟩ := hx
  have hstart : m.length - x.plen.toNat = 64 * (m.length / 64) := by omega
  exact ⟨halg, hh, hplen, hstart ▸ hbuf⟩

/-- The blocks of a longer row are those of a shorter one, and then those of what stands past them. -/
theorem compressBlocks_append (alg : Alg) (h : Vector Word 8) (e f : List Byte) :
    compressBlocks alg ((e ++ f).length / 64) h (e ++ f) =
      compressBlocks alg (((e ++ f).drop (64 * (e.length / 64))).length / 64) (compressBlocks alg (e.length / 64) h e)
        ((e ++ f).drop (64 * (e.length / 64))) := by
  have hblocks : (e ++ f).length / 64 = e.length / 64 + ((e ++ f).drop (64 * (e.length / 64))).length / 64 := by
    rw [List.length_drop, List.length_append]
    omega
  rw [hblocks, compressBlocks_add, compressBlocks_take _ _ _ e f (by omega)]

section Carries

variable {x : HashState} {alg : Alg} {h₀ : Vector Word 8} {e : List Byte} (hx : x.Carries alg h₀ e)
include hx

theorem HashState.Carries.plen_lt : x.plen.toNat < 64 := hx.plen ▸ Nat.mod_lt _ (by decide)

/-- What follows the valid bytes of the buffer follows the row. -/
theorem HashState.Carries.rest_append (f : List Byte) : x.rest ++ f = (e ++ f).drop (64 * (e.length / 64)) := by
  rw [List.drop_append_of_le_length (by omega), hx.rest]

/-- Compressing the blocks past the valid bytes is compressing those of the whole row. -/
theorem HashState.Carries.compressBlocks_rest (f : List Byte) :
    compressBlocks x.alg ((x.rest ++ f).length / 64) x.h (x.rest ++ f) =
      compressBlocks alg ((e ++ f).length / 64) h₀ (e ++ f) := by
  rw [hx.rest_append, hx.alg_eq, hx.h, compressBlocks_append]

/-- UPDATE appends its bytes to the row (R211). -/
theorem HashState.Carries.afterUpdate (m : Memory) (a n : Nat) :
    (x.afterUpdate m a n).Carries alg h₀ (e ++ m.readBytes a n) := by
  obtain ⟨yalg, _, _, yh, yplen, ybuf⟩ := absorb_spec x (m.readBytes a n) hx.plen_lt
  have hrest : (x.rest ++ m.readBytes a n).length = (e ++ m.readBytes a n).length - 64 * (e.length / 64) := by
    rw [hx.rest_append, List.length_drop]
  have hle : e.length ≤ (e ++ m.readBytes a n).length := by simp
  have hmod : (x.rest ++ m.readBytes a n).length % 64 = (e ++ m.readBytes a n).length % 64 := by omega
  refine ⟨yalg.trans hx.alg_eq, yh.trans (hx.compressBlocks_rest _), yplen.trans hmod, ?_⟩
  calc (x.absorb (m.readBytes a n)).buf.toList.take (x.absorb (m.readBytes a n)).plen.toNat
      = (x.rest ++ m.readBytes a n).drop (64 * ((x.rest ++ m.readBytes a n).length / 64)) := by rw [yplen]; exact ybuf
    _ = (e ++ m.readBytes a n).drop (64 * ((e ++ m.readBytes a n).length / 64)) := by
        rw [hrest, hx.rest_append, List.drop_drop]
        congr 1
        omega

end Carries

theorem HashState.afterUpdate_total (x : HashState) (m : Memory) (a : Nat) {n : Nat}
    (hn : x.total.toNat + n ≤ Config.lenLimit) : (x.afterUpdate m a n).total.toNat = x.total.toNat + n :=
  Nat.mod_eq_of_lt (Nat.lt_of_le_of_lt hn (by decide))

/-- UPDATE of no bytes makes the slot STREAMING and changes nothing else of it (R212). -/
theorem HashState.afterUpdate_zero (x : HashState) (m : Memory) (a : Nat) (hp : x.plen.toNat < 64) :
    x.afterUpdate m a 0 = { x with life := .streaming } := by
  have habsorb : x.absorb [] = x := by
    rw [HashState.absorb, if_neg (by simpa using hp)]
    simp [fill]
  have hread : m.readBytes a 0 = [] := rfl
  simp [HashState.afterUpdate, hread, habsorb]

/-! ## UPDATE (R211) -/

/-- Settles O26: the faults one check after the other; past them the slot is the row of its valid bytes with the bytes read
appended. -/
theorem updateAppends : Obligations.UpdateAppends := by
  intro c s hext hc
  refine ⟨fun hfree => next_atSlot hext hc (State.unfinished_free hfree), fun x hx =>
    ⟨fun hl => next_atSlot hext hc (State.unfinished_finalized hx hl), fun hl =>
      ⟨fun hlong => next_unfinished hext hx hl (if_pos hlong), fun hn =>
        ⟨fun hbus => next_unfinished hext hx hl
          ((if_neg (Nat.not_lt.2 hn)).trans (State.withRange_refused hbus)), fun ha hp => ?_⟩⟩⟩⟩
  obtain ⟨yalg, yh, yplen, yrest⟩ := (x.carries_rest hp).afterUpdate s.mem s.addrArg s.lenArg
  exact ⟨_, _, exec_update_passed hext hx hl hn ha, s.onlySlot_setSlot_clobberXmm c _, State.slot_setSlot_same hc _, rfl,
    yalg, x.afterUpdate_total s.mem s.addrArg hn, yh, yplen, yplen ▸ yrest⟩

/-! ## Chunkings (R212) -/

/-- UPDATEs append their bytes one after the other to the row of any slot that takes bytes, and none of them faults. -/
theorem runUpdates_carries {alg : Alg} {h₀ : Vector Word 8} (c : Nat) (ps : List (DWord × DWord)) {s : State}
    {x : HashState} {e : List Byte} (hext : s.platform.hasShaExt = true) (hx : s.slot c = some x) (hl : x.life ≠ .finalized)
    (he : x.Carries alg h₀ e) (hr : s.platform.readable ps)
    (hlen : x.total.toNat + (s.mem.dataOf ps).length ≤ Config.lenLimit) :
    ∃ t y, runUpdates c ps s = some t ∧ t.slot c = some y ∧ y.Carries alg h₀ (e ++ s.mem.dataOf ps) ∧
      y.total.toNat = x.total.toNat + (s.mem.dataOf ps).length ∧ s.sameButStream c t := by
  induction ps generalizing s x e with
  | nil => exact ⟨s, x, rfl, hx, (List.append_nil e).symm ▸ he, rfl, s.sameButStream_refl c⟩
  | cons p ps ih =>
    have hdata : s.mem.dataOf (p :: ps) = s.mem.readBytes p.1.toNat p.2.toNat ++ s.mem.dataOf ps := List.flatMap_cons
    have hdataLen : (s.mem.dataOf (p :: ps)).length = p.2.toNat + (s.mem.dataOf ps).length := by
      rw [hdata, List.length_append, Memory.length_readBytes]
    have hn : x.total.toNat + p.2.toNat ≤ Config.lenLimit := by omega
    have htotal := x.afterUpdate_total s.mem p.1.toNat hn
    obtain ⟨t, y, ht, hy, hye, hytotal, hst⟩ := ih
      (s := ((s.withArgs p.1 p.2).setSlot c (some (x.afterUpdate s.mem p.1.toNat p.2.toNat))).clobberXmm)
      hext (State.slot_setSlot_same (State.lt_of_slot hx) _) nofun (he.afterUpdate s.mem p.1.toNat p.2.toNat)
      (fun r hr' => hr r (List.mem_cons_of_mem p hr'))
      (by simpa [htotal, Nat.add_assoc, hdataLen] using hlen)
    refine ⟨t, y, ?_, hy, ?_, ?_, (s.sameButStream_update c _ p.1 p.2).trans hst⟩
    · rw [runUpdates, runCommand_update hext hx hl hn (hr p List.mem_cons_self)]
      exact ht
    · rw [hdata, ← List.append_assoc]
      exact hye
    · rw [hytotal, htotal, hdataLen, Nat.add_assoc]
      rfl

/-- FINAL reads of the buffer its valid bytes only (R204, R213). -/
theorem HashState.output_eq {y z : HashState} (halg : y.alg = z.alg) (hh : y.h = z.h) (hplen : y.plen = z.plen)
    (htotal : y.total = z.total) (hrest : y.rest = z.rest) (n : Nat) : y.output n = z.output n := by
  have hpad : padBlocks y.buf y.plen y.total = padBlocks z.buf z.plen z.total := by
    rw [HashState.rest, HashState.rest] at hrest
    rw [padBlocks, padBlocks, hrest, hplen, htotal]
  simp only [HashState.output, HashState.finalChain, halg, hh, hpad]

/-- Settles O57: both chunkings leave the slot after the same row, which determines what FINAL reads. -/
theorem chunkInvariance : Obligations.ChunkInvariance := by
  intro c s x hext hx hl hp htotal
  refine ⟨fun ps qs hps hqs hdata hlen => ?_, fun a => ?_⟩
  · obtain ⟨t, y, ht, hy, hye, hytotal, _, hterr, _⟩ := runUpdates_carries c ps hext hx hl (x.carries_rest hp) hps hlen
    obtain ⟨u, z, hu, hz, hze, hztotal, _, huerr, _⟩ :=
      runUpdates_carries c qs hext hx hl (x.carries_rest hp) hqs (hdata ▸ hlen)
    rw [← hdata] at hze hztotal
    have hh : y.h = z.h := hye.h.trans hze.h.symm
    have hplen : y.plen = z.plen := BitVec.eq_of_toNat_eq (hye.plen.trans hze.plen.symm)
    have hsame : y.total = z.total := BitVec.eq_of_toNat_eq (hytotal.trans hztotal.symm)
    have hrest : y.rest = z.rest := hye.rest.trans hze.rest.symm
    exact ⟨t, u, y, z, ht, hu, hy, hz, hterr, huerr, hh, hplen, hsame, hrest,
      HashState.output_eq (hye.alg_eq.trans hze.alg_eq.symm) hh hplen hsame hrest⟩
  · refine ⟨_, congrArg (·.bind (runUpdates c [])) (runCommand_update (len := 0#64) hext hx hl htotal rfl), ?_⟩
    rw [← x.afterUpdate_zero s.mem a.toNat hp]
    exact State.slot_setSlot_same (State.lt_of_slot hx) _

end Sys2Proof.Machine
end

section
/-! FINAL, from the padded rest of the stream to the bytes in memory (R213), and the hash law (R219). -/

namespace Sys2Proof.Machine

/-! ## FINAL (R213) -/

/-- What FINAL appends to a row of `r` bytes past its whole blocks, when `count` bytes were taken in (R65, R204). -/
def padding (r count : Nat) : List Byte := [0x80#8] ++ zeros ((119 - r) % 64) ++ be64Bytes (BitVec.ofNat 64 (8 * count))

theorem append_padding (e : List Byte) (r count : Nat) :
    e ++ padding r count =
      e ++ [0x80#8] ++ List.replicate ((119 - r) % 64) 0#8 ++ be64Bytes (BitVec.ofNat 64 (8 * count)) := by
  simp only [padding, zeros, List.append_assoc]

theorem padMessage_eq (msg : List Byte) : padMessage msg = msg ++ padding (msg.length % 64) msg.length :=
  (append_padding msg _ _).symm

/-- The padding blocks in a row are the valid bytes of the buffer, padded (R204). -/
theorem HashState.flatten_padBlocks (x : HashState) (hp : x.plen.toNat < 64) :
    (padBlocks x.buf x.plen x.total).flatten = x.rest ++ padding x.plen.toNat x.total.toNat := by
  obtain ⟨_, _, hflat⟩ := padBlocksBytes x.buf x.plen x.total hp
  have hzeros : (if x.plen.toNat ≤ 55 then 55 - x.plen.toNat else 119 - x.plen.toNat) = (119 - x.plen.toNat) % 64 := by
    split <;> omega
  rw [hflat, hzeros, append_padding, HashState.rest]

/-- FINAL compresses the padded rest (R213). -/
theorem HashState.finalChain_eq (x : HashState) (hp : x.plen.toNat < 64) :
    x.finalChain = compressBlocks x.alg ((x.rest ++ padding x.plen.toNat x.total.toNat).length / 64) x.h
      (x.rest ++ padding x.plen.toNat x.total.toNat) := by
  obtain ⟨_, h64, _⟩ := padBlocksBytes x.buf x.plen x.total hp
  have hlen : (padBlocks x.buf x.plen x.total).flatten.length / 64 = (padBlocks x.buf x.plen x.total).length := by
    rw [List.length_flatten, List.sum_eq_card_nsmul _ 64 (by simpa using h64)]
    simp
  rw [HashState.finalChain, foldl_compress _ _ _ h64, ← x.flatten_padBlocks hp, hlen]

/-- FINAL compresses what is left of the padded row. -/
theorem HashState.Carries.finalChain {x : HashState} {alg : Alg} {h₀ : Vector Word 8} {e : List Byte}
    (hx : x.Carries alg h₀ e) :
    x.finalChain = compressBlocks alg ((e ++ padding (e.length % 64) x.total.toNat).length / 64) h₀
      (e ++ padding (e.length % 64) x.total.toNat) := by
  rw [x.finalChain_eq hx.plen_lt, hx.compressBlocks_rest, hx.plen]

/-- The state a FINAL of slot `c`, which holds `x`, leaves (R213). -/
def State.afterFinal (s : State) (c : Nat) (x : HashState) : State :=
  { s.setSlot c (some (x.afterFinal s.draws)) with mem := s.mem.writeBytes s.addrArg (x.output s.lenArg) }.clobberXmm

theorem exec_final_passed {s : State} {c : Nat} {x : HashState} (hext : s.platform.hasShaExt = true)
    (hx : s.slot c = some x) (hl : x.life ≠ .finalized)
    (ha : s.platform.admitted .write s.addrArg (min s.lenArg (dsize x.alg)) = true) :
    exec (.final c) s = .next (s.afterFinal c x) :=
  next_unfinished hext hx hl (State.withRange_go ha)

/-- FINAL writes `min(ARG_LEN, DSIZE)` bytes at ARG_ADDR and no other. -/
theorem State.sameMemBut_afterFinal (s : State) (c : Nat) (x : HashState) :
    s.sameMemBut s.addrArg (min s.lenArg (dsize x.alg)) (s.afterFinal c x) := by
  intro b hb
  rw [← x.length_output s.lenArg] at hb
  exact (Memory.read_writeBytes ..).trans (if_neg hb)

theorem State.readBytes_afterFinal (s : State) (c : Nat) (x : HashState) :
    (s.afterFinal c x).mem.readBytes s.addrArg (min s.lenArg (dsize x.alg)) = x.output s.lenArg :=
  x.length_output s.lenArg ▸ s.mem.readBytes_writeBytes s.addrArg (x.output s.lenArg)

/-- Settles O27: the faults one check after the other; past them the slot and the bytes written are those of the padded
rest. -/
theorem finalWritesDigest : Obligations.FinalWritesDigest := by
  intro c s hext hc
  refine ⟨fun hfree => next_atSlot hext hc (State.unfinished_free hfree), fun x hx =>
    ⟨fun hl => next_atSlot hext hc (State.unfinished_finalized hx hl), fun hl => ?_⟩⟩
  intro m
  have hm : m = min s.lenArg (dsize x.alg) := congrArg (min s.lenArg) (by cases x.alg <;> rfl)
  clear_value m
  subst hm
  refine ⟨fun hbus => next_unfinished hext hx hl (State.withRange_refused hbus), fun ha hp => ?_⟩
  have hslot : (s.afterFinal c x).slot c = some (x.afterFinal s.draws) := State.slot_setSlot_same hc _
  refine ⟨_, _, exec_final_passed hext hx hl ha, ⟨rfl, rfl, rfl, rfl, rfl, rfl⟩, rfl, s.sameSlotsBut_setSlot c _,
    s.sameMemBut_afterFinal c x, hslot, rfl, rfl, rfl, ?_, s.readBytes_afterFinal c x⟩
  have hchain := x.finalChain_eq hp
  rw [append_padding] at hchain
  exact hchain

/-! ## The hash law (R219) -/

/-- After a stream that holds the message, FINAL writes the message's hash. -/
theorem HashState.Holds.output {x : HashState} {alg : Alg} {m : List Byte} (hx : x.Holds alg m) (n : Nat) :
    x.output n = (hashOf alg m).take (min n (dsize alg)) := by
  rw [HashState.output, hx.carries.finalChain, hx.total, ← padMessage_eq, hx.alg_eq, hashOf]

theorem runStream_holds (alg : Alg) (c : Nat) (ps : List (DWord × DWord)) {s : State} (hext : s.platform.hasShaExt = true)
    (hc : c < s.nCtx) (hr : s.platform.readable ps) (hlen : (s.mem.dataOf ps).length ≤ Config.lenLimit) :
    ∃ t x, runStream alg c ps s = some t ∧ t.slot c = some x ∧ x.Holds alg (s.mem.dataOf ps) ∧ s.sameButStream c t := by
  obtain ⟨t, x, ht, hx, hm, hst⟩ := runUpdates_holds alg c ps (s := s.init c alg) hext (State.slot_setSlot_same hc _)
    (HashState.holds_of_init alg _) hr (by rw [List.length_nil, Nat.zero_add]; exact hlen)
  refine ⟨t, x, ?_, hx, hm, (s.sameButStream_init c alg).trans hst⟩
  rw [runStream, runCommand_init hext hc alg]
  exact ht

theorem runCommand_final {s : State} {c : Nat} {x : HashState} (hext : s.platform.hasShaExt = true) (hx : s.slot c = some x)
    (hl : x.life ≠ .finalized) {dst cap : DWord}
    (ha : s.platform.admitted .write dst.toNat (min cap.toNat (dsize x.alg)) = true) :
    runCommand (.final c) dst cap s = some ((s.withArgs dst cap).afterFinal c x) := by
  rw [runCommand, exec_final_passed (s := s.withArgs dst cap) hext hx hl ha]

theorem length_padded (msg : List Byte) (k : Nat) :
    (msg ++ [0x80#8] ++ zeros k ++ be64Bytes (BitVec.ofNat 64 (8 * msg.length))).length = msg.length + 1 + k + 8 := by
  rw [List.length_append, List.length_append, List.length_append, List.length_singleton, length_zeros, length_be64Bytes]

/-- Settles O58: the stream leaves a slot that holds the message, whose FINAL writes the message's hash; the padding is least
by its length alone. -/
theorem hashLaw : Obligations.HashLaw := by
  refine ⟨fun alg c ps dst cap s => ?_, fun msg => ?_⟩
  · intro n hext hc hr hlen ha
    have hn : n = min cap.toNat (dsize alg) := congrArg (min cap.toNat) (by cases alg <;> rfl)
    clear_value n
    subst hn
    obtain ⟨t, x, ht, hx, hm, hp, herr, hmem, _⟩ := runStream_holds alg c ps hext hc hr hlen
    obtain rfl := hm.alg_eq
    have hfinal := runCommand_final (hp ▸ hext) hx hm.unfinished (hp ▸ ha)
    refine ⟨(t.withArgs dst cap).afterFinal c x, ?_, herr, ?_, ?_⟩
    · exact (congrArg (·.bind (runCommand (.final c) dst cap)) ht).trans hfinal
    · exact fun b hb => ((t.withArgs dst cap).sameMemBut_afterFinal c x b hb).trans (congrArg (Memory.read · b) hmem)
    · exact ((t.withArgs dst cap).readBytes_afterFinal c x).trans (hm.output cap.toNat)
  · have hlen : (padMessage msg).length = msg.length + 1 + (119 - msg.length % 64) % 64 + 8 := length_padded msg _
    refine ⟨by omega, fun k hk => ?_⟩
    rw [length_padded] at hk ⊢
    omega

end Sys2Proof.Machine
end

section
/-! The fault record (60_exceptions.md): what a fault and an acknowledgement make of ERR (R255, R257), which fault a
command word raises (R251 to R253), and that no instruction reads ERR (R256). -/

namespace Sys2Proof.Machine

/-! ## The record -/

/-- A record is kept: a fault that comes later only sets OVF (R255). -/
theorem ErrReg.record_of_valid {e : ErrReg} (h : e.valid = true) (code : FaultCode) (op : BitVec 4) (ctx : BitVec 8) :
    e.record code op ctx = { e with ovf := true } :=
  if_pos h

/-- The first fault is recorded, and OVF stays (R255). -/
theorem ErrReg.record_of_not_valid {e : ErrReg} (h : e.valid = false) (code : FaultCode) (op : BitVec 4)
    (ctx : BitVec 8) :
    e.record code op ctx = { valid := true, ovf := e.ovf, code := code.number, op := op, ctx := ctx } :=
  if_neg (ne_true_of_eq_false h)

/-- Settles O35: by the two cases of the record. -/
theorem faultRecord : Obligations.FaultRecord := by
  intro s code op ctx
  refine ⟨rfl, fun hfirst => ?_, fun hlater => ErrReg.record_of_valid hlater code op ctx⟩
  rw [State.raiseFault_err, ErrReg.record_of_not_valid hfirst]
  exact ⟨rfl, rfl, rfl, rfl, by cases code <;> rfl⟩

/-- Bit 0 written 1 clears the record (R257). -/
theorem ErrReg.ack_of_bit0 {w : Word} (h : w.getLsbD 0 = true) (e : ErrReg) :
    e.ack w = { ErrReg.clear with ovf := (e.ack w).ovf } := by
  simp only [ErrReg.ack, h, if_true, ErrReg.clear]

/-- Bit 0 written 0 leaves the record (R257). -/
theorem ErrReg.ack_of_not_bit0 {w : Word} (h : w.getLsbD 0 = false) (e : ErrReg) :
    e.ack w = { e with ovf := (e.ack w).ovf } := by
  simp only [ErrReg.ack, h, Bool.false_eq_true, if_false]

/-- Settles O36: a write at ERR's offset is the acknowledgement, read bit by bit. -/
theorem errWriteClears : Obligations.ErrWriteClears := by
  intro s w
  refine ⟨s.ackFault w, rfl, rfl, fun h => ?_, fun h => ?_, fun h => ?_, fun h => ?_⟩
  · rw [State.ackFault_err, ErrReg.ack_of_bit0 h]
    exact ⟨rfl, rfl, rfl, rfl⟩
  · rw [State.ackFault_err, ErrReg.ack_of_not_bit0 h]
    exact ⟨rfl, rfl, rfl, rfl⟩
  · rw [State.ackFault_err, ErrReg.ack_ovf, h, Bool.not_true, Bool.and_false]
  · rw [State.ackFault_err, ErrReg.ack_ovf, h, Bool.not_false, Bool.and_true]

/-! ## The fault a command word raises (R251 to R253) -/

/-- `t` is what the conditions of R251, in their order, ask of a command on slot `c`: the fault of the first that holds,
recorded with the command's fields, or ERR as it was when none holds. -/
def State.Answers (s : State) (op : BitVec 4) (c : Nat) (conds : List (Bool × FaultCode)) (t : State) : Prop :=
  match conds.find? fun p => p.1 with
  | some p => t = s.raiseFault p.2 op (BitVec.ofNat 8 c)
  | none => t.err = s.err

section Answers

variable {s t : State} {op : BitVec 4} {c : Nat} {rest : List (Bool × FaultCode)}

theorem State.Answers.raised {i : Instr} {code : FaultCode} (h : s.Answers op c (s.faultConditions i) t)
    (hcode : s.firstFault i = some code) : t = s.raiseFault code op (BitVec.ofNat 8 c) := by
  obtain ⟨p, hp, rfl⟩ := Option.map_eq_some_iff.1 hcode
  rwa [State.Answers, hp] at h

theorem State.Answers.err_eq {i : Instr} (h : s.Answers op c (s.faultConditions i) t) (hnone : s.firstFault i = none) :
    t.err = s.err := by
  rwa [State.Answers, Option.map_eq_none_iff.1 hnone] at h

/-! A check that fails answers by its own condition, and one that passes leaves the answer to the conditions after it. -/

theorem State.answers_raised (code : FaultCode) :
    s.Answers op c ((true, code) :: rest) (s.raiseFault code op (BitVec.ofNat 8 c)) :=
  rfl

theorem State.answers_passed (code : FaultCode) (h : s.Answers op c rest t) :
    s.Answers op c ((false, code) :: rest) t :=
  h

theorem State.answers_ite {p : Prop} [Decidable p] {code : FaultCode} (passed : s.Answers op c rest t) :
    s.Answers op c ((decide p, code) :: rest) (if p then s.raiseFault code op (BitVec.ofNat 8 c) else t) := by
  by_cases hp : p
  · rw [decide_eq_true hp, if_pos hp]
    exact State.answers_raised code
  · rw [decide_eq_false hp, if_neg hp]
    exact State.answers_passed code passed

theorem State.answers_atSlot {go : Unit → State} (passed : s.Answers op c rest (go ())) :
    s.Answers op c ((!s.platform.hasShaExt, .unavailable) :: (decide (s.nCtx ≤ c), .badCtx) :: rest)
      (s.atSlot op c go) := by
  rcases s.atSlot_cases op c go with ⟨hext, e⟩ | ⟨hext, hc, e⟩ | ⟨hext, hc, e⟩ <;> rw [e, hext]
  · exact State.answers_raised .unavailable
  · rw [decide_eq_true hc]
    exact State.answers_passed .unavailable (State.answers_raised .badCtx)
  · rw [decide_eq_false (Nat.not_le.2 hc)]
    exact State.answers_passed .unavailable (State.answers_passed .badCtx passed)

theorem State.answers_inUse {go : HashState → State} (passed : ∀ x, s.slot c = some x → s.Answers op c rest (go x)) :
    s.Answers op c (((s.slot c).isNone, .notInit) :: rest) (s.inUse op c go) := by
  rcases s.inUse_cases op c go with ⟨hfree, e⟩ | ⟨x, hx, e⟩
  · rw [e, hfree]
    exact State.answers_raised .notInit
  · rw [e, hx]
    exact State.answers_passed .notInit (passed x hx)

theorem State.answers_unfinished {go : HashState → State}
    (passed : ∀ x, s.slot c = some x → s.Answers op c rest (go x)) :
    s.Answers op c (((s.slot c).isNone, .notInit) ::
      ((s.slot c).any fun x => decide (x.life = .finalized), .finalized) :: rest) (s.unfinished op c go) := by
  refine State.answers_inUse fun x hx => ?_
  rw [hx, Option.any_some]
  exact State.answers_ite (passed x hx)

theorem State.answers_withRange {kind : AccessKind} {a n : Nat} {go : Unit → State} (passed : (go ()).err = s.err) :
    s.Answers op c [(!s.platform.admitted kind a n, .bus)] (s.withRange op c kind a n go) := by
  rcases s.withRange_cases op c kind a n go with ⟨ha, e⟩ | ⟨ha, e⟩ <;> rw [e, ha]
  · exact State.answers_raised .bus
  · exact State.answers_passed .bus passed

end Answers

/-- A command answers what the conditions of R251 ask. -/
theorem exec_answers {i : Instr} {op : BitVec 4} {c : Nat} (hi : i.command = some (op, c)) (s : State) :
    ∃ t, exec i s = .next t ∧ s.Answers op c (s.faultConditions i) t := by
  cases i with
  | initSha1 => cases hi; exact ⟨_, rfl, State.answers_atSlot rfl⟩
  | initSha256 => cases hi; exact ⟨_, rfl, State.answers_atSlot rfl⟩
  | initSha224 => cases hi; exact ⟨_, rfl, State.answers_atSlot rfl⟩
  | update =>
    cases hi
    refine ⟨_, rfl, State.answers_atSlot (State.answers_unfinished fun x hx => ?_)⟩
    rw [hx, Option.any_some]
    exact State.answers_ite (State.answers_withRange rfl)
  | final =>
    cases hi
    refine ⟨_, rfl, State.answers_atSlot (State.answers_unfinished fun x hx => ?_)⟩
    rw [hx, Option.any_some]
    exact State.answers_withRange rfl
  | clone _ src =>
    cases hi
    refine ⟨_, rfl, State.answers_atSlot (State.answers_ite ?_)⟩
    show s.Answers _ _ [((s.slot src).isNone, .notInit)] _
    cases s.slot src with
    | none => exact State.answers_raised .notInit
    | some x => exact State.answers_passed .notInit rfl
  | reset => cases hi; exact ⟨_, rfl, State.answers_atSlot (State.answers_inUse fun _ _ => rfl)⟩
  | release => cases hi; exact ⟨_, rfl, State.answers_atSlot (State.answers_inUse fun _ _ => rfl)⟩
  | xform =>
    cases hi
    exact ⟨_, rfl, State.answers_atSlot (State.answers_unfinished fun _ _ => State.answers_withRange rfl)⟩
  | _ => cases hi

/-- The capability is every command's first check (R251). -/
theorem State.firstFault_unavailable {s : State} (hext : s.platform.hasShaExt = false) {i : Instr} {p : BitVec 4 × Nat}
    (hi : i.command = some p) : s.firstFault i = some .unavailable := by
  have hfirst : ∃ rest, s.faultConditions i = (!s.platform.hasShaExt, .unavailable) :: rest := by
    cases i <;> cases hi -- the nine commands remain
    all_goals exact ⟨_, rfl⟩
  obtain ⟨rest, e⟩ := hfirst
  rw [State.firstFault, e, hext]
  rfl

/-- A word that decodes answers what the conditions of its command ask, with the word's own fields (R253). -/
theorem execute_answers {w : Word} {i : Instr} (hd : decodeCommand w = some i) (s : State) :
    ∃ t, execute w s = .next t ∧ s.Answers (fieldOp w) (fieldCtx w).toNat (s.faultConditions i) t := by
  rw [execute, hd]
  exact exec_answers (decodeCommand_command hd) s

theorem execute_raises {w : Word} {i : Instr} {s : State} {code : FaultCode} (hd : decodeCommand w = some i)
    (hcode : s.firstFault i = some code) : execute w s = .next (s.raiseFault code (fieldOp w) (fieldCtx w)) := by
  obtain ⟨t, ht, h⟩ := execute_answers hd s
  rw [ht, h.raised hcode, BitVec.ofNat_toNat, BitVec.setWidth_eq]

theorem execute_illegal {w : Word} (hd : decodeCommand w = none) (s : State) :
    execute w s = .next (s.illegalCommand w) := by
  rw [execute, hd]

theorem execute_unavailable {s : State} (hext : s.platform.hasShaExt = false) (w : Word) :
    execute w s = .next (s.raiseFault .unavailable (fieldOp w) (fieldCtx w)) := by
  cases hd : decodeCommand w with
  | none => rw [execute_illegal hd, State.illegalCommand, hext]; rfl
  | some i => exact execute_raises hd (State.firstFault_unavailable hext (decodeCommand_command hd))

/-- Settles O32: a word that decodes answers by the conditions of its command, and any other is refused whole. -/
theorem faultPriority : Obligations.FaultPriority := by
  intro w s
  refine ⟨fun hext => execute_unavailable hext w, fun hext hd => ?_, fun i _ hd =>
    ⟨fun _ => execute_raises hd, fun hnone => ?_⟩⟩
  · rw [execute_illegal hd, State.illegalCommand, hext]
    rfl
  · obtain ⟨t, ht, h⟩ := execute_answers hd s
    exact ⟨t, ht, h.err_eq hnone⟩

/-! ## The window without the extensions (R252) -/

theorem State.returnsField_setPlatform (s : State) (p : Platform) (f : HashState → Word) :
    State.returnsField { s with platform := p } f = { s.returnsField f with platform := p } := by
  have hsel : State.selected { s with platform := p } = s.selected := rfl
  rw [State.returnsField, State.returnsField, hsel]
  cases s.selected <;> rfl

theorem State.returnsStatus_setPlatform (s : State) (p : Platform) :
    State.returnsStatus { s with platform := p } = { s.returnsStatus with platform := p } := by
  have hsel : State.selected { s with platform := p } = s.selected := rfl
  rw [State.returnsStatus, State.returnsStatus, hsel]
  cases s.selected with
  | none => rfl
  | some x => cases hl : x.life <;> simp only [hl] <;> rfl

/-- Only a read of CAP shows the platform (R39). -/
theorem State.windowRead_setPlatform (s : State) (p : Platform) {off : BitVec 8} (hoff : off ≠ 0x00#8) :
    State.windowRead { s with platform := p } off = { s.windowRead off with platform := p } := by
  unfold State.windowRead
  split
  case h_1 h => exact absurd (BitVec.eq_of_toNat_eq h) hoff
  all_goals simp only [State.returnsField_setPlatform, State.returnsStatus_setPlatform]
  all_goals rfl

/-- No write of the window other than to CMD looks at the platform (R201). -/
theorem State.windowWrite_setPlatform (s : State) (p : Platform) (off : BitVec 8) (w : Word) :
    State.windowWrite { s with platform := p } off w = { s.windowWrite off w with platform := p } := by
  have hselect : State.select { s with platform := p } w = { s.select w with platform := p } := by
    have hn : State.nCtx { s with platform := p } = s.nCtx := rfl
    rw [State.select, State.select, hn]
    split_ifs <;> rfl
  unfold State.windowWrite
  split
  case h_6 => exact hselect
  all_goals rfl

/-- Without the extensions the capability bits of CAP are 0 (R39). -/
theorem capWord_false_low (n : Nat) : (capWord false n).extractLsb' 0 4 = 0#4 := by
  obtain ⟨h0, h1, h2, h3, _⟩ := capWord_fields false n
  apply BitVec.eq_of_getLsbD_eq
  intro i hi
  rw [BitVec.getLsbD_extractLsb', decide_eq_true hi, Bool.true_and, Nat.zero_add, BitVec.getLsbD_zero]
  interval_cases i
  · exact getLsbD_of_extractLsb' h0
  · exact getLsbD_of_extractLsb' h1
  · exact getLsbD_of_extractLsb' h2
  · exact getLsbD_of_extractLsb' h3

/-- Settles O34: every word is refused by the first check, CAP's low bits are the capability, and the platform is carried
through every other access. -/
theorem unavailableRefusesCommands : Obligations.UnavailableRefusesCommands := by
  intro s hext
  refine ⟨fun w => ⟨_, execute_unavailable hext w, rfl, rfl⟩, ⟨_, rfl, ?_⟩, ?_⟩
  · show (capWord s.platform.hasShaExt s.nCtx).extractLsb' 0 4 = 0#4
    rw [hext, capWord_false_low]
  · intro on o w hon ha
    have hs : s = { on with platform := s.platform } := by rw [hon]
    refine ⟨fun ho => ⟨_, _, hostRead_of_aligned ha s, hostRead_of_aligned ha on, ?_⟩, fun ho =>
      ⟨_, _, hostWrite_of_aligned ha ho w s, hostWrite_of_aligned ha ho w on, ?_⟩⟩
    · have hread := on.windowRead_setPlatform s.platform ho
      rw [← hs] at hread
      rw [hread]
    · have hwrite := on.windowWrite_setPlatform s.platform o w
      rwa [← hs] at hwrite

/-! ## Whatever ERR holds (R256) -/

/-- What ERR holds when the faults that made `y` of a clear record come after those that made `e` (R255). -/
def ErrReg.followedBy (e y : ErrReg) : ErrReg :=
  { (if y.valid && !e.valid then y else e) with ovf := e.ovf || y.ovf || (e.valid && y.valid) }

theorem ErrReg.followedBy_clear (e : ErrReg) : e.followedBy ErrReg.clear = e := by
  simp [ErrReg.followedBy, ErrReg.clear]

theorem ErrReg.followedBy_record (e y : ErrReg) (code : FaultCode) (op : BitVec 4) (ctx : BitVec 8) :
    e.followedBy (y.record code op ctx) = (e.followedBy y).record code op ctx := by
  cases he : e.valid <;> cases hy : y.valid <;> simp [ErrReg.followedBy, ErrReg.record, he, hy]

/-- Earlier faults are unseen: each instruction only adds to the record. -/
theorem unseen_followedBy (e : ErrReg) : Unseen (fun s => { s with err := e.followedBy s.err }) (fun _ => True) where
  platform _ := rfl
  argAddr _ := rfl
  argLen _ := rfl
  mem _ := rfl
  draws _ := rfl
  reg _ _ := rfl
  nCtx _ := rfl
  slot _ _ _ := rfl
  raiseFault s code op ctx :=
    congrArg (fun r => { s with err := r }) (e.followedBy_record s.err code op ctx).symm
  setSlot _ _ _ _ := rfl
  setMem _ _ := rfl
  setReg _ _ _ := rfl
  drawn _ := rfl
  clobberXmm _ := rfl

/-- Settles O38: both runs are the run from a clear record, with the faults recorded before put back first. -/
theorem instructionsRunWhateverErr : Obligations.InstructionsRunWhateverErr := by
  intro i s e
  obtain ⟨t, ht⟩ := exec_completes i { s with err := ErrReg.clear }
  have replayed (d : ErrReg) : exec i { s with err := d } = .next { t with err := d.followedBy t.err } := by
    have h := (unseen_followedBy d).exec_next (fun _ _ _ => trivial) (fun _ _ _ => trivial) ht
    rwa [ErrReg.followedBy_clear] at h
  refine ⟨_, _, replayed s.err, replayed e, rfl, ?_⟩
  rcases (effect_of_exec ht).err_cases with h | ⟨code, op, c, _, rfl⟩
  · exact .inl (by simp only [h, ErrReg.followedBy_clear, and_self])
  · exact .inr ⟨code, op, BitVec.ofNat 8 c, by
      simp only [State.raiseFault_err, ErrReg.followedBy_record, ErrReg.followedBy_clear, and_self]⟩

end Sys2Proof.Machine
end
